-- ==== Sys2Proof/Word.lean ====
section
/-! DEFINITION. The plain value types of the block: bytes, 32-bit words, node indices, bit sequences, and the
256-entry tables that are indexed by a byte value (00_scope.md rules R6, R8, R9). -/

namespace Sys2Proof

/-- A byte, that is a symbol: an integer 0 to 255 (R8, R14). -/
abbrev Byte := BitVec 8

/-- The value of a register, of a weight counter or of a node weight: 32 bits (R6). -/
abbrev Word := BitVec 32

/-- A node index: 9 bits (R6). -/
abbrev NodeIndex := BitVec 9

/-- A bit sequence, element 0 first (R9). -/
abbrev Bits := List Bool

/-- A table with one entry for each of the 256 byte values; the size is part of the type (R26, R34). -/
structure ByteTable (α : Type) where
  entries : List α
  size_eq : entries.length = 256
deriving DecidableEq, Repr

end Sys2Proof
end

