-- ==== Sys2Proof/Syntax.lean ====
section
/-! DEFINITION. The instructions: one constructor per row of spec/opcode_table.json. Eleven are the commands a host
writes to the register CMD (30_encoding.md rule R80); two are the records of the serialized tree (rule R85), which are
no commands: the TreeCodec reads them from a byte stream while it deserializes. -/

namespace Sys2Proof

inductive Instr where
  /-- COUNT, 0x01: DBUF to WT (R100). -/
  | count
  /-- BUILD, 0x02: WT to the tree (R112). -/
  | build
  /-- GEN, 0x03: the tree to CT (R131). -/
  | gen
  /-- ENCODE, 0x04: DBUF and CT to PBUF and CONTENT_LEN (R141). -/
  | encode
  /-- SER, 0x05: the tree to TBUF (R161). -/
  | ser
  /-- ASM, 0x06: the tree, CONTENT_LEN and PBUF to TBUF and FBUF (R181). -/
  | asm
  /-- PARSE, 0x07: FBUF to TBUF, the tree, CONSUMED, CONTENT_LEN and PBUF (R184). -/
  | parse
  /-- DESER, 0x08: TBUF to the tree and CONSUMED (R163). -/
  | deser
  /-- DECODE, 0x09: PBUF, the tree and CONTENT_LEN to DBUF (R146). -/
  | decode
  /-- COMPRESS, 0x0A: DBUF to FBUF (R200). -/
  | compress
  /-- DECOMPRESS, 0x0B: FBUF to DBUF (R202). -/
  | decompress
  /-- TAG_INTERNAL, the one-byte record 0x00 of the serialized tree (R85). -/
  | tagInternal
  /-- TAG_LEAF, the two-byte record 0x01, v of the serialized tree (R85). -/
  | tagLeaf (v : Byte)
deriving DecidableEq, Repr

end Sys2Proof
end

