-- ==== Sys2Proof/Decode.lean ====
section
/-! DEFINITION. Decoding and encoding: the command word (30_encoding.md rules R80, R81) and the records of the serialized
tree (rules R84, R85). Decoding is total and rejects by name. -/

namespace Sys2Proof

/-- Why bits are no instruction. -/
inductive DecodeError where
  /-- the word is none of the eleven command words (R81) -/
  | illegalCommand
  /-- the marker byte is neither TAG_INTERNAL nor TAG_LEAF (R85) -/
  | unknownTag
  /-- the bytes end where a marker or a leaf value is due (R163) -/
  | truncatedRecord
  /-- bytes follow the one record that was asked for -/
  | trailingBytes
deriving DecidableEq, Repr

/-- An instruction as bits: a command is a 32-bit word, which is written to CMD and stored nowhere (R72, R80); a tree
record is one or two bytes (R85). -/
inductive Encoded where
  | command (w : Word)
  | record (bytes : List Byte)
deriving DecidableEq, Repr

/-- Bits 7:0 of a command word (R80). -/
def opField (w : Word) : Byte := w.extractLsb' 0 8

/-- Bits 31:8 of a command word, which must be 0 (R80). -/
def zeroField (w : Word) : BitVec 24 := w.extractLsb' 8 24

/-- The command of an opcode (the table of R80); every other opcode is illegal (R81). -/
def decodeOpcode (op : Byte) : Except DecodeError Instr :=
  match op.toNat with
  | 0x01 => .ok .count
  | 0x02 => .ok .build
  | 0x03 => .ok .gen
  | 0x04 => .ok .encode
  | 0x05 => .ok .ser
  | 0x06 => .ok .asm
  | 0x07 => .ok .parse
  | 0x08 => .ok .deser
  | 0x09 => .ok .decode
  | 0x0A => .ok .compress
  | 0x0B => .ok .decompress
  | _ => .error .illegalCommand

/-- Decoding a command word (R81). -/
def decodeCommand (w : Word) : Except DecodeError Instr :=
  if zeroField w = 0 then decodeOpcode (opField w) else .error .illegalCommand

/-- Reads one record of a serialized tree from the front of a byte sequence, with the number of bytes it takes (R85). The
value byte of a leaf record is never looked at as a marker. -/
def decodeRecord : List Byte → Except DecodeError (Instr × Nat)
  | [] => .error .truncatedRecord
  | tag :: rest =>
    if tag = 0x00 then .ok (.tagInternal, 1)
    else if tag = 0x01 then
      match rest with
      | [] => .error .truncatedRecord
      | v :: _ => .ok (.tagLeaf v, 2)
    else .error .unknownTag

/-- Decodes an instruction in either of its forms; a record is decoded from exactly its own bytes. -/
def decode : Encoded → Except DecodeError Instr
  | .command w => decodeCommand w
  | .record bytes =>
    match decodeRecord bytes with
    | .error e => .error e
    | .ok (i, size) => if bytes.length = size then .ok i else .error .trailingBytes

/-- The bits of an instruction: the opcodes of R80, the tags of R85. -/
def encode : Instr → Encoded
  | .count => .command 0x00000001
  | .build => .command 0x00000002
  | .gen => .command 0x00000003
  | .encode => .command 0x00000004
  | .ser => .command 0x00000005
  | .asm => .command 0x00000006
  | .parse => .command 0x00000007
  | .deser => .command 0x00000008
  | .decode => .command 0x00000009
  | .compress => .command 0x0000000A
  | .decompress => .command 0x0000000B
  | .tagInternal => .record [0x00]
  | .tagLeaf v => .record [0x01, v]

/-- The bytes of a tree record laid out from the bits of a table word: bits 7:0 are the first byte, bits 15:8 the second. -/
def recordBytes (w : Nat) : List Byte := [BitVec.ofNat 8 w, BitVec.ofNat 8 (w / 256)]

/-- The instruction the decoder reads from a word numbered as spec/opcode_table.json numbers it. A row of fewer than 32
bits is a tree record, read from its bytes; the other rows are command words. -/
def decodeTableWord (nbits w : Nat) : Option Instr :=
  if nbits < 32 then
    match decodeRecord (recordBytes w) with
    | .ok (i, _) => some i
    | .error _ => none
  else if w < 2 ^ 32 then
    match decodeCommand (BitVec.ofNat 32 w) with
    | .ok i => some i
    | .error _ => none
  else none

end Sys2Proof
end

