-- ==== Sys2Proof/Config.lean ====
section
/-! DEFINITION. What an instance of the block fixes: the constants of 00_scope.md rule R6 and the four open
capacities of rule R7. -/

namespace Sys2Proof

namespace Config

/-- NODE_CAP, the number of records of the node store (R6). -/
def nodeCap : Nat := 511

/-- CODE_MAX, the largest code length in bits (R6). -/
def codeMax : Nat := 255

/-- The smallest TBUF_CAP an instance may have: the serialized size of a 511-node tree (R7, R87). -/
def tbufCapMin : Nat := 767

end Config

/-- The capacities in bytes of the four byte buffers: parameters of an instance, each at most 2^32 - 1 because it is a
32-bit register value (R7, R44). -/
structure Capacities where
  dbuf : Word
  tbuf : Word
  pbuf : Word
  fbuf : Word
deriving DecidableEq, Repr

/-- "A model that wants the behaviour of the unbounded software of the source sets all four to 2^32 - 1" (R7). -/
def Capacities.unbounded : Capacities :=
  { dbuf := 0xFFFFFFFF, tbuf := 0xFFFFFFFF, pbuf := 0xFFFFFFFF, fbuf := 0xFFFFFFFF }

end Sys2Proof
end

