-- ==== Sys2Proof/Machine/HostOp.lean ====
section
/-! DEFINITION. What the host can ask of the block and what it gets back: the host operations of 47_host_access.md rule
R210 with their operands as the host gives them (plain numbers, so that an operand outside its range can be written and
is refused, rule R219), and the responses. -/

namespace Sys2Proof

/-- The four byte buffers (10_state.md rule R24). -/
inductive Buf where
  | dbuf
  | tbuf
  | pbuf
  | fbuf
deriving DecidableEq, Repr

/-- The sixteen registers, in the order of their numbers 0x00 to 0x0F (10_state.md rule R38). -/
inductive Reg where
  | cmd
  | status
  | errinfo
  | errlog
  | contentLen
  | consumed
  | root
  | nodeCnt
  | dbufLen
  | tbufLen
  | pbufLen
  | fbufLen
  | dbufCap
  | tbufCap
  | pbufCap
  | fbufCap
deriving DecidableEq, Repr

/-- The host operations (R210). A buffer is given by its id and a register by its number. -/
inductive HostOp where
  /-- H.RESET (R260) -/
  | reset
  /-- H.CLEAR B (R211) -/
  | clear (buf : Nat)
  /-- H.PUSH B, v (R212) -/
  | push (buf v : Nat)
  /-- H.RDBYTE B, i (R213) -/
  | rdbyte (buf i : Nat)
  /-- H.RDREG r (R214) -/
  | rdreg (r : Nat)
  /-- H.WRREG r, v (R215); with r = 0x00, CMD, it issues a command -/
  | wrreg (r v : Nat)
  /-- H.RDWT s (R216) -/
  | rdwt (s : Nat)
  /-- H.RDCT s (R217) -/
  | rdct (s : Nat)
  /-- H.RDNODE i (R218) -/
  | rdnode (i : Nat)
deriving DecidableEq, Repr

/-- A node record as H.RDNODE delivers it: the five fields of 10_state.md rule R30. -/
structure NodeRecord where
  kind : BitVec 1
  sym : Byte
  weight : Word
  left : NodeIndex
  right : NodeIndex
deriving DecidableEq, Repr

/-- The response of a host operation: OK, with a value for the reads, or REFUSED (R210). -/
inductive Response where
  | ok
  | okByte (b : Byte)
  | okWord (w : Word)
  /-- a code entry as H.RDCT delivers it: valid, len, code field (R217) -/
  | okCode (valid : BitVec 1) (len : BitVec 8) (field : BitVec 255)
  | okNode (n : NodeRecord)
  | refused
deriving DecidableEq, Repr

end Sys2Proof
end

