-- ==== Sys2Proof/Machine/State.lean ====
section
/-! DEFINITION. The state of the block (10_state.md rule R20) as plain data, and its value after reset (rule R45). An
object with a valid flag is an Option: `none` is the flag at 0, when the object "holds no value" and none may be picked
for it (rules R23, R46). -/

namespace Sys2Proof.Machine

/-- The four byte buffers: each value is a byte sequence, "the whole value of the buffer" (R24, R60). -/
structure Memory where
  dbuf : List Byte
  tbuf : List Byte
  pbuf : List Byte
  fbuf : List Byte
deriving DecidableEq, Repr

/-- A record of the node store: the fields that R30 says an internal record and a leaf record use. The fields it does not
use are 0 in the five-field view (`Node.record`). -/
inductive Node where
  | leaf (sym : Byte) (weight : Word)
  | internal (weight : Word) (left right : NodeIndex)
deriving DecidableEq, Repr

/-- A valid tree object: NODE[0] to NODE[NODE_CNT - 1], and ROOT (R29 to R31). NODE_CNT is the length. -/
structure NodeStore where
  nodes : List Node
  root : NodeIndex
deriving DecidableEq, Repr

/-- WT, 256 counters of 32 bits (R26). -/
abbrev WeightTable := ByteTable Word

/-- CT, 256 entries; an entry is `none` when its valid bit is 0, and its len is the length of its code (R34). -/
abbrev CodeTable := ByteTable (Option Bits)

/-- Where the index of the next node of a deserialized tree will be written (R163): it is the root, or a child field of an
internal record whose marker has been read. -/
inductive Slot where
  | root
  | left (parent : Nat)
  | right (parent : Nat)
deriving DecidableEq, Repr

/-- The command-local state of the deserializer (R39, R163): the cursor `cur`, the records allocated so far (`n` is their
number), and the nodes still due, nearest first, which is what the recursion of `parse_node` holds (R86: their number is
`need`). -/
structure TreeReading where
  cur : Nat
  nodes : List Node
  todo : List Slot
deriving DecidableEq, Repr

/-- No tree is being read: the value between host operations (R39). -/
def TreeReading.idle : TreeReading := { cur := 0, nodes := [], todo := [] }

/-- A tree is about to be read: `cur <- 0`, `n <- 0`, the root is due (R163). -/
def TreeReading.start : TreeReading := { cur := 0, nodes := [], todo := [.root] }

/-- The errors a command can end with (60_exceptions.md rule R231). -/
inductive ErrorKind where
  | emptyInput
  | malformedTree
  | truncatedFile
  | corruptStream
  | sequence
  | invariant
  | capacity
  | illegalCmd
deriving DecidableEq, Repr

/-- An error with its sub-cause and its information value, as `raise E(sub, info)` gives them (R236). -/
structure CmdError where
  kind : ErrorKind
  sub : BitVec 4
  info : Nat
deriving DecidableEq, Repr

/-- Why the model stops. The errors of the block are no such stop: a command that ends with an error code is a next state
(R235). -/
inductive Fault where
  /-- Raised by GEN, DECODE, SER and ASM when TREE_VALID is 1 and the node store represents no tree, which rule R33 says no
  command brings about. Safe: the block has no such state, and the model stops there. -/
  | brokenNodeStore
deriving DecidableEq, Repr

/-- Why the model gives an instruction no meaning. -/
inductive Refusal where
  /-- An arm of exec that has no meaning yet; safe. -/
  | notModelled (mnemonic : String)
deriving DecidableEq, Repr

structure State where
  /-- DBUF_CAP, TBUF_CAP, PBUF_CAP, FBUF_CAP (R7, R44): parameters of the instance, which no step changes -/
  caps : Capacities
  /-- DBUF, TBUF, PBUF, FBUF (R24) -/
  mem : Memory
  /-- WT and WT_VALID (R26, R27) -/
  wt : Option WeightTable
  /-- NODE, ROOT, NODE_CNT and TREE_VALID (R29 to R31) -/
  tree : Option NodeStore
  /-- CT and CT_VALID (R34, R35) -/
  ct : Option CodeTable
  /-- CONTENT_LEN (R36) -/
  contentLen : Word
  /-- CONSUMED (R37) -/
  consumed : Word
  /-- STATUS.ERR (R40) -/
  err : BitVec 4
  /-- STATUS.SUB (R40) -/
  sub : BitVec 4
  /-- STATUS.LASTOP (R40) -/
  lastop : Byte
  /-- ERRINFO (R41) -/
  errinfo : Word
  /-- ERRLOG (R42) -/
  errlog : Word
  /-- the model's own: the deserializer's local state while it reads a tree record by record; idle between host operations -/
  reading : TreeReading
  /-- the model's own: the operations the host is about to issue, next first (R15, R69) -/
  host : List HostOp
  /-- the model's own: the response of the last host operation (R210) -/
  response : Option Response
deriving DecidableEq, Repr

/-- All four buffers empty (R45). -/
def Memory.empty : Memory := { dbuf := [], tbuf := [], pbuf := [], fbuf := [] }

/-- The state after H.RESET of an instance with the capacities `c` (R45, R260). -/
def State.resetWith (c : Capacities) : State where
  caps := c
  mem := Memory.empty
  wt := none
  tree := none
  ct := none
  contentLen := 0
  consumed := 0
  err := 0
  sub := 0
  lastop := 0
  errinfo := 0
  errlog := 0
  reading := TreeReading.idle
  host := []
  response := none

/-- The state right after reset. DESIGN CHOICE (notes/assumptions/1.md): the instance has the unbounded capacities of R7. -/
def State.reset : State := State.resetWith Capacities.unbounded

end Sys2Proof.Machine
end

