-- ==== Sys2Proof/Machine/Operands.lean ====
section
/-! DEFINITION. How values are assembled from bytes and bits and how buffers, tables and node records are read (00_scope.md
rules R9, R10; 20_memory.md rules R62, R63, R67; 30_encoding.md rules R83, R90). -/

namespace Sys2Proof

/-- The position of a byte's entry lies in the table. -/
theorem ByteTable.index_lt {α : Type} (t : ByteTable α) (b : Byte) : b.toNat < t.entries.length := by
  rw [t.size_eq]; exact b.isLt

/-- The table with every entry equal to `a`. -/
def ByteTable.const {α : Type} (a : α) : ByteTable α := ⟨List.replicate 256 a, List.length_replicate⟩

/-- `x[b]`, the entry of the byte value b (R10). -/
def ByteTable.get {α : Type} (t : ByteTable α) (b : Byte) : α := t.entries[b.toNat]'(t.index_lt b)

/-- `x[b] <- a` (R10). -/
def ByteTable.set {α : Type} (t : ByteTable α) (b : Byte) (a : α) : ByteTable α :=
  ⟨t.entries.set b.toNat a, by rw [List.length_set, t.size_eq]⟩

/-- The byte values 0 to 255 in ascending order. -/
def allBytes : List Byte := (List.range 256).map (BitVec.ofNat 8)

namespace Machine

/-! ### Bytes and words -/

/-- `be32(v)`: the four bytes of a word, most significant first (R9, R62). -/
def be32 (v : Word) : List Byte :=
  [v.extractLsb' 24 8, v.extractLsb' 16 8, v.extractLsb' 8 8, v.extractLsb' 0 8]

/-- `u32be(X)`: the number whose base-256 digits are the bytes of X, most significant first; for four bytes it is
`X[0]*2^24 + X[1]*2^16 + X[2]*2^8 + X[3]` (R9). -/
def u32be (X : List Byte) : Nat := X.foldl (fun acc b => acc * 256 + b.toNat) 0

/-- `MemRead(B+i, n)`: the n bytes from index i on. Every use has tested `i + n <= len(B)` first (R10, R67). -/
def memRead (B : List Byte) (i n : Nat) : List Byte := (B.drop i).take n

/-! ### Bits -/

/-- A bit as a number. -/
def bitValue (b : Bool) : Nat := if b then 1 else 0

/-- The byte of eight bits, the first the most significant (R9, R63). -/
def byteOfBits (b7 b6 b5 b4 b3 b2 b1 b0 : Bool) : Byte :=
  BitVec.ofNat 8 (128 * bitValue b7 + 64 * bitValue b6 + 32 * bitValue b5 + 16 * bitValue b4
    + 8 * bitValue b3 + 4 * bitValue b2 + 2 * bitValue b1 + bitValue b0)

/-- The bits of a byte, bit 7 first (R63). -/
def bitsOfByte (b : Byte) : Bits :=
  [b.getLsbD 7, b.getLsbD 6, b.getLsbD 5, b.getLsbD 4, b.getLsbD 3, b.getLsbD 2, b.getLsbD 1, b.getLsbD 0]

/-- `pack(bits)`, for a length that is a multiple of 8 (R9). -/
def pack : Bits → List Byte
  | b7 :: b6 :: b5 :: b4 :: b3 :: b2 :: b1 :: b0 :: rest => byteOfBits b7 b6 b5 b4 b3 b2 b1 b0 :: pack rest
  | _ => []

/-- `unpack(X)`: bit number k of X is `X[k div 8][7 - (k mod 8)]` (R9). -/
def unpack (X : List Byte) : Bits := X.flatMap bitsOfByte

/-- The number of pad bits, `p = (8 - (len mod 8)) mod 8` (R83). -/
def padCount (len : Nat) : Nat := (8 - len % 8) % 8

/-- `bits ++ 0^p` (R83). -/
def padded (bits : Bits) : Bits := bits ++ List.replicate (padCount bits.length) false

/-- A bit sequence read as a number, first bit most significant. -/
def bitsToNat (c : Bits) : Nat := c.foldl (fun acc b => 2 * acc + bitValue b) 0

/-- The 255-bit field in which H.RDCT delivers a code: element j at field bit 254 - j, the unused low bits zero (R217). -/
def codeField (c : Bits) : BitVec 255 := BitVec.ofNat 255 (bitsToNat c * 2 ^ (Config.codeMax - c.length))

/-! ### Buffers -/

/-- The buffer with an id (R24). -/
def bufOfId : Nat → Option Buf
  | 0 => some .dbuf
  | 1 => some .tbuf
  | 2 => some .pbuf
  | 3 => some .fbuf
  | _ => none

/-- The content of a buffer. -/
def Memory.get (m : Memory) : Buf → List Byte
  | .dbuf => m.dbuf
  | .tbuf => m.tbuf
  | .pbuf => m.pbuf
  | .fbuf => m.fbuf

/-- `B <- X`: replaces the whole content of a buffer (R10). -/
def Memory.put (m : Memory) (b : Buf) (X : List Byte) : Memory :=
  match b with
  | .dbuf => { m with dbuf := X }
  | .tbuf => { m with tbuf := X }
  | .pbuf => { m with pbuf := X }
  | .fbuf => { m with fbuf := X }

/-- The byte at an index of a buffer; there is none at or beyond its length (R24, R67). -/
def Memory.readByte (m : Memory) (b : Buf) (i : Nat) : Option Byte := (m.get b)[i]?

/-- `B_CAP` (R7). -/
def capOf (c : Capacities) : Buf → Nat
  | .dbuf => c.dbuf.toNat
  | .tbuf => c.tbuf.toNat
  | .pbuf => c.pbuf.toNat
  | .fbuf => c.fbuf.toNat

/-- Memory is well formed when no buffer is longer than its capacity (R24, R67). A byte sequence is its own canonical
form: an index below the length has exactly one byte, any other index has none. -/
def Memory.wf (c : Capacities) (m : Memory) : Bool :=
  decide (m.dbuf.length ≤ capOf c .dbuf) && decide (m.tbuf.length ≤ capOf c .tbuf)
    && decide (m.pbuf.length ≤ capOf c .pbuf) && decide (m.fbuf.length ≤ capOf c .fbuf)

/-- The id of a buffer (R24). -/
def bufId : Buf → Nat
  | .dbuf => 0
  | .tbuf => 1
  | .pbuf => 2
  | .fbuf => 3

/-- The bytes of a buffer as cells, the byte at index i of the buffer with id k at the address k * 2^32 + i. -/
def bufCells (m : Memory) (b : Buf) : List Host.Cell :=
  (m.get b).mapIdx fun i v => (bufId b * 2 ^ 32 + i, v)

/-- All four buffers as one list of cells. -/
def Memory.cells (m : Memory) : List Host.Cell :=
  bufCells m .dbuf ++ bufCells m .tbuf ++ bufCells m .pbuf ++ bufCells m .fbuf

/-- The content of a buffer of the state. -/
def State.buf (s : State) (b : Buf) : List Byte := s.mem.get b

/-- `B <- X` on the state. -/
def State.setBuf (s : State) (b : Buf) (X : List Byte) : State := { s with mem := s.mem.put b X }

/-! ### Node records -/

/-- The weight field of a record (R30). -/
def Node.weight : Node → Word
  | .leaf _ w => w
  | .internal w _ _ => w

/-- The five fields of a record: kind 1 for a leaf, 0 for an internal node; a field the kind does not use is 0 (R30). -/
def Node.record : Node → NodeRecord
  | .leaf s w => { kind := 1, sym := s, weight := w, left := 0, right := 0 }
  | .internal w l r => { kind := 0, sym := 0, weight := w, left := l, right := r }

/-- The record with its left child set; a leaf has none. -/
def Node.withLeft (i : Nat) : Node → Node
  | .leaf s w => .leaf s w
  | .internal w _ r => .internal w (BitVec.ofNat 9 i) r

/-- The record with its right child set; a leaf has none. -/
def Node.withRight (i : Nat) : Node → Node
  | .leaf s w => .leaf s w
  | .internal w l _ => .internal w l (BitVec.ofNat 9 i)

end Machine

end Sys2Proof
end

