-- ==== Sys2Proof/Machine/Flags.lean ====
section
/-! DEFINITION. The valid flags, the fields of STATUS, the error codes and the register map as the host reads it
(10_state.md rules R23, R31, R38, R40 to R44; 60_exceptions.md rules R231 to R233). The block has no arithmetic flags. -/

namespace Sys2Proof.Machine

/-- WT_VALID (R27). -/
def State.wtValid (s : State) : Bool := s.wt.isSome

/-- TREE_VALID (R29). -/
def State.treeValid (s : State) : Bool := s.tree.isSome

/-- CT_VALID (R35). -/
def State.ctValid (s : State) : Bool := s.ct.isSome

/-- ROOT, which reads 0 while TREE_VALID is 0 (R29, R31). -/
def State.root (s : State) : NodeIndex :=
  match s.tree with
  | none => 0
  | some st => st.root

/-- NODE_CNT, which reads 0 while TREE_VALID is 0 (R29, R31). -/
def State.nodeCnt (s : State) : Nat :=
  match s.tree with
  | none => 0
  | some st => st.nodes.length

/-- STATUS: bits 31:19 zero, CT_VALID 18, TREE_VALID 17, WT_VALID 16, LASTOP 15:8, SUB 7:4, ERR 3:0 (R40). -/
def State.status (s : State) : Word :=
  (0 : BitVec 13) ++ BitVec.ofBool s.ctValid ++ BitVec.ofBool s.treeValid ++ BitVec.ofBool s.wtValid
    ++ s.lastop ++ s.sub ++ s.err

/-- The error codes (R231). -/
def ErrorKind.code : ErrorKind → BitVec 4
  | .emptyInput => 1
  | .malformedTree => 2
  | .truncatedFile => 3
  | .corruptStream => 4
  | .sequence => 5
  | .invariant => 6
  | .capacity => 7
  | .illegalCmd => 8

/-- ERRLOG with the bit of an error code set; the bits set before stay set (R42). -/
def logError (log : Word) (code : BitVec 4) : Word := log ||| (1#32 <<< code.toNat)

/-- EmptyInputError(0, 0) (R239). -/
def emptyInputError : CmdError := { kind := .emptyInput, sub := 0, info := 0 }

/-- MalformedTreeError(sub, offset) (R240). -/
def malformedTreeError (sub : BitVec 4) (offset : Nat) : CmdError := { kind := .malformedTree, sub := sub, info := offset }

/-- TruncatedFileError(sub, offset) (R241). -/
def truncatedFileError (sub : BitVec 4) (offset : Nat) : CmdError := { kind := .truncatedFile, sub := sub, info := offset }

/-- CorruptStreamError(sub, produced) (R242). -/
def corruptStreamError (sub : BitVec 4) (produced : Nat) : CmdError :=
  { kind := .corruptStream, sub := sub, info := produced }

/-- SequenceError(sub, 0); sub 1 is WT, 2 the tree, 3 CT (R232, R244). -/
def sequenceError (sub : BitVec 4) : CmdError := { kind := .sequence, sub := sub, info := 0 }

/-- InvariantError(0, index) (R245). -/
def invariantError (index : Nat) : CmdError := { kind := .invariant, sub := 0, info := index }

/-- CapacityError(sub, 0); sub 1 is DBUF, 2 TBUF, 3 PBUF, 4 FBUF, 5 NODE (R232, R246). -/
def capacityError (sub : BitVec 4) : CmdError := { kind := .capacity, sub := sub, info := 0 }

/-- ILLEGAL_CMD with the whole word as its information value (R233, R247). -/
def illegalCmdError (w : Word) : CmdError := { kind := .illegalCmd, sub := 0, info := w.toNat }

/-- The register of a number (R38). -/
def regOfNumber : Nat → Option Reg
  | 0x00 => some .cmd
  | 0x01 => some .status
  | 0x02 => some .errinfo
  | 0x03 => some .errlog
  | 0x04 => some .contentLen
  | 0x05 => some .consumed
  | 0x06 => some .root
  | 0x07 => some .nodeCnt
  | 0x08 => some .dbufLen
  | 0x09 => some .tbufLen
  | 0x0A => some .pbufLen
  | 0x0B => some .fbufLen
  | 0x0C => some .dbufCap
  | 0x0D => some .tbufCap
  | 0x0E => some .pbufCap
  | 0x0F => some .fbufCap
  | _ => none

/-- A number as a register value. -/
def wordOfNat (n : Nat) : Word := BitVec.ofNat 32 n

/-- The value a host read of a register delivers; CMD is write-only and delivers none (R38, R214). -/
def State.readReg (s : State) : Reg → Option Word
  | .cmd => none
  | .status => some s.status
  | .errinfo => some s.errinfo
  | .errlog => some s.errlog
  | .contentLen => some s.contentLen
  | .consumed => some s.consumed
  | .root => some (s.root.setWidth 32)
  | .nodeCnt => some (wordOfNat s.nodeCnt)
  | .dbufLen => some (wordOfNat (s.buf .dbuf).length)
  | .tbufLen => some (wordOfNat (s.buf .tbuf).length)
  | .pbufLen => some (wordOfNat (s.buf .pbuf).length)
  | .fbufLen => some (wordOfNat (s.buf .fbuf).length)
  | .dbufCap => some s.caps.dbuf
  | .tbufCap => some s.caps.tbuf
  | .pbufCap => some s.caps.pbuf
  | .fbufCap => some s.caps.fbuf

end Sys2Proof.Machine
end

