-- ==== Sys2Proof/Machine/Ops.lean ====
section
/-! DEFINITION. The command frame (60_exceptions.md rules R235 to R238): the objects a command reads and writes
(10_state.md rule R47), clearing the destinations, checking the sources, running the body, and ending with a success or
with an error. An error is the block's only exception: it has no vector, no saved program counter and no mode (R235),
and nothing returns from it (R249). -/

namespace Sys2Proof.Machine

/-! ### Objects -/

/-- The objects of the table of R47. "The tree" is NODE, ROOT, NODE_CNT and TREE_VALID together; WT and CT include their
valid flags. -/
inductive Obj where
  | buf (b : Buf)
  | wt
  | tree
  | ct
  | contentLen
  | consumed
deriving DecidableEq, Repr

/-- The destination objects of a command (R47). A tree record is part of a DESER and has its destinations. -/
def destinations : Instr → List Obj
  | .count => [.wt]
  | .build => [.tree]
  | .gen => [.ct]
  | .encode => [.buf .pbuf, .contentLen]
  | .ser => [.buf .tbuf]
  | .asm => [.buf .tbuf, .buf .fbuf]
  | .parse => [.tree, .buf .pbuf, .contentLen, .buf .tbuf, .consumed]
  | .deser => [.tree, .consumed]
  | .decode => [.buf .dbuf]
  | .compress => [.wt, .tree, .ct, .buf .pbuf, .contentLen, .buf .tbuf, .buf .fbuf]
  | .decompress => [.buf .dbuf, .tree, .buf .pbuf, .contentLen, .buf .tbuf, .consumed]
  | .tagInternal => [.tree, .consumed]
  | .tagLeaf _ => [.tree, .consumed]

/-- Puts one object at its reset value (R235 step 3). -/
def clearObj (s : State) : Obj → State
  | .buf b => s.setBuf b []
  | .wt => { s with wt := none }
  | .tree => { s with tree := none }
  | .ct => { s with ct := none }
  | .contentLen => { s with contentLen := 0 }
  | .consumed => { s with consumed := 0 }

/-- Puts every object of a list at its reset value (R235 step 3). -/
def clearObjs (objs : List Obj) (s : State) : State := objs.foldl clearObj s

/-! ### How a command ends -/

/-- A command that completed: ERR, SUB and ERRINFO are 0 (R235 step 6). -/
def State.succeed (s : State) : State := { s with err := 0, sub := 0, errinfo := 0 }

/-- Taking an error, the one shared operation: ERR and SUB say which, ERRINFO holds its information value, and the bit of
its code is set in ERRLOG (R235 step 6). -/
def State.takeError (s : State) (e : CmdError) : State :=
  { s with
    err := e.kind.code
    sub := e.sub
    errinfo := wordOfNat e.info
    errlog := logError s.errlog e.kind.code }

/-- What a body, or a step of a composite, did. -/
inductive StepResult where
  /-- it reached its end and committed its destinations (R237) -/
  | done (s : State)
  /-- it raised an error; `s` is what is then left: the destinations as the frame cleared them, except those that
  completed steps of a composite committed (R235, R237) -/
  | raised (s : State) (e : CmdError)
  /-- the model stops: a valid tree object that represents no tree -/
  | stuck (f : Fault)
deriving Repr

/-- The next step of a composite runs only if the one before completed (R204, R236). -/
def StepResult.andThen (r : StepResult) (next : State → StepResult) : StepResult :=
  match r with
  | .done s => next s
  | .raised s e => .raised s e
  | .stuck f => .stuck f

/-- Step 6 of the frame (R235). -/
def finish : StepResult → Host.Outcome State Fault Refusal
  | .done s => .next s.succeed
  | .raised s e => .next (s.takeError e)
  | .stuck f => .fault f

/-- Steps 2 and 3 of the frame: LASTOP is the opcode and the destinations are cleared (R235). -/
def openFrame (i : Instr) (op : Byte) (s : State) : State := clearObjs (destinations i) { s with lastop := op }

/-- The command frame of a legal command word (R235 steps 2 to 6). -/
def frame (i : Instr) (op : Byte) (body : State → StepResult) (s : State) : Host.Outcome State Fault Refusal :=
  finish (body (openFrame i op s))

/-- Step 1 of the frame for an illegal word: only STATUS, ERRINFO and ERRLOG change; LASTOP is the word's low byte (R235,
R247). -/
def illegalCommand (w : Word) (s : State) : State := { s with lastop := opField w }.takeError (illegalCmdError w)

/-! ### Source checks -/

/-- A step that needs WT: SEQUENCE sub 1 while WT_VALID is 0 (R235 step 4, R244). -/
def needWt (s : State) (body : WeightTable → StepResult) : StepResult :=
  match s.wt with
  | none => .raised s (sequenceError 1)
  | some wt => body wt

/-- A step that needs CT: SEQUENCE sub 3 while CT_VALID is 0 (R235 step 4, R244). -/
def needCt (s : State) (body : CodeTable → StepResult) : StepResult :=
  match s.ct with
  | none => .raised s (sequenceError 3)
  | some ct => body ct

end Sys2Proof.Machine
end

