-- ==== Sys2Proof/Machine/Analyzer.lean ====
section
/-! DEFINITION. The FrequencyAnalyzer: COUNT (40_frequency_analyzer.md). -/

namespace Sys2Proof.Machine

/-- `WT[b] <- WT[b] + 1` (R100). The addition never wraps for a buffer within its capacity (R102). -/
def bump (wt : WeightTable) (b : Byte) : WeightTable := wt.set b (wt.get b + 1)

/-- `count(D)` as the body of COUNT computes it: zero every counter, then one pass over the bytes (R100). -/
def countTable (D : List Byte) : WeightTable := D.foldl bump (ByteTable.const 0)

/-- The body of COUNT (R100). -/
def countStep (s : State) : StepResult := .done { s with wt := some (countTable (s.buf .dbuf)) }

/-- COUNT (R100). -/
def execCount (s : State) : Host.Outcome State Fault Refusal := frame .count 0x01 countStep s

end Sys2Proof.Machine
end

