-- ==== Sys2Proof/Machine/Builder.lean ====
section
/-! DEFINITION. The CodeTreeBuilder: BUILD (41_tree_builder.md). -/

namespace Sys2Proof.Machine

/-- The byte values present in a weight table, in ascending order: `syms` of R112. -/
def presentSyms (wt : WeightTable) : List Byte := allBytes.filter fun s => decide (wt.get s ≠ 0)

/-- The leaves, at indices 0 to L-1 in ascending order of byte value (R112, R115). -/
def leafNodes (wt : WeightTable) : List Node := (presentSyms wt).map fun s => .leaf s (wt.get s)

/-- The weight of NODE[i]. Every use is at an index below the number of records. -/
def weightAt (nodes : List Node) (i : Nat) : Word :=
  match nodes[i]? with
  | some n => n.weight
  | none => 0

/-- Node i comes before node j in the order of R113: the pair (weight, index), weight first, both unsigned. -/
def lighter (nodes : List Node) (i j : Nat) : Bool :=
  decide ((weightAt nodes i).toNat < (weightAt nodes j).toNat) ||
    (decide ((weightAt nodes i).toNat = (weightAt nodes j).toNat) && decide (i < j))

/-- The least node of a set of indices (R113); there is none in the empty set. -/
def least (nodes : List Node) : List Nat → Option Nat
  | [] => none
  | i :: rest =>
    match least nodes rest with
    | none => some i
    | some j => some (if lighter nodes i j then i else j)

/-- The internal record that merges nodes a and b: weight their sum, a left, b right (R112, R114). No sum wraps for a WT
made by COUNT (R119). -/
def mergedNode (nodes : List Node) (a b : Nat) : Node :=
  .internal (weightAt nodes a + weightAt nodes b) (BitVec.ofNat 9 a) (BitVec.ofNat 9 b)

/-- The while loop of R112, with a bound on the number of rounds: while `live` has two elements or more, the two least are
merged into the next free index. -/
def mergeLoop : Nat → List Node → List Nat → List Node
  | 0, nodes, _ => nodes
  | rounds + 1, nodes, live =>
    match least nodes live with
    | none => nodes
    | some a =>
      match least nodes (live.erase a) with
      | none => nodes
      | some b => mergeLoop rounds (nodes ++ [mergedNode nodes a b]) ((live.erase a).erase b ++ [nodes.length])

/-- The node records of the tree of a weight table (R112): none for the empty table, the real leaf, the sentinel leaf and
their parent for one byte value (R116), the merge loop otherwise. Each round merges two nodes into one, so as many rounds
as there are leaves are enough. -/
def buildNodes (wt : WeightTable) : List Node :=
  match presentSyms wt with
  | [] => []
  | [s] => [.leaf s (wt.get s), .leaf (s + 1) 0, .internal (wt.get s) 0 1]
  | _ :: _ :: _ => mergeLoop (leafNodes wt).length (leafNodes wt) (List.range (leafNodes wt).length)

/-- The tree object BUILD makes: ROOT is the last node created (R112, R115). -/
def buildStore (wt : WeightTable) : NodeStore :=
  { nodes := buildNodes wt, root := BitVec.ofNat 9 ((buildNodes wt).length - 1) }

/-- The body of BUILD (R112), with its source check. -/
def buildStep (s : State) : StepResult :=
  needWt s fun wt =>
    if presentSyms wt = [] then .raised s emptyInputError else .done { s with tree := some (buildStore wt) }

/-- BUILD (R112). -/
def execBuild (s : State) : Host.Outcome State Fault Refusal := frame .build 0x02 buildStep s

end Sys2Proof.Machine
end

