-- ==== Sys2Proof/Machine/Tree.lean ====
section
/-! DEFINITION. The code tree as a term (00_scope.md rules R11, R12), reading it out of the node store, and its serialized
form (30_encoding.md rules R84, R85). -/

namespace Sys2Proof.Machine

/-- The code tree of R11: each internal node owns its two children, so sharing and cycles cannot be written. -/
inductive CodeTree where
  | leaf (value : Byte) (weight : Word)
  | internal (weight : Word) (left right : CodeTree)
deriving DecidableEq, Repr

/-- A tree with its weights erased (R11). -/
inductive TreeShape where
  | leaf (value : Byte)
  | node (left right : TreeShape)
deriving DecidableEq, Repr

/-- `shape(T)` (R11); two trees are equal in shape when this is the same (R12). -/
def CodeTree.shape : CodeTree → TreeShape
  | .leaf v _ => .leaf v
  | .internal _ l r => .node l.shape r.shape

/-- `weight` of the root of a tree. -/
def CodeTree.weight : CodeTree → Word
  | .leaf _ w => w
  | .internal w _ _ => w

/-- The leaf values, left before right. -/
def CodeTree.leafValues : CodeTree → List Byte
  | .leaf v _ => [v]
  | .internal _ l r => l.leafValues ++ r.leafValues

/-- The number of nodes. -/
def CodeTree.size : CodeTree → Nat
  | .leaf _ _ => 1
  | .internal _ l r => 1 + l.size + r.size

/-- `tree_of(i)` (R11), with a bound on the depth; `none` when the records reached from i are no tree of at most that
depth. -/
def treeAt (nodes : List Node) : Nat → Nat → Option CodeTree
  | 0, _ => none
  | depth + 1, i =>
    match nodes[i]? with
    | none => none
    | some (.leaf v w) => some (.leaf v w)
    | some (.internal w l r) =>
      match treeAt nodes depth l.toNat, treeAt nodes depth r.toNat with
      | some lt, some rt => some (.internal w lt rt)
      | _, _ => none

/-- `tree_of(ROOT)` (R11, R29). A tree of n nodes has at most n levels. -/
def NodeStore.tree? (st : NodeStore) : Option CodeTree := treeAt st.nodes st.nodes.length st.root.toNat

/-- The node indices below i in preorder, with a bound on the depth; `none` when the records are no tree. -/
def indicesAt (nodes : List Node) : Nat → Nat → Option (List Nat)
  | 0, _ => none
  | depth + 1, i =>
    match nodes[i]? with
    | none => none
    | some (.leaf _ _) => some [i]
    | some (.internal _ l r) =>
      match indicesAt nodes depth l.toNat, indicesAt nodes depth r.toNat with
      | some ls, some rs => some (i :: (ls ++ rs))
      | _, _ => none

/-- `ser(T)` (R84, R85). -/
def CodeTree.ser : CodeTree → List Byte
  | .leaf v _ => [0x01, v]
  | .internal _ l r => 0x00 :: (l.ser ++ r.ser)

/-- A step that needs the tree: SEQUENCE sub 2 while TREE_VALID is 0 (R235 step 4, R244). A valid store that represents no
tree, which R33 excludes, stops the model. -/
def needTree (s : State) (body : CodeTree → StepResult) : StepResult :=
  match s.tree with
  | none => .raised s (sequenceError 2)
  | some st =>
    match st.tree? with
    | none => .stuck .brokenNodeStore
    | some T => body T

end Sys2Proof.Machine
end

