-- ==== Sys2Proof/Machine/TreeCodec.lean ====
section
/-! DEFINITION. The TreeCodec: SER, DESER, and the two records of the serialized tree that a deserialization reads
(44_tree_codec.md; 30_encoding.md rules R84 to R86). -/

namespace Sys2Proof.Machine

/-! ### SER -/

/-- The body of SER (R161), with its source check. -/
def serStep (s : State) : StepResult := needTree s fun T => .done (s.setBuf .tbuf T.ser)

/-- SER (R161). -/
def execSer (s : State) : Host.Outcome State Fault Refusal := frame .ser 0x05 serStep s

/-! ### Reading the records of a tree -/

/-- Writes the index of a new node where it was due (R163: `left = l`, `right = r`). -/
def Slot.fill (i : Nat) (nodes : List Node) : Slot → List Node
  | .root => nodes
  | .left p => nodes.modify p (Node.withLeft i)
  | .right p => nodes.modify p (Node.withRight i)

/-- Allocates the next record for a node whose record took `size` bytes (R163, R164): CAPACITY sub 5 when the node store
is full (R168). `due` are the nodes that are then due below it. When no node is due, the tree is complete and what
follows it is not read (R165). -/
def TreeReading.alloc (r : TreeReading) (size : Nat) (node : Node) (due : List Slot) : Except CmdError TreeReading :=
  match r.todo with
  | [] => .ok r
  | slot :: rest =>
    if r.nodes.length = Config.nodeCap then .error (capacityError 5)
    else
      .ok { cur := r.cur + size, nodes := slot.fill r.nodes.length r.nodes ++ [node], todo := due ++ rest }

/-- A TAG_INTERNAL record: an internal node, whose left and then right subtree are due next (R163, R84). -/
def TreeReading.internal (r : TreeReading) : Except CmdError TreeReading :=
  r.alloc 1 (.internal 0 0 0) [.left r.nodes.length, .right r.nodes.length]

/-- A TAG_LEAF record: a leaf of weight 0 (R163, R164). -/
def TreeReading.leaf (r : TreeReading) (v : Byte) : Except CmdError TreeReading := r.alloc 2 (.leaf v 0) []

/-- Reads records from the bytes that follow the cursor until the tree is complete. The errors are those of R163: the bytes
end where a marker or a value is due (sub 2, the offset of the end), or a marker is unknown (sub 1, its offset). -/
def readRecords : List Byte → TreeReading → Except CmdError TreeReading
  | [], r => if r.todo = [] then .ok r else .error (malformedTreeError 2 r.cur)
  | tag :: rest, r =>
    if r.todo = [] then .ok r
    else if tag = 0x00 then
      match r.internal with
      | .error e => .error e
      | .ok r' => readRecords rest r'
    else if tag = 0x01 then
      match rest with
      | [] => .error (malformedTreeError 2 (r.cur + 1))
      | v :: rest' =>
        match r.leaf v with
        | .error e => .error e
        | .ok r' => readRecords rest' r'
    else .error (malformedTreeError 1 r.cur)

/-- The body of DESER on the bytes X (R163): the records read, and the cursor behind them. -/
def readTree (X : List Byte) : Except CmdError TreeReading := readRecords X TreeReading.start

/-- The commit of DESER: `ROOT <- 0`, `NODE_CNT <- n`, `CONSUMED <- cur`, `TREE_VALID <- 1` (R163, R164). -/
def State.commitTree (s : State) (r : TreeReading) : State :=
  { s with tree := some { nodes := r.nodes, root := 0 }, consumed := wordOfNat r.cur }

/-- The body of DESER (R163). -/
def deserStep (s : State) : StepResult :=
  match readTree (s.buf .tbuf) with
  | .error e => .raised s e
  | .ok r => .done (s.commitTree r)

/-- DESER (R163). -/
def execDeser (s : State) : Host.Outcome State Fault Refusal := frame .deser 0x08 deserStep s

/-! ### One record at a time
The two records are rows of the opcode table, so the block can also be watched inside a DESER, one record a step. The
state then holds the deserializer's local values in `reading`. -/

/-- A DESER has opened its frame and is about to read the first record (R235 steps 2 and 3, R163). -/
def State.openDeser (s : State) : State := { openFrame .deser 0x08 s with reading := TreeReading.start }

/-- The reading ends with an error: the frame of the DESER takes it (R235 step 6, R236). -/
def State.failReading (s : State) (e : CmdError) : State := { s with reading := TreeReading.idle }.takeError e

/-- The state after a record has been accepted: the reading goes on, or the tree is complete, DESER's body has reached its
end and commits (R86, R163, R237). -/
def State.advanceReading (s : State) (r : TreeReading) : State :=
  if r.todo = [] then ({ s with reading := TreeReading.idle }.commitTree r).succeed else { s with reading := r }

/-- One record for the tree that is being read. When none is due the record is not read (R165). -/
def acceptRecord (next : Except CmdError TreeReading) (s : State) : Host.Outcome State Fault Refusal :=
  if s.reading.todo = [] then .next s
  else
    match next with
    | .error e => .next (s.failReading e)
    | .ok r => .next (s.advanceReading r)

/-- TAG_INTERNAL (R85, R163). -/
def execTagInternal (s : State) : Host.Outcome State Fault Refusal := acceptRecord s.reading.internal s

/-- TAG_LEAF with the leaf's byte value (R85, R163). -/
def execTagLeaf (v : Byte) (s : State) : Host.Outcome State Fault Refusal := acceptRecord (s.reading.leaf v) s

/-! ### `parse_node` as the spec writes it
DESER reads the records in a loop; this is the recursion of R163, line by line, for the statement that the two agree. -/

/-- `parse_node()` of R163 with the cursor and the records threaded through: the index of the node, the new cursor and the
new records. `depth` bounds the recursion, which is at most one level for each record of the store (R168). -/
def parseNode (X : List Byte) : Nat → Nat → List Node → Except CmdError (Nat × Nat × List Node)
  | 0, _, _ => .error (capacityError 5)
  | depth + 1, cur, nodes =>
    match X[cur]? with
    | none => .error (malformedTreeError 2 cur)
    | some tag =>
      if tag = 0x01 then
        match X[cur + 1]? with
        | none => .error (malformedTreeError 2 (cur + 1))
        | some v =>
          if nodes.length = Config.nodeCap then .error (capacityError 5)
          else .ok (nodes.length, cur + 2, nodes ++ [.leaf v 0])
      else if tag = 0x00 then
        if nodes.length = Config.nodeCap then .error (capacityError 5)
        else
          match parseNode X depth (cur + 1) (nodes ++ [.internal 0 0 0]) with
          | .error e => .error e
          | .ok (l, cur', nodes') =>
            match parseNode X depth cur' nodes' with
            | .error e => .error e
            | .ok (r, cur'', nodes'') =>
              .ok (nodes.length, cur'',
                nodes''.set nodes.length (.internal 0 (BitVec.ofNat 9 l) (BitVec.ofNat 9 r)))
      else .error (malformedTreeError 1 cur)

end Sys2Proof.Machine
end

