-- ==== Sys2Proof/Machine/Container.lean ====
section
/-! DEFINITION. The Container framer: ASM and PARSE (45_container.md; the layout is 30_encoding.md rule R88). -/

namespace Sys2Proof.Machine

/-- A container: `be32(N) ++ T ++ be32(C) ++ P` with N the length of T (R88). -/
def containerBytes (T : List Byte) (C : Word) (P : List Byte) : List Byte :=
  be32 (wordOfNat T.length) ++ T ++ be32 C ++ P

/-- The body of ASM (R181), with its source check. -/
def asmStep (s : State) : StepResult :=
  needTree s fun T =>
    if 8 + T.ser.length + (s.buf .pbuf).length > capOf s.caps .fbuf then .raised s (capacityError 4)
    else .done ((s.setBuf .tbuf T.ser).setBuf .fbuf (containerBytes T.ser s.contentLen (s.buf .pbuf)))

/-- ASM (R181). -/
def execAsm (s : State) : Host.Outcome State Fault Refusal := frame .asm 0x06 asmStep s

/-- What a container holds: the tree bytes, the tree read from them, the content length and the payload. -/
structure Parsed where
  treeBytes : List Byte
  reading : TreeReading
  contentLen : Word
  payload : List Byte
deriving DecidableEq, Repr

/-- The sequential tests of PARSE on the container F; the first that fails decides the error (R184, R185). -/
def parseContainer (c : Capacities) (F : List Byte) : Except CmdError Parsed :=
  if F.length < 4 then .error (truncatedFileError 1 0)
  else
    let N := u32be (memRead F 0 4)
    if F.length - 4 < N then .error (truncatedFileError 2 4)
    else if N > capOf c .tbuf then .error (capacityError 2)
    else
      match readTree (memRead F 4 N) with
      | .error e => .error e
      | .ok r =>
        if r.cur ≠ N then .error (malformedTreeError 3 r.cur)
        else if F.length - (4 + N) < 4 then .error (truncatedFileError 3 (4 + N))
        else if F.length - (8 + N) > capOf c .pbuf then .error (capacityError 3)
        else
          .ok { treeBytes := memRead F 4 N
                reading := r
                contentLen := wordOfNat (u32be (memRead F (4 + N) 4))
                payload := memRead F (8 + N) (F.length - (8 + N)) }

/-- The commit of PARSE (R184). -/
def State.commitParsed (s : State) (p : Parsed) : State :=
  { ((s.setBuf .tbuf p.treeBytes).setBuf .pbuf p.payload).commitTree p.reading with contentLen := p.contentLen }

/-- The body of PARSE (R184). -/
def parseStep (s : State) : StepResult :=
  match parseContainer s.caps (s.buf .fbuf) with
  | .error e => .raised s e
  | .ok p => .done (s.commitParsed p)

/-- PARSE (R184). -/
def execParse (s : State) : Host.Outcome State Fault Refusal := frame .parse 0x07 parseStep s

end Sys2Proof.Machine
end

