-- ==== Sys2Proof/Machine/Generator.lean ====
section
/-! DEFINITION. The CodeTableGenerator: GEN (42_code_table_generator.md). -/

namespace Sys2Proof.Machine

/-- The code of a leaf reached with a path: the path, or "0" when it is empty (R131, R132). -/
def leafCode (path : Bits) : Bits := if path = [] then [false] else path

/-- `walk(i, path)` of R131 on the tree at i: left first, 0 for left and 1 for right; a later leaf of the same byte value
overwrites an earlier one (R133). -/
def walk : CodeTree → Bits → CodeTable → CodeTable
  | .leaf v _, path, ct => ct.set v (some (leafCode path))
  | .internal _ l r, path, ct => walk r (path ++ [true]) (walk l (path ++ [false]) ct)

/-- `gen(T)`: the table GEN makes from a tree (R131). -/
def genTable (T : CodeTree) : CodeTable := walk T [] (ByteTable.const none)

/-- The body of GEN (R131), with its source check. -/
def genStep (s : State) : StepResult := needTree s fun T => .done { s with ct := some (genTable T) }

/-- GEN (R131). -/
def execGen (s : State) : Host.Outcome State Fault Refusal := frame .gen 0x03 genStep s

end Sys2Proof.Machine
end

