-- ==== Sys2Proof/Machine/Packer.lean ====
section
/-! DEFINITION. The BitPacker: ENCODE and DECODE (43_bit_packer.md). -/

namespace Sys2Proof.Machine

/-! ### ENCODE -/

/-- The codes of the bytes of D in order, appended to `bits`; i is the index in DBUF of the next byte. The first byte
without a code raises INVARIANT with its index (R141, R142). -/
def encodeBits (ct : CodeTable) : Nat → List Byte → Bits → Except CmdError Bits
  | _, [], bits => .ok bits
  | i, b :: rest, bits =>
    match ct.get b with
    | none => .error (invariantError i)
    | some code => encodeBits ct (i + 1) rest (bits ++ code)

/-- The body of ENCODE (R141), with its source check. -/
def encodeStep (s : State) : StepResult :=
  needCt s fun ct =>
    match encodeBits ct 0 (s.buf .dbuf) [] with
    | .error e => .raised s e
    | .ok bits =>
      if (padded bits).length / 8 > capOf s.caps .pbuf then .raised s (capacityError 3)
      else .done { s.setBuf .pbuf (pack (padded bits)) with contentLen := wordOfNat (s.buf .dbuf).length }

/-- ENCODE (R141). -/
def execEncode (s : State) : Host.Outcome State Fault Refusal := frame .encode 0x04 encodeStep s

/-! ### DECODE -/

/-- One step of the walk: right on a 1 bit, left on a 0 bit (R146). The decoder never asks it of a leaf. -/
def CodeTree.child : CodeTree → Bool → CodeTree
  | .leaf v w, _ => .leaf v w
  | .internal _ l r, bit => if bit then r else l

/-- The loop of DECODE (R146): `node` is the current node, `out` the bytes decoded so far. The counter is tested before
each bit is read (R147); a lone-leaf tree takes one 0 bit a byte (R148); running out of bits is CORRUPT_STREAM sub 1
(R149). -/
def decodeLoop (root : CodeTree) (want : Nat) : CodeTree → Bits → List Byte → Except CmdError (List Byte)
  | _, [], out => if out.length < want then .error (corruptStreamError 1 out.length) else .ok out
  | node, bit :: bits, out =>
    if out.length < want then
      match root with
      | .leaf v _ =>
        if bit then .error (corruptStreamError 2 out.length) else decodeLoop root want node bits (out ++ [v])
      | .internal _ _ _ =>
        match node.child bit with
        | .leaf v _ => decodeLoop root want root bits (out ++ [v])
        | .internal w l r => decodeLoop root want (.internal w l r) bits out
    else .ok out

/-- `decode(P, T, n)`, or the error it ends with (R146, R150). -/
def decodeBytes (P : List Byte) (T : CodeTree) (n : Nat) : Except CmdError (List Byte) :=
  decodeLoop T n T (unpack P) []

/-- The while loop of R146 as the spec writes it, on node indices and a bit position: `node` and `k` are its variables, `out`
the bytes decoded so far; `turns` bounds the number of rounds, each of which reads a bit. It is for the statement that
`decodeLoop` computes the same. `none`: the bound is too small or a node index names no record. -/
def decodeWalk (P : List Byte) (st : NodeStore) (want : Nat) :
    Nat → Nat → Nat → List Byte → Option (Except CmdError (List Byte))
  | 0, _, _, _ => none
  | turns + 1, node, k, out =>
    if out.length < want then
      if k = 8 * P.length then some (.error (corruptStreamError 1 out.length))
      else
        match P[k / 8]?, st.nodes[st.root.toNat]?, st.nodes[node]? with
        | some byte, some (.leaf v _), _ =>
          if byte.getLsbD (7 - k % 8) then some (.error (corruptStreamError 2 out.length))
          else decodeWalk P st want turns node (k + 1) (out ++ [v])
        | some byte, some (.internal _ _ _), some (.internal _ l r) =>
          let next := if byte.getLsbD (7 - k % 8) then r.toNat else l.toNat
          match st.nodes[next]? with
          | some (.leaf v _) => decodeWalk P st want turns st.root.toNat (k + 1) (out ++ [v])
          | some (.internal _ _ _) => decodeWalk P st want turns next (k + 1) out
          | none => none
        | _, _, _ => none
    else some (.ok out)

/-- The body of DECODE (R146), with its source check. -/
def decodeStep (s : State) : StepResult :=
  needTree s fun T =>
    if s.contentLen.toNat > capOf s.caps .dbuf then .raised s (capacityError 1)
    else
      match decodeBytes (s.buf .pbuf) T s.contentLen.toNat with
      | .error e => .raised s e
      | .ok out => .done (s.setBuf .dbuf out)

/-- DECODE (R146). -/
def execDecode (s : State) : Host.Outcome State Fault Refusal := frame .decode 0x09 decodeStep s

end Sys2Proof.Machine
end

