-- ==== Sys2Proof/Machine/Composite.lean ====
section
/-! DEFINITION. The composite commands: COMPRESS and DECOMPRESS (46_composite.md). Each step checks its own sources and
commits its own destinations; the first that raises ends the command (R204). -/

namespace Sys2Proof.Machine

/-- The body of COMPRESS (R200). -/
def compressStep (s : State) : StepResult :=
  if s.buf .dbuf = [] then .raised s emptyInputError
  else
    (((countStep s).andThen buildStep).andThen genStep).andThen fun s => (encodeStep s).andThen asmStep

/-- COMPRESS (R200). -/
def execCompress (s : State) : Host.Outcome State Fault Refusal := frame .compress 0x0A compressStep s

/-- The body of DECOMPRESS (R202). -/
def decompressStep (s : State) : StepResult := (parseStep s).andThen decodeStep

/-- DECOMPRESS (R202). -/
def execDecompress (s : State) : Host.Outcome State Fault Refusal := frame .decompress 0x0B decompressStep s

end Sys2Proof.Machine
end

