-- ==== Sys2Proof/Machine/Dispatch.lean ====
section
/-! DEFINITION. The meaning of each instruction. -/

namespace Sys2Proof.Machine

def exec (i : Instr) (s : State) : Host.Outcome State Fault Refusal :=
  match i with
  | .count => Sys2Proof.Machine.execCount s
  | .build => Sys2Proof.Machine.execBuild s
  | .gen => Sys2Proof.Machine.execGen s
  | .encode => Sys2Proof.Machine.execEncode s
  | .ser => Sys2Proof.Machine.execSer s
  | .asm => Sys2Proof.Machine.execAsm s
  | .parse => Sys2Proof.Machine.execParse s
  | .deser => Sys2Proof.Machine.execDeser s
  | .decode => Sys2Proof.Machine.execDecode s
  | .compress => Sys2Proof.Machine.execCompress s
  | .decompress => Sys2Proof.Machine.execDecompress s
  | .tagInternal => Sys2Proof.Machine.execTagInternal s
  | .tagLeaf v => Sys2Proof.Machine.execTagLeaf v s

end Sys2Proof.Machine
end

