-- ==== Sys2Proof/Machine/HostAccess.lean ====
section
/-! DEFINITION. The host operations (47_host_access.md; H.RESET is 70_reset_and_hazards.md rule R260) and what the sequencer
does in one step. -/

namespace Sys2Proof.Machine

/-- A response and nothing else. -/
def State.respond (s : State) (r : Response) : State := { s with response := some r }

/-- The response REFUSED; no object and no register changes (R219). -/
def State.refuse (s : State) : State := s.respond .refused

/-- H.RESET (R260): every piece of state at its reset value; the capacities stay, and so do the operations the host has
still to issue. -/
def hostReset (s : State) : State := { State.resetWith s.caps with host := s.host }.respond .ok

/-- H.CLEAR B (R211). -/
def hostClear (id : Nat) (s : State) : State :=
  match bufOfId id with
  | none => s.refuse
  | some b => (s.setBuf b []).respond .ok

/-- H.PUSH B, v (R212). -/
def hostPush (id v : Nat) (s : State) : State :=
  match bufOfId id with
  | none => s.refuse
  | some b =>
    if v < 256 ∧ (s.buf b).length < capOf s.caps b then (s.setBuf b (s.buf b ++ [BitVec.ofNat 8 v])).respond .ok
    else s.refuse

/-- H.RDBYTE B, i (R213). -/
def hostRdByte (id i : Nat) (s : State) : State :=
  match bufOfId id with
  | none => s.refuse
  | some b =>
    match s.mem.readByte b i with
    | none => s.refuse
    | some v => s.respond (.okByte v)

/-- H.RDREG r (R214). -/
def hostRdReg (r : Nat) (s : State) : State :=
  match regOfNumber r with
  | none => s.refuse
  | some reg =>
    match s.readReg reg with
    | none => s.refuse
    | some w => s.respond (.okWord w)

/-- The response OK, after what a command did. -/
def respondOk : Host.Outcome State Fault Refusal → Host.Outcome State Fault Refusal
  | .next s => .next (s.respond .ok)
  | .fault f => .fault f
  | .refused r => .refused r

/-- A write of the word w to CMD: the command runs to its end, whether it completes or faults, and an illegal word takes
ILLEGAL_CMD (R43, R81, R235). -/
def issueCommand (w : Word) (s : State) : Host.Outcome State Fault Refusal :=
  match decodeCommand w with
  | .error _ => .next (illegalCommand w s)
  | .ok i => exec i s

/-- H.WRREG r, v (R215). -/
def hostWrReg (r v : Nat) (s : State) : Host.Outcome State Fault Refusal :=
  if v < 2 ^ 32 then
    match regOfNumber r with
    | some .contentLen => .next ({ s with contentLen := BitVec.ofNat 32 v }.respond .ok)
    | some .cmd => respondOk (issueCommand (BitVec.ofNat 32 v) s)
    | _ => .next s.refuse
  else .next s.refuse

/-- H.RDWT s (R216). -/
def hostRdWt (sym : Nat) (s : State) : State :=
  if sym < 256 then
    match s.wt with
    | none => s.refuse
    | some wt => s.respond (.okWord (wt.get (BitVec.ofNat 8 sym)))
  else s.refuse

/-- A code entry as the host gets it: valid, len and the code field, all 0 when the entry is not valid (R217). -/
def codeResponse : Option Bits → Response
  | none => .okCode 0 0 0
  | some c => .okCode 1 (BitVec.ofNat 8 c.length) (codeField c)

/-- H.RDCT s (R217). -/
def hostRdCt (sym : Nat) (s : State) : State :=
  if sym < 256 then
    match s.ct with
    | none => s.refuse
    | some ct => s.respond (codeResponse (ct.get (BitVec.ofNat 8 sym)))
  else s.refuse

/-- H.RDNODE i (R218). -/
def hostRdNode (i : Nat) (s : State) : State :=
  match s.tree with
  | none => s.refuse
  | some st =>
    match st.nodes[i]? with
    | none => s.refuse
    | some n => s.respond (.okNode n.record)

/-- One host operation (R210). -/
def hostOp (op : HostOp) (s : State) : Host.Outcome State Fault Refusal :=
  match op with
  | .reset => .next (hostReset s)
  | .clear b => .next (hostClear b s)
  | .push b v => .next (hostPush b v s)
  | .rdbyte b i => .next (hostRdByte b i s)
  | .rdreg r => .next (hostRdReg r s)
  | .wrreg r v => hostWrReg r v s
  | .rdwt sym => .next (hostRdWt sym s)
  | .rdct sym => .next (hostRdCt sym s)
  | .rdnode i => .next (hostRdNode i s)

/-! ### Pseudo-operations of the listing notation (30_encoding.md rule R92) -/

/-- H.LOAD B, bytes. -/
def hostLoad (id : Nat) (bytes : List Byte) : List HostOp := .clear id :: bytes.map fun b => .push id b.toNat

/-- H.DUMP B for a buffer that holds `len` bytes: the length register of the buffer, then each byte. -/
def hostDump (id len : Nat) : List HostOp := .rdreg (0x08 + id) :: (List.range len).map fun i => .rdbyte id i

/-- H.CMD word. -/
def hostCmd (w : Word) : HostOp := .wrreg 0x00 w.toNat

/-! ### The sequencer -/

/-- Takes the next operation of the host; with none to take, the block is idle and keeps all its state (R15, R69, R254). -/
def hostTurn (s : State) : Host.Outcome State Fault Refusal :=
  match s.host with
  | [] => .next s
  | op :: rest => hostOp op { s with host := rest }

/-- Inside a DESER: reads the record at the cursor and runs it; bytes that are no record end the DESER with the error of
R163. -/
def recordTurn (s : State) : Host.Outcome State Fault Refusal :=
  match decodeRecord ((s.buf .tbuf).drop s.reading.cur) with
  | .ok (i, _) => exec i s
  | .error .truncatedRecord => .next (s.failReading (malformedTreeError 2 (s.buf .tbuf).length))
  | .error _ => .next (s.failReading (malformedTreeError 1 s.reading.cur))

/-- One step: inside a DESER the next record, otherwise the next host operation. -/
def turn (s : State) : Host.Outcome State Fault Refusal := if s.reading.todo = [] then hostTurn s else recordTurn s

/-- Places a command word as the operation the host issues next. -/
def State.withCommand (s : State) (v : Nat) : State :=
  { s with host := .wrreg 0x00 v :: s.host, reading := TreeReading.idle }

/-- Places the bytes of a tree record in TBUF with the deserializer about to read the first record of a tree there. -/
def State.withRecord (s : State) (bytes : List Byte) : State :=
  { s.setBuf .tbuf bytes with reading := TreeReading.start }

end Sys2Proof.Machine
end

