-- ==== Sys2Proof/Machine/Step.lean ====
section
/-! DEFINITION. The step function and the placing of an instruction where the next step takes it from. -/

namespace Sys2Proof.Machine

/-- One step of the block. -/
def step (s : State) : Host.Outcome State Fault Refusal := turn s

/-- s with the instruction of a table word placed so that the next step runs exactly it: a command word as the host's next
operation (a write of CMD), a tree record in TBUF with a deserialization about to read it. -/
def State.withFetchWord (s : State) (nbits w : Nat) : State :=
  if nbits < 32 then s.withRecord (recordBytes w) else s.withCommand w

end Sys2Proof.Machine
end

