-- ==== Sys2Proof/WellFormed.lean ====
section
/-! DEFINITION. The checks on what is given to the block from outside: instructions, the operands of host operations
(47_host_access.md rule R219) and the capacities of an instance (00_scope.md rule R7). -/

namespace Sys2Proof

/-- No instruction can be ill formed: a command has no operand field (R80), and the one operand there is, the value of a
leaf record, is a byte by its type (R85). -/
def Instr.wellFormed : Instr → Bool
  | .count => true
  | .build => true
  | .gen => true
  | .encode => true
  | .ser => true
  | .asm => true
  | .parse => true
  | .deser => true
  | .decode => true
  | .compress => true
  | .decompress => true
  | .tagInternal => true
  | .tagLeaf _ => true

/-- The operands of a host operation lie in their stated ranges: a buffer id 0 to 3, a register number 0x00 to 0x0F, a
byte at most 255, a register value below 2^32 (R219). An index has no range of its own; it is compared with a length. -/
def HostOp.wellFormed : HostOp → Bool
  | .reset => true
  | .clear b => decide (b < 4)
  | .push b v => decide (b < 4) && decide (v < 256)
  | .rdbyte b _ => decide (b < 4)
  | .rdreg r => decide (r < 16)
  | .wrreg r v => decide (r < 16) && decide (v < 2 ^ 32)
  | .rdwt s => decide (s < 256)
  | .rdct s => decide (s < 256)
  | .rdnode _ => true

/-- The constraint on an instance's capacities that their width does not already say: TBUF_CAP is at least 767 (R7). -/
def Capacities.legal (c : Capacities) : Bool := decide (Config.tbufCapMin ≤ c.tbuf.toNat)

end Sys2Proof
end

