-- ==== Sys2Proof/Safety.lean ====
section
/-! DEFINITION. What claims call a good state and a safe outcome: the invariants the spec gives the state between host
operations (10_state.md rules R24, R29, R32 to R35, R39, R40 to R42; 60_exceptions.md rules R231, R232); and the words in which claims describe
formats and outcomes independently of the functions that compute them. -/

namespace Sys2Proof.Machine

/-- `codes_at(T, p)` (R134), in the order in which GEN visits the leaves: left subtree before right (R133). -/
def CodeTree.codesAt : CodeTree → Bits → List (Byte × Bits)
  | .leaf v _, p => [(v, p)]
  | .internal _ l r, p => l.codesAt (p ++ [false]) ++ r.codesAt (p ++ [true])

/-- `codes(T)` (R134): the path of each leaf, but "0" for a lone leaf (R132). -/
def CodeTree.codes : CodeTree → List (Byte × Bits)
  | .leaf v _ => [(v, [false])]
  | .internal w l r => (CodeTree.internal w l r).codesAt []

/-- The source objects of a command (R47). A tree record is read from TBUF. -/
def sources : Instr → List Obj
  | .count => [.buf .dbuf]
  | .build => [.wt]
  | .gen => [.tree]
  | .encode => [.buf .dbuf, .ct]
  | .ser => [.tree]
  | .asm => [.tree, .buf .pbuf, .contentLen]
  | .parse => [.buf .fbuf]
  | .deser => [.buf .tbuf]
  | .decode => [.tree, .buf .pbuf, .contentLen]
  | .compress => [.buf .dbuf]
  | .decompress => [.buf .fbuf]
  | .tagInternal => [.buf .tbuf]
  | .tagLeaf _ => [.buf .tbuf]

/-- An object holds the same in two states; a buffer does when every byte of it reads the same (R47). -/
def sameObj (s t : State) : Obj → Prop
  | .buf b => ∀ a, t.mem.readByte b a = s.mem.readByte b a
  | .wt => t.wt = s.wt
  | .tree => t.tree = s.tree
  | .ct => t.ct = s.ct
  | .contentLen => t.contentLen = s.contentLen
  | .consumed => t.consumed = s.consumed

/-- STATUS and ERRINFO after a command with opcode op that completed (R231, R233, R235 step 6). -/
def State.after (s : State) (op : Byte) : State := { s with lastop := op, err := 0, sub := 0, errinfo := 0 }

/-- STATUS, ERRINFO and ERRLOG after a command with opcode op that ended with an error, given by its numbers (R231 to R233,
R235 step 6). -/
def State.afterError (s : State) (op : Byte) (code sub : BitVec 4) (info : Nat) : State :=
  { s with lastop := op, err := code, sub := sub, errinfo := BitVec.ofNat 32 info,
           errlog := s.errlog ||| (1#32 <<< code.toNat) }

/-- A big-endian field of four bytes, written out (R9, R62). -/
def fourBytes (n : Nat) : List Byte :=
  [BitVec.ofNat 8 (n / 2 ^ 24), BitVec.ofNat 8 (n / 2 ^ 16), BitVec.ofNat 8 (n / 2 ^ 8), BitVec.ofNat 8 n]

/-- The records of the serialized tree in preorder, each a row of the opcode table (R84, R85). -/
def CodeTree.records : CodeTree → List Instr
  | .leaf v _ => [.tagLeaf v]
  | .internal _ l r => .tagInternal :: (l.records ++ r.records)

/-- The bytes of a list of tree records, each encoded as the opcode table says (R85). -/
def recordsBytes (is : List Instr) : List Byte :=
  is.flatMap fun i =>
    match encode i with
    | .record bytes => bytes
    | .command _ => []

/-- The bits of a byte sequence: bit number k is bit 7 - (k mod 8) of byte k div 8 (R63). -/
def bitStream (P : List Byte) : Bits :=
  (List.range (8 * P.length)).map fun k =>
    match P[k / 8]? with
    | some byte => byte.getLsbD (7 - k % 8)
    | none => false

/-- The four buffers and their capacities in the order of their ids 0 to 3 (R24). -/
def State.buffers (s : State) : List (Buf × List Byte × Nat) :=
  [(.dbuf, s.mem.dbuf, s.caps.dbuf.toNat), (.tbuf, s.mem.tbuf, s.caps.tbuf.toNat), (.pbuf, s.mem.pbuf, s.caps.pbuf.toNat),
   (.fbuf, s.mem.fbuf, s.caps.fbuf.toNat)]

/-- cs are codes of the tree T for the byte values D, one each in order (R134). -/
abbrev codedAs (T : CodeTree) (D : List Byte) (cs : List Bits) : Prop :=
  List.Forall₂ (fun v c => (v, c) ∈ T.codes) D cs

/-- Node i is among the first m records and is no child of any of them: it is in the live set of BUILD when record m is
made (R112). -/
def unmerged (nodes : List Node) (m i : Nat) : Prop :=
  i < m ∧ ∀ k < m, ∀ w l r, nodes[k]? = some (.internal w l r) → l.toNat ≠ i ∧ r.toNat ≠ i

/-- Node i comes before node j by the pair (weight, index), weight first (R113). -/
def before (nodes : List Node) (i j : Nat) : Prop :=
  (weightAt nodes i).toNat < (weightAt nodes j).toNat ∨ (weightAt nodes i).toNat = (weightAt nodes j).toNat ∧ i < j

/-- Record m merges the two least live nodes, the lesser one left, and weighs as much as both (R112 to R114). -/
def mergesTwoLeast (nodes : List Node) (m : Nat) : Prop :=
  ∃ a b l r, nodes[m]? = some (.internal (weightAt nodes a + weightAt nodes b) l r) ∧ l.toNat = a ∧ r.toNat = b ∧
    unmerged nodes m a ∧ unmerged nodes m b ∧ a ≠ b ∧
    (∀ i, unmerged nodes m i → i ≠ a → before nodes a i) ∧
    ∀ i, unmerged nodes m i → i ≠ a → i ≠ b → before nodes b i

/-- The sum of all counters of a weight table, as a natural number (R102). -/
def WeightTable.total (wt : WeightTable) : Nat := (wt.entries.map BitVec.toNat).sum

/-- A valid WT: its counters add up to a number that fits a register, so no weight sum wraps (R102, R119). -/
abbrev wtOk (wt : Option WeightTable) : Prop :=
  match wt with
  | none => True
  | some t => t.total < 2 ^ 32

/-- A valid node store (R32, R33): at most 511 records; from ROOT every record is reached exactly once, along child indices
below NODE_CNT. -/
abbrev NodeStore.valid (st : NodeStore) : Prop :=
  st.nodes.length ≤ Config.nodeCap ∧
    match indicesAt st.nodes st.nodes.length st.root.toNat with
    | none => False
    | some is => is.Nodup ∧ is.length = st.nodes.length

/-- A valid tree object has a valid node store (R29, R33). -/
abbrev treeOk (tree : Option NodeStore) : Prop :=
  match tree with
  | none => True
  | some st => st.valid

/-- A valid CT: every code has 1 to 255 bits (R34). -/
abbrev ctOk (ct : Option CodeTable) : Prop :=
  match ct with
  | none => True
  | some t => ∀ e ∈ t.entries, ∀ c ∈ e, 1 ≤ c.length ∧ c.length ≤ Config.codeMax

/-- The sub-causes an error code can have (R232). -/
def legalSub (err sub : BitVec 4) : Bool :=
  match err.toNat with
  | 2 => decide (1 ≤ sub.toNat) && decide (sub.toNat ≤ 3)
  | 3 => decide (1 ≤ sub.toNat) && decide (sub.toNat ≤ 3)
  | 4 => decide (1 ≤ sub.toNat) && decide (sub.toNat ≤ 2)
  | 5 => decide (1 ≤ sub.toNat) && decide (sub.toNat ≤ 3)
  | 7 => decide (1 ≤ sub.toNat) && decide (sub.toNat ≤ 5)
  | _ => decide (sub = 0)

/-- The error report is one the block can give: ERR 0 to 8 with a sub-cause of its own, ERRINFO 0 after a success, ERRLOG
with bits 1 to 8 only, the last error among them (R40 to R42, R231, R232). -/
abbrev statusOk (s : State) : Prop :=
  s.err.toNat ≤ 8 ∧ legalSub s.err s.sub = true ∧ (s.err = 0 → s.errinfo = 0) ∧ s.errlog &&& 0x1FE#32 = s.errlog ∧
    (s.err ≠ 0 → s.errlog.getLsbD s.err.toNat = true)

/-- The invariant of the block between host operations. -/
structure State.Inv (s : State) : Prop where
  caps_legal : s.caps.legal = true
  mem_wf : s.mem.wf s.caps = true
  wt_ok : wtOk s.wt
  tree_ok : treeOk s.tree
  ct_ok : ctOk s.ct
  status_ok : statusOk s
  /-- nothing of a command survives it (R39) -/
  reading_idle : s.reading = TreeReading.idle

/-- A step went on: it ended in a next state, not in a fault or a refusal of the model. -/
def goesOn : Host.Outcome State Fault Refusal → Bool
  | .next _ => true
  | .fault _ => false
  | .refused _ => false

/-- The last command completed (R231). -/
abbrev State.completed (s : State) : Prop := s.err = 0

end Sys2Proof.Machine
end

