-- ==== Sys2Proof/Certificates/Slice0/Obligations.lean ====
section
/-! DEFINITION. The statements about the block, for the provers. Errors are written by their numbers and results by what the
spec says of them, so that a statement does not lean on the function that computes it. Where a statement rests on a choice
of the model its docstring names the log entry. -/

section Slice0Obligations

open Sys2Proof Sys2Proof.Machine

/-! ### Encoding -/

/-- The opcode table of R80 and the two tags of R85, each word written out bit by bit. -/
def Obligations.ListedWordsDecode : Prop :=
  decode (.command 0b00000000000000000000000000000001) = .ok .count ∧
  decode (.command 0b00000000000000000000000000000010) = .ok .build ∧
  decode (.command 0b00000000000000000000000000000011) = .ok .gen ∧
  decode (.command 0b00000000000000000000000000000100) = .ok .encode ∧
  decode (.command 0b00000000000000000000000000000101) = .ok .ser ∧
  decode (.command 0b00000000000000000000000000000110) = .ok .asm ∧
  decode (.command 0b00000000000000000000000000000111) = .ok .parse ∧
  decode (.command 0b00000000000000000000000000001000) = .ok .deser ∧
  decode (.command 0b00000000000000000000000000001001) = .ok .decode ∧
  decode (.command 0b00000000000000000000000000001010) = .ok .compress ∧
  decode (.command 0b00000000000000000000000000001011) = .ok .decompress ∧
  decode (.record [0b00000000]) = .ok .tagInternal ∧
  decode (.record [0b00000001, 0b01100010]) = .ok (.tagLeaf 0x62) ∧
  decode (.record [0b00000001, 0b00000000]) = .ok (.tagLeaf 0x00) ∧
  decode (.command 0) = .error .illegalCommand ∧ decode (.command 0x0000000C) = .error .illegalCommand ∧
  decode (.command 0x00000101) = .error .illegalCommand ∧ decode (.record [0x02]) = .error .unknownTag ∧
  decode (.record [0x01]) = .error .truncatedRecord

/-- R81, R247: a word with a bit of 31:8 set, or with an opcode 0x00 or 0x0C to 0xFF, takes ILLEGAL_CMD, and nothing but
STATUS, ERRINFO (the word) and ERRLOG changes; every other word runs the command whose encoding it is. -/
def Obligations.IllegalWordsFault : Prop :=
  ∀ (w : Word) (s : State),
    ((w.extractLsb' 8 24 ≠ 0 ∨ w.extractLsb' 0 8 = 0 ∨ 0x0C ≤ (w.extractLsb' 0 8).toNat) →
      issueCommand w s = .next { s with lastop := w.extractLsb' 0 8, err := 8, sub := 0, errinfo := w,
                                        errlog := s.errlog ||| 0x100 }) ∧
    (w.extractLsb' 8 24 = 0 → w.extractLsb' 0 8 ≠ 0 → (w.extractLsb' 0 8).toNat < 0x0C →
      ∃ i, encode i = .command w ∧ issueCommand w s = exec i s)

/-- Decoding and encoding agree in both directions: no bit of an encoding is dropped, and no instruction has a second
encoding (R80, R81, R85). -/
def Obligations.OneEncodingPerInstruction : Prop :=
  (∀ i : Instr, i.wellFormed = true → decode (encode i) = .ok i) ∧
  ∀ (e : Encoded) (i : Instr), decode e = .ok i → i.wellFormed = true ∧ e = encode i

/-- R86: over the records of a serialized tree the counter `need`, which starts at 1, goes up by one at an internal marker
and down by one at a leaf record, is above 0 before the last record and 0 after it. -/
def Obligations.NeedCounterEndsTheTree : Prop :=
  ∀ (T : CodeTree) (k : Nat), k ≤ T.records.length →
    ((T.records.take k).countP (fun i => decide (i ≠ .tagInternal)) ≤ (T.records.take k).countP (fun i => decide (i = .tagInternal))
      ↔ k < T.records.length) ∧
    T.records.countP (fun i => decide (i ≠ .tagInternal)) = T.records.countP (fun i => decide (i = .tagInternal)) + 1

/-! ### The step -/

/-- When the host's next operation is a write of CMD with a word that decodes to i, the step is exec of i on the state from
which the operation has been taken, with the response OK added (R43, R215). The queue of host operations and the response are
the model's own (notes/assumptions/3.md). -/
def Obligations.StepRunsIssuedCommand : Prop :=
  ∀ (s : State) (w : Word) (i : Instr) (rest : List HostOp), s.reading.todo = [] → s.host = .wrreg 0x00 w.toNat :: rest →
    decode (.command w) = .ok i →
      step s =
        match exec i { s with host := rest } with
        | .next t => .next { t with response := some .ok }
        | .fault f => .fault f
        | .refused r => .refused r

/-- While a tree is being read and the bytes at the cursor are a record, the step is exec of that record; bytes that are none
end the DESER with the error of R163. That the block can be watched inside a DESER is the model's own
(notes/assumptions/4.md). -/
def Obligations.StepRunsTreeRecord : Prop :=
  ∀ s : State, s.reading.todo ≠ [] →
    (∀ (i : Instr) (n : Nat), decodeRecord (s.mem.tbuf.drop s.reading.cur) = .ok (i, n) → step s = exec i s) ∧
    (s.reading.cur ≤ s.mem.tbuf.length → decodeRecord (s.mem.tbuf.drop s.reading.cur) = .error .truncatedRecord →
      step s = .next ({ s with reading := TreeReading.idle }.afterError s.lastop 2 2 s.mem.tbuf.length)) ∧
    (decodeRecord (s.mem.tbuf.drop s.reading.cur) = .error .unknownTag →
      step s = .next ({ s with reading := TreeReading.idle }.afterError s.lastop 2 1 s.reading.cur))

/-- The instruction of a table word, placed by withFetchWord, is what the very next step runs. How an instruction comes to
the block is the model's own reading of the interface (notes/assumptions/3.md, notes/assumptions/4.md). -/
def Obligations.PlacedWordRuns : Prop :=
  ∀ (s : State) (nbits w : Nat) (i : Instr), decodeTableWord nbits w = some i →
    (nbits < 32 → step (s.withFetchWord nbits w) = exec i (s.withFetchWord nbits w)) ∧
    (32 ≤ nbits →
      step (s.withFetchWord nbits w) =
        match exec i { s with reading := TreeReading.idle } with
        | .next t => .next { t with response := some .ok }
        | .fault f => .fault f
        | .refused r => .refused r)

/-- R254: between host operations the block "is simply idle and keeps all its state". That idleness is a step is the model's
own (notes/assumptions/3.md). -/
def Obligations.IdleBlockKeepsItsState : Prop :=
  ∀ s : State, s.reading.todo = [] → s.host = [] → step s = .next s

/-! ### Reset and invariants -/

/-- R45, R46: every buffer empty, every flag and register 0, and no value in WT, NODE or CT, whatever the capacities. -/
def Obligations.ResetStateIsAsListed : Prop :=
  ∀ c : Capacities, let s := State.resetWith c
    s.mem.dbuf = [] ∧ s.mem.tbuf = [] ∧ s.mem.pbuf = [] ∧ s.mem.fbuf = [] ∧
    s.wtValid = false ∧ s.treeValid = false ∧ s.ctValid = false ∧ s.wt = none ∧ s.tree = none ∧ s.ct = none ∧
    s.root = 0 ∧ s.nodeCnt = 0 ∧ s.contentLen = 0 ∧ s.consumed = 0 ∧
    s.status = 0 ∧ s.err = 0 ∧ s.sub = 0 ∧ s.lastop = 0 ∧ s.errinfo = 0 ∧ s.errlog = 0 ∧ s.caps = c

/-- H.RESET puts everything at its reset value, keeps the capacities and answers OK; no other host operation clears a bit of
ERRLOG (R260). That the operations the host has still to issue stay is the model's own (notes/assumptions/3.md). -/
def Obligations.ResetOperation : Prop :=
  ∀ s : State,
    hostOp .reset s = .next { State.resetWith s.caps with host := s.host, response := some .ok } ∧
    ∀ (op : HostOp) (t : State), op ≠ .reset → hostOp op s = .next t → s.errlog &&& t.errlog = s.errlog

/-- The state after reset meets the invariant, for every instance whose capacities R7 allows, among them the one of
State.reset. -/
def Obligations.ResetMeetsInv : Prop :=
  (∀ c : Capacities, c.legal = true → (State.resetWith c).Inv) ∧ State.reset.Inv

/-- The invariant holds after every step from a state in which it holds: buffers within their capacities, valid objects that
are what the spec says of them, a legal error report. -/
def Obligations.StepKeepsInv : Prop :=
  ∀ s t : State, s.Inv → step s = .next t → t.Inv

/-- From a state that meets the invariant the block always goes on: no command is stuck, refused or without an outcome (R17,
R263). -/
def Obligations.BlockNeverStops : Prop :=
  ∀ s : State, s.Inv → ∃ t, step s = .next t

/-- No step changes the capacities: they are constants of the instance (R44, R260). -/
def Obligations.CapacitiesAreConstant : Prop :=
  ∀ s t : State, step s = .next t → t.caps = s.caps

/-! ### COUNT -/

/-- R100 to R102: COUNT completes, WT holds the number of occurrences of each byte value in DBUF, the counters add up to
len(DBUF), and nothing else changes. -/
def Obligations.CountCounts : Prop :=
  ∀ s : State, s.mem.wf s.caps = true →
    ∃ W : WeightTable, exec .count s = .next ({ s with wt := some W }.after 0x01) ∧
      (∀ b, (W.get b).toNat = s.mem.dbuf.count b) ∧ (W.entries.map BitVec.toNat).sum = s.mem.dbuf.length

/-! ### BUILD -/

/-- R239: BUILD of the empty table and COMPRESS of an empty DBUF end with EMPTY_INPUT; COUNT and ENCODE of an empty DBUF
complete. -/
def Obligations.EmptyInputRule : Prop :=
  ∀ s : State,
    (∀ W : WeightTable, s.wt = some W → (∀ b, W.get b = 0) → exec .build s = .next ({ s with tree := none }.afterError 0x02 1 0 0)) ∧
    (s.mem.dbuf = [] →
      exec .compress s = .next ({ s with mem := { dbuf := [], tbuf := [], pbuf := [], fbuf := [] }, wt := none, tree := none,
                                         ct := none, contentLen := 0 }.afterError 0x0A 1 0 0)) ∧
    (s.mem.dbuf = [] → ∃ t, exec .count s = .next t ∧ t.err = 0) ∧
    (s.mem.dbuf = [] → ∀ C : CodeTable, s.ct = some C →
      exec .encode s = .next ({ s with mem := { s.mem with pbuf := [] }, contentLen := 0 }.after 0x04))

/-- R116: with exactly one byte value v present, BUILD makes the real leaf, the sentinel leaf of value v + 1 mod 256 and
weight 0, and their parent of the real leaf's weight, at indices 0, 1 and 2. -/
def Obligations.BuildPairsSingleSymbolWithSentinel : Prop :=
  ∀ (s : State) (W : WeightTable) (v : Byte), s.wt = some W → W.get v ≠ 0 → (∀ b, b ≠ v → W.get b = 0) →
    exec .build s =
      .next ({ s with tree := some { nodes := [.leaf v (W.get v), .leaf (v + 1) 0, .internal (W.get v) 0 1], root := 2 } }.after 0x02)

/-- R112 to R115: with L byte values present, L at least 2, BUILD completes; the leaves stand at 0 to L - 1 in ascending
order of byte value, and each record from L to 2L - 2 merges the two least live nodes by (weight, index), the lesser one left,
and weighs as much as both. ROOT is 2L - 2 and NODE_CNT 2L - 1. -/
def Obligations.BuildMergesTheTwoLeast : Prop :=
  ∀ (s : State) (W : WeightTable) (syms : List Byte), s.wt = some W → syms.Pairwise (fun a b => a.toNat < b.toNat) →
    (∀ b, b ∈ syms ↔ W.get b ≠ 0) → 2 ≤ syms.length →
      ∃ nodes : List Node,
        exec .build s =
          .next ({ s with tree := some { nodes := nodes, root := BitVec.ofNat 9 (2 * syms.length - 2) } }.after 0x02) ∧
        nodes.length = 2 * syms.length - 1 ∧
        (∀ (k : Nat) (b : Byte), syms[k]? = some b → nodes[k]? = some (.leaf b (W.get b))) ∧
        ∀ m, syms.length ≤ m → m < 2 * syms.length - 1 → mergesTwoLeast nodes m

/-- R117: the tree BUILD makes is valid, is no lone leaf, has pairwise distinct leaf values which are the present ones (with
the sentinel's when only one is present), and its root weighs the sum of all counters. The children of a record stand before
it (R115). -/
def Obligations.BuildTreeProperties : Prop :=
  ∀ (s : State) (W : WeightTable), s.wt = some W → W.total < 2 ^ 32 → (∃ b, W.get b ≠ 0) →
    ∃ (st : NodeStore) (T : CodeTree),
      exec .build s = .next ({ s with tree := some st }.after 0x02) ∧ st.valid ∧ st.tree? = some T ∧
      T.leafValues.Nodup ∧ 2 ≤ T.leafValues.length ∧ T.weight.toNat = W.total ∧
      (∀ b, W.get b ≠ 0 → b ∈ T.leafValues) ∧
      (∀ b ∈ T.leafValues, W.get b ≠ 0 ∨ ∃ v : Byte, (∀ u, W.get u ≠ 0 ↔ u = v) ∧ b = v + 1) ∧
      ∀ (m : Nat) (w : Word) (l r : NodeIndex), st.nodes[m]? = some (.internal w l r) → l.toNat < m ∧ r.toNat < m

/-! ### GEN -/

/-- R131 to R134: GEN completes on every tree; the entry of a byte value is the code of the last leaf that holds it, left
before right, and no other entry is valid. With distinct leaf values that is the one pair of `codes(T)`. -/
def Obligations.GenAssignsPaths : Prop :=
  ∀ (s : State) (st : NodeStore) (T : CodeTree), s.tree = some st → st.tree? = some T →
    ∃ C : CodeTable, exec .gen s = .next ({ s with ct := some C }.after 0x03) ∧
      (∀ v, C.get v = (T.codes.reverse.find? fun p => decide (p.1 = v)).map Prod.snd) ∧
      (T.leafValues.Nodup → ∀ v c, C.get v = some c ↔ (v, c) ∈ T.codes)

/-- R34, R35, R133, R135: the codes of the table GEN makes from a valid tree have 1 to 255 bits, and none is a prefix of
another. -/
def Obligations.GenTableIsPrefixFree : Prop :=
  ∀ (s : State) (st : NodeStore), s.tree = some st → st.valid →
    ∃ C : CodeTable, exec .gen s = .next ({ s with ct := some C }.after 0x03) ∧
      (∀ (v : Byte) (c : Bits), C.get v = some c → 1 ≤ c.length ∧ c.length ≤ 255) ∧
      ∀ (u v : Byte) (c d : Bits), C.get u = some c → C.get v = some d → u ≠ v → ¬ c <+: d

/-! ### ENCODE and DECODE -/

/-- R141, R142, R83: without CT, ENCODE ends with SEQUENCE sub 3. With CT valid, it ends with INVARIANT at the first byte that has no code, with CAPACITY sub 3 when
the payload does not fit, and otherwise writes the codes in input order, most significant bit first, padded with zero bits
to whole bytes, and the number of bytes into CONTENT_LEN. -/
def Obligations.EncodeRule : Prop :=
  (∀ s : State, s.ct = none →
    exec .encode s = .next ({ s with mem := { s.mem with pbuf := [] }, contentLen := 0 }.afterError 0x04 5 3 0)) ∧
  ∀ (s : State) (C : CodeTable), s.ct = some C →
    (∀ (A : List Byte) (b : Byte) (B : List Byte), s.mem.dbuf = A ++ b :: B → (∀ a ∈ A, C.get a ≠ none) → C.get b = none →
      exec .encode s = .next ({ s with mem := { s.mem with pbuf := [] }, contentLen := 0 }.afterError 0x04 6 0 A.length)) ∧
    ∀ bits : Bits, (∀ b ∈ s.mem.dbuf, C.get b ≠ none) → bits = s.mem.dbuf.flatMap (fun b => (C.get b).getD []) →
      (s.caps.pbuf.toNat < (bits.length + 7) / 8 →
        exec .encode s = .next ({ s with mem := { s.mem with pbuf := [] }, contentLen := 0 }.afterError 0x04 7 3 0)) ∧
      ((bits.length + 7) / 8 ≤ s.caps.pbuf.toNat →
        ∃ P : List Byte,
          exec .encode s = .next ({ s with mem := { s.mem with pbuf := P },
                                           contentLen := BitVec.ofNat 32 s.mem.dbuf.length }.after 0x04) ∧
          P.length = (bits.length + 7) / 8 ∧ bitStream P = bits ++ List.replicate ((8 - bits.length % 8) % 8) false)

/-- R145 to R149: with a tree, DECODE ends with CAPACITY sub 1 when CONTENT_LEN exceeds DBUF_CAP. Otherwise it gives the byte
values whose codes the payload begins with, CONTENT_LEN of them, whatever bits follow; when the bits run out first, even in
the middle of a code, it ends with CORRUPT_STREAM sub 1; with a lone-leaf tree a 1 bit where a code is due is CORRUPT_STREAM
sub 2. -/
def Obligations.DecodeRule : Prop :=
  ∀ (s : State) (st : NodeStore) (T : CodeTree), s.tree = some st → st.tree? = some T →
    (s.caps.dbuf.toNat < s.contentLen.toNat →
      exec .decode s = .next ({ s with mem := { s.mem with dbuf := [] } }.afterError 0x09 7 1 0)) ∧
    (s.contentLen.toNat ≤ s.caps.dbuf.toNat →
      (∀ (D : List Byte) (cs : List Bits) (rest : Bits), codedAs T D cs → bitStream s.mem.pbuf = cs.flatten ++ rest → D.length = s.contentLen.toNat →
        exec .decode s = .next ({ s with mem := { s.mem with dbuf := D } }.after 0x09)) ∧
      (∀ (D : List Byte) (cs : List Bits) (q : Bits) (v : Byte) (c : Bits), codedAs T D cs → bitStream s.mem.pbuf = cs.flatten ++ q → D.length < s.contentLen.toNat →
        (v, c) ∈ T.codes → q <+: c → q ≠ c →
        exec .decode s = .next ({ s with mem := { s.mem with dbuf := [] } }.afterError 0x09 4 1 D.length)) ∧
      ∀ (v : Byte) (w : Word) (m : Nat) (rest : Bits), T = .leaf v w → bitStream s.mem.pbuf = List.replicate m false ++ true :: rest → m < s.contentLen.toNat →
        exec .decode s = .next ({ s with mem := { s.mem with dbuf := [] } }.afterError 0x09 4 2 m))

/-- R146: DECODE is the spec's loop over node indices and bit positions, line by line, with its two tests before it. -/
def Obligations.DecodeIsTheWalk : Prop :=
  ∀ s : State,
    (s.tree = none → exec .decode s = .next ({ s with mem := { s.mem with dbuf := [] } }.afterError 0x09 5 2 0)) ∧
    ∀ st : NodeStore, s.tree = some st → st.valid →
      (s.caps.dbuf.toNat < s.contentLen.toNat →
        exec .decode s = .next ({ s with mem := { s.mem with dbuf := [] } }.afterError 0x09 7 1 0)) ∧
      (s.contentLen.toNat ≤ s.caps.dbuf.toNat →
        ∃ outcome,
          decodeWalk s.mem.pbuf st s.contentLen.toNat (8 * s.mem.pbuf.length + 1) st.root.toNat 0 [] = some outcome ∧
          exec .decode s =
            match outcome with
            | .ok D => .next ({ s with mem := { s.mem with dbuf := D } }.after 0x09)
            | .error e =>
              .next ({ s with mem := { s.mem with dbuf := [] } }.afterError 0x09 e.kind.code e.sub e.info))

/-- R150, R133: after GEN and ENCODE without fault, DECODE with the same tree completes and gives back the bytes that were
encoded. -/
def Obligations.DecodeUndoesEncode : Prop :=
  ∀ s a b : State, s.Inv → exec .gen s = .next a → a.err = 0 → exec .encode a = .next b → b.err = 0 →
    exec .decode b = .next (b.after 0x09) ∧ b.mem.dbuf = s.mem.dbuf

/-! ### SER and DESER -/

/-- R84, R85, R87, R161: SER completes on every valid tree, and TBUF is its records in preorder, each encoded as the opcode
table says, 3L - 1 bytes for L leaves, at most 767. -/
def Obligations.SerWritesTheRecords : Prop :=
  ∀ (s : State) (st : NodeStore) (T : CodeTree), s.tree = some st → st.valid → st.tree? = some T →
    exec .ser s = .next ({ s with mem := { s.mem with tbuf := recordsBytes T.records } }.after 0x05) ∧
    (recordsBytes T.records).length + 1 = 3 * T.leafValues.length ∧ (recordsBytes T.records).length ≤ 767

/-- R163: DESER is the spec's `parse_node`, line by line, with its commit and its errors. -/
def Obligations.DeserIsParseNode : Prop :=
  ∀ s : State,
    exec .deser s =
      match parseNode s.mem.tbuf 512 0 [] with
      | .ok (r, cur, nodes) =>
        .next ({ s with tree := some { nodes := nodes, root := BitVec.ofNat 9 r }, consumed := BitVec.ofNat 32 cur }.after 0x08)
      | .error e => .next ({ s with tree := none, consumed := 0 }.afterError 0x08 e.kind.code e.sub e.info)

/-- R165: DESER accepts every byte sequence that begins with the serialized form of a tree of at most 511 nodes, whatever
follows it, and no other; the tree it makes has the same shape and CONSUMED is the number of its bytes. -/
def Obligations.DeserAcceptsExactlyTheTrees : Prop :=
  ∀ s : State,
    (∀ (T : CodeTree) (Y : List Byte), T.size ≤ 511 → s.mem.tbuf = recordsBytes T.records ++ Y →
      ∃ (st : NodeStore) (T' : CodeTree),
        exec .deser s = .next ({ s with tree := some st, consumed := BitVec.ofNat 32 (recordsBytes T.records).length }.after 0x08) ∧
        st.valid ∧ st.tree? = some T' ∧ T'.shape = T.shape) ∧
    ∀ t, exec .deser s = .next t → t.err = 0 →
      ∃ (T : CodeTree) (Y : List Byte), T.size ≤ 511 ∧ s.mem.tbuf = recordsBytes T.records ++ Y

/-- R166, R12: DESER after SER gives a tree equal in shape and consumes all of TBUF, 3L - 1 bytes; SER after a DESER that
completed gives the CONSUMED first bytes of TBUF. -/
def Obligations.SerDeserRoundTrip : Prop :=
  (∀ (s a : State) (st : NodeStore), s.Inv → s.tree = some st → exec .ser s = .next a →
    ∃ (b : State) (st' : NodeStore) (T T' : CodeTree), exec .deser a = .next b ∧ b.err = 0 ∧ b.tree = some st' ∧
      st.tree? = some T ∧ st'.tree? = some T' ∧ T'.shape = T.shape ∧
      b.consumed.toNat = a.mem.tbuf.length ∧ a.mem.tbuf.length + 1 = 3 * T.leafValues.length) ∧
  ∀ s b : State, exec .deser s = .next b → b.err = 0 →
    exec .ser b = .next ({ b with mem := { b.mem with tbuf := s.mem.tbuf.take b.consumed.toNat } }.after 0x05)

/-- R164: the tree DESER or PARSE makes has ROOT 0, an odd number of records, all weights 0, the left child of record i at
i + 1 and the right child behind it. -/
def Obligations.DeserNumbersInPreorder : Prop :=
  ∀ (i : Instr) (s t : State) (st : NodeStore), i = .deser ∨ i = .parse → exec i s = .next t → t.tree = some st →
    st.root = 0 ∧ st.nodes.length % 2 = 1 ∧
    (∀ (k : Nat) (v : Byte) (w : Word), st.nodes[k]? = some (.leaf v w) → w = 0) ∧
    ∀ (k : Nat) (w : Word) (l r : NodeIndex), st.nodes[k]? = some (.internal w l r) →
      w = 0 ∧ l.toNat = k + 1 ∧ k + 1 < r.toNat ∧ r.toNat < st.nodes.length

/-- Running the records of TBUF one by one from the opening of a DESER ends as the DESER ends (R163, R86). That the block can
be watched inside a DESER is the model's own (notes/assumptions/4.md). -/
def Obligations.DeserRunsRecordByRecord : Prop :=
  ∀ s : State, s.reading = TreeReading.idle → ∃ k, 1 ≤ k ∧ Host.Core.run Sys2Proof.core k s.openDeser = exec .deser s

/-- TAG_INTERNAL inside a DESER (R163, R85, R168): a record due at the nearest open place is allocated as an internal node
whose two subtrees are due next; with 511 records it ends the DESER with CAPACITY sub 5; with none due it is not read
(R165). The local state of the DESER is the model's own (notes/assumptions/4.md). -/
def Obligations.InternalRecordOpensTwoSubtrees : Prop :=
  ∀ s : State,
    (∀ (slot : Slot) (more : List Slot), s.reading.todo = slot :: more → s.reading.nodes.length ≠ 511 →
      exec .tagInternal s =
        .next { s with reading := { cur := s.reading.cur + 1
                                    nodes := slot.fill s.reading.nodes.length s.reading.nodes ++ [.internal 0 0 0]
                                    todo := .left s.reading.nodes.length :: .right s.reading.nodes.length :: more } }) ∧
    (s.reading.todo ≠ [] → s.reading.nodes.length = 511 →
      exec .tagInternal s = .next ({ s with reading := TreeReading.idle }.afterError s.lastop 7 5 0)) ∧
    (s.reading.todo = [] → exec .tagInternal s = .next s)

/-- TAG_LEAF inside a DESER (R163, R85, R168): a leaf of weight 0 is allocated; when no node is due after it, the tree is
complete and the DESER commits it, with CONSUMED behind the record; with 511 records it ends the DESER with CAPACITY sub 5;
with none due it is not read (R165). The local state of the DESER is the model's own (notes/assumptions/4.md). -/
def Obligations.LeafRecordClosesASubtree : Prop :=
  ∀ (s : State) (v : Byte),
    (∀ (slot next : Slot) (more : List Slot), s.reading.todo = slot :: next :: more → s.reading.nodes.length ≠ 511 →
      exec (.tagLeaf v) s =
        .next { s with reading := { cur := s.reading.cur + 2
                                    nodes := slot.fill s.reading.nodes.length s.reading.nodes ++ [.leaf v 0]
                                    todo := next :: more } }) ∧
    (∀ slot : Slot, s.reading.todo = [slot] → s.reading.nodes.length ≠ 511 →
      exec (.tagLeaf v) s =
        .next ({ s with reading := TreeReading.idle
                        tree := some { nodes := slot.fill s.reading.nodes.length s.reading.nodes ++ [Node.leaf v 0], root := 0 }
                        consumed := BitVec.ofNat 32 (s.reading.cur + 2) }.after s.lastop)) ∧
    (s.reading.todo ≠ [] → s.reading.nodes.length = 511 →
      exec (.tagLeaf v) s = .next ({ s with reading := TreeReading.idle }.afterError s.lastop 7 5 0)) ∧
    (s.reading.todo = [] → exec (.tagLeaf v) s = .next s)

/-! ### ASM and PARSE -/

/-- R181, R62, R88: ASM writes the serialized tree to TBUF and the container to FBUF, both length fields most significant
byte first, or ends with CAPACITY sub 4 when the container does not fit; it compares none of its sources with another
(R182). -/
def Obligations.AsmRule : Prop :=
  ∀ s : State,
    (s.tree = none → exec .asm s = .next ({ s with mem := { s.mem with tbuf := [], fbuf := [] } }.afterError 0x06 5 2 0)) ∧
    ∀ (st : NodeStore) (T : CodeTree) (X : List Byte), s.tree = some st → st.tree? = some T → X = recordsBytes T.records →
      (s.caps.fbuf.toNat < 8 + X.length + s.mem.pbuf.length →
        exec .asm s = .next ({ s with mem := { s.mem with tbuf := [], fbuf := [] } }.afterError 0x06 7 4 0)) ∧
      (8 + X.length + s.mem.pbuf.length ≤ s.caps.fbuf.toNat →
        exec .asm s =
          .next ({ s with mem := { s.mem with tbuf := X
                                              fbuf := fourBytes X.length ++ X ++ fourBytes s.contentLen.toNat ++ s.mem.pbuf } }.after 0x06))

/-- R184 to R186: PARSE tests in the order of the container's fields; the first test that fails decides the error, and
otherwise every part is delivered. -/
def Obligations.ParseRule : Prop :=
  ∀ s empty : State,
    empty = { s with mem := { s.mem with tbuf := [], pbuf := [] }, tree := none, consumed := 0, contentLen := 0 } →
    (s.mem.fbuf.length < 4 → exec .parse s = .next (empty.afterError 0x07 3 1 0)) ∧
    ∀ (f0 f1 f2 f3 : Byte) (G : List Byte) (N : Nat), s.mem.fbuf = f0 :: f1 :: f2 :: f3 :: G →
      N = f0.toNat * 2 ^ 24 + f1.toNat * 2 ^ 16 + f2.toNat * 2 ^ 8 + f3.toNat →
      (G.length < N → exec .parse s = .next (empty.afterError 0x07 3 2 4)) ∧
      (N ≤ G.length → s.caps.tbuf.toNat < N → exec .parse s = .next (empty.afterError 0x07 7 2 0)) ∧
      (N ≤ G.length → N ≤ s.caps.tbuf.toNat →
        (∀ e, parseNode (G.take N) 512 0 [] = .error e →
          exec .parse s = .next (empty.afterError 0x07 e.kind.code e.sub e.info)) ∧
        ∀ (r cur : Nat) (nodes : List Node), parseNode (G.take N) 512 0 [] = .ok (r, cur, nodes) →
          (cur ≠ N → exec .parse s = .next (empty.afterError 0x07 2 3 cur)) ∧
          (cur = N → G.length - N < 4 → exec .parse s = .next (empty.afterError 0x07 3 3 (4 + N))) ∧
          ∀ (c0 c1 c2 c3 : Byte) (P : List Byte), cur = N → G.drop N = c0 :: c1 :: c2 :: c3 :: P →
            (s.caps.pbuf.toNat < P.length → exec .parse s = .next (empty.afterError 0x07 7 3 0)) ∧
            (P.length ≤ s.caps.pbuf.toNat →
              exec .parse s =
                .next ({ s with mem := { s.mem with tbuf := G.take N, pbuf := P }
                                tree := some { nodes := nodes, root := BitVec.ofNat 9 r }
                                consumed := BitVec.ofNat 32 N
                                contentLen :=
                                  BitVec.ofNat 32 (c0.toNat * 2 ^ 24 + c1.toNat * 2 ^ 16 + c2.toNat * 2 ^ 8 + c3.toNat) }.after 0x07)))

/-- R188: after ASM without fault, PARSE of the same FBUF completes and gives back TBUF, CONTENT_LEN, PBUF, CONSUMED = N and a
tree equal in shape. -/
def Obligations.ParseUndoesAsm : Prop :=
  ∀ s a : State, s.Inv → exec .asm s = .next a → a.err = 0 →
    ∃ (st st' : NodeStore) (T T' : CodeTree),
      exec .parse a = .next ({ a with tree := some st', consumed := BitVec.ofNat 32 a.mem.tbuf.length }.after 0x07) ∧
      s.tree = some st ∧ st.tree? = some T ∧ st'.valid ∧ st'.tree? = some T' ∧ T'.shape = T.shape

/-! ### COMPRESS and DECOMPRESS -/

/-- R200, R201: COMPRESS of a non-empty DBUF leaves the weight table of DBUF, the tree of that table, the codes of that tree,
the payload, the length and the container; when the payload or the container does not fit it ends with CAPACITY sub 3 or 4
and keeps what the steps before committed. The tables are those of COUNT, BUILD and GEN (see CompressEqualsItsSteps). -/
def Obligations.CompressRule : Prop :=
  ∀ (s : State) (T : CodeTree) (bits : Bits) (X : List Byte), s.mem.wf s.caps = true → s.mem.dbuf ≠ [] →
    (buildStore (countTable s.mem.dbuf)).tree? = some T → X = recordsBytes T.records →
    bits = s.mem.dbuf.flatMap (fun b => ((genTable T).get b).getD []) →
      (s.caps.pbuf.toNat < (bits.length + 7) / 8 →
        exec .compress s =
          .next ({ s with mem := { dbuf := s.mem.dbuf, tbuf := [], pbuf := [], fbuf := [] }, wt := some (countTable s.mem.dbuf)
                          tree := some (buildStore (countTable s.mem.dbuf)), ct := some (genTable T)
                          contentLen := 0 }.afterError 0x0A 7 3 0)) ∧
      ((bits.length + 7) / 8 ≤ s.caps.pbuf.toNat →
        ∃ P : List Byte,
          P.length = (bits.length + 7) / 8 ∧
          bitStream P = bits ++ List.replicate ((8 - bits.length % 8) % 8) false ∧
          (s.caps.fbuf.toNat < 8 + X.length + P.length →
            exec .compress s =
              .next ({ s with mem := { dbuf := s.mem.dbuf, tbuf := [], pbuf := P, fbuf := [] }
                              wt := some (countTable s.mem.dbuf), tree := some (buildStore (countTable s.mem.dbuf))
                              ct := some (genTable T)
                              contentLen := BitVec.ofNat 32 s.mem.dbuf.length }.afterError 0x0A 7 4 0)) ∧
          (8 + X.length + P.length ≤ s.caps.fbuf.toNat →
            exec .compress s =
              .next ({ s with mem := { dbuf := s.mem.dbuf, tbuf := X, pbuf := P
                                       fbuf := fourBytes X.length ++ X ++ fourBytes s.mem.dbuf.length ++ P }
                              wt := some (countTable s.mem.dbuf), tree := some (buildStore (countTable s.mem.dbuf))
                              ct := some (genTable T)
                              contentLen := BitVec.ofNat 32 s.mem.dbuf.length }.after 0x0A)))

/-- R201, R204: for a non-empty DBUF, COUNT, BUILD and GEN as commands one by one complete, ENCODE and then ASM complete or
end with CAPACITY, and COMPRESS has the effect of the commands up to the first that fails, apart from LASTOP and from the
cleared destinations of ASM when it did not run. -/
def Obligations.CompressEqualsItsSteps : Prop :=
  ∀ s : State, s.mem.wf s.caps = true → s.mem.dbuf ≠ [] →
    ∃ a b c d : State, exec .count s = .next a ∧ a.err = 0 ∧ exec .build a = .next b ∧ b.err = 0 ∧
      exec .gen b = .next c ∧ c.err = 0 ∧ exec .encode c = .next d ∧
      (d.err ≠ 0 → d.err = 7 ∧ d.sub = 3 ∧
        exec .compress s = .next { d with lastop := 0x0A, mem := { d.mem with tbuf := [], fbuf := [] } }) ∧
      (d.err = 0 → ∃ e, exec .asm d = .next e ∧ (e.err ≠ 0 → e.err = 7 ∧ e.sub = 4) ∧
        exec .compress s = .next { e with lastop := 0x0A })

/-- R202: DECOMPRESS of a container whose parts fit their buffers, and whose payload begins with codes of its tree for
CONTENT_LEN byte values, completes and gives those values. -/
def Obligations.DecompressDeliversTheContent : Prop :=
  ∀ (s : State) (T : CodeTree) (X P D : List Byte) (cs : List Bits) (rest : Bits), T.size ≤ 511 → X = recordsBytes T.records →
    s.mem.fbuf = fourBytes X.length ++ X ++ fourBytes D.length ++ P → X.length ≤ s.caps.tbuf.toNat →
    P.length ≤ s.caps.pbuf.toNat → D.length ≤ s.caps.dbuf.toNat → codedAs T D cs → bitStream P = cs.flatten ++ rest →
      ∃ (st : NodeStore) (T' : CodeTree),
        exec .decompress s =
          .next ({ s with mem := { dbuf := D, tbuf := X, pbuf := P, fbuf := s.mem.fbuf }, tree := some st
                          contentLen := BitVec.ofNat 32 D.length, consumed := BitVec.ofNat 32 X.length }.after 0x0B) ∧
        st.valid ∧ st.tree? = some T' ∧ T'.shape = T.shape

/-- R202, R204: DECOMPRESS has the effect of PARSE and, when that completes, DECODE, apart from LASTOP and from the cleared DBUF
when DECODE did not run; a DECODE that fails there ends with CORRUPT_STREAM or with CAPACITY sub 1. -/
def Obligations.DecompressEqualsItsSteps : Prop :=
  ∀ s : State, ∃ a, exec .parse s = .next a ∧
    (a.err ≠ 0 → exec .decompress s = .next { a with lastop := 0x0B, mem := { a.mem with dbuf := [] } }) ∧
    (a.err = 0 → ∃ b, exec .decode a = .next b ∧ (b.err ≠ 0 → b.err = 4 ∨ b.err = 7 ∧ b.sub = 1) ∧
      exec .decompress s = .next { b with lastop := 0x0B })

/-- R203, the round trip of the whole block: COMPRESS of a non-empty DBUF completes or ends with CAPACITY; when it completes,
DECOMPRESS of the same container, at once or later or on another instance with capacities no smaller, completes and gives
the input back. -/
def Obligations.DecompressUndoesCompress : Prop :=
  ∀ s a : State, s.Inv → s.mem.dbuf ≠ [] → exec .compress s = .next a →
    (a.err = 0 ∨ a.err = 7) ∧
    (a.err = 0 → ∀ s' : State, s'.mem.fbuf = a.mem.fbuf → s.caps.dbuf.toNat ≤ s'.caps.dbuf.toNat →
      s.caps.tbuf.toNat ≤ s'.caps.tbuf.toNat → s.caps.pbuf.toNat ≤ s'.caps.pbuf.toNat →
        ∃ b, exec .decompress s' = .next b ∧ b.err = 0 ∧ b.mem.dbuf = s.mem.dbuf)

/-! ### Errors -/

/-- R244: a primitive command whose source object has valid flag 0 ends with SEQUENCE; SUB names the object, ERRINFO is 0 and
the destinations are cleared. -/
def Obligations.SequenceErrors : Prop :=
  ∀ s : State,
    (s.wt = none → exec .build s = .next ({ s with tree := none }.afterError 0x02 5 1 0)) ∧
    (s.tree = none → exec .gen s = .next ({ s with ct := none }.afterError 0x03 5 2 0)) ∧
    (s.ct = none →
      exec .encode s = .next ({ s with mem := { s.mem with pbuf := [] }, contentLen := 0 }.afterError 0x04 5 3 0)) ∧
    (s.tree = none → exec .decode s = .next ({ s with mem := { s.mem with dbuf := [] } }.afterError 0x09 5 2 0)) ∧
    (s.tree = none → exec .ser s = .next ({ s with mem := { s.mem with tbuf := [] } }.afterError 0x05 5 2 0)) ∧
    (s.tree = none → exec .asm s = .next ({ s with mem := { s.mem with tbuf := [], fbuf := [] } }.afterError 0x06 5 2 0))

/-- R234: the errors a command can end with, with their sub-causes; (0, 0) is a success. -/
def Obligations.OnlyTheListedErrors : Prop :=
  ∀ s t : State, s.mem.wf s.caps = true →
    (exec .count s = .next t → (t.err, t.sub) ∈ [(0#4, 0#4)]) ∧
    (exec .build s = .next t → (t.err, t.sub) ∈ [(0#4, 0#4), (1, 0), (5, 1)]) ∧
    (exec .gen s = .next t → (t.err, t.sub) ∈ [(0#4, 0#4), (5, 2)]) ∧
    (exec .encode s = .next t → (t.err, t.sub) ∈ [(0#4, 0#4), (5, 3), (6, 0), (7, 3)]) ∧
    (exec .decode s = .next t → (t.err, t.sub) ∈ [(0#4, 0#4), (4, 1), (4, 2), (5, 2), (7, 1)]) ∧
    (exec .ser s = .next t → (t.err, t.sub) ∈ [(0#4, 0#4), (5, 2)]) ∧
    (exec .deser s = .next t → (t.err, t.sub) ∈ [(0#4, 0#4), (2, 1), (2, 2), (7, 5)]) ∧
    (exec .asm s = .next t → (t.err, t.sub) ∈ [(0#4, 0#4), (5, 2), (7, 4)]) ∧
    (exec .parse s = .next t →
      (t.err, t.sub) ∈ [(0#4, 0#4), (2, 1), (2, 2), (2, 3), (3, 1), (3, 2), (3, 3), (7, 2), (7, 3), (7, 5)]) ∧
    (exec .compress s = .next t → (t.err, t.sub) ∈ [(0#4, 0#4), (1, 0), (7, 3), (7, 4)]) ∧
    (exec .decompress s = .next t →
      (t.err, t.sub) ∈ [(0#4, 0#4), (2, 1), (2, 2), (2, 3), (3, 1), (3, 2), (3, 3), (4, 1), (4, 2), (7, 1), (7, 2), (7, 3), (7, 5)])

/-- R237: after a fault the destinations of a primitive command hold nothing; a COMPRESS that failed leaves FBUF empty, a
DECOMPRESS that failed leaves DBUF empty. -/
def Obligations.FailedCommandLeavesNothing : Prop :=
  ∀ s t : State, t.err ≠ 0 →
    (exec .build s = .next t → t.tree = none ∧ t.root = 0 ∧ t.nodeCnt = 0) ∧
    (exec .gen s = .next t → t.ct = none) ∧
    (exec .encode s = .next t → t.mem.pbuf = [] ∧ t.contentLen = 0) ∧
    (exec .decode s = .next t → t.mem.dbuf = []) ∧
    (exec .ser s = .next t → t.mem.tbuf = []) ∧
    (exec .deser s = .next t → t.tree = none ∧ t.root = 0 ∧ t.nodeCnt = 0 ∧ t.consumed = 0) ∧
    (exec .asm s = .next t → t.mem.tbuf = [] ∧ t.mem.fbuf = []) ∧
    (exec .parse s = .next t → t.mem.tbuf = [] ∧ t.mem.pbuf = [] ∧ t.tree = none ∧ t.root = 0 ∧ t.nodeCnt = 0 ∧
      t.consumed = 0 ∧ t.contentLen = 0) ∧
    (exec .compress s = .next t → t.mem.fbuf = []) ∧
    (exec .decompress s = .next t → t.mem.dbuf = [])

/-- R238: a command that faulted faults again in the same way, and leaves the very same state. -/
def Obligations.FaultRepeats : Prop :=
  ∀ (i : Instr) (w : Word) (s t : State), encode i = .command w → exec i s = .next t → t.err ≠ 0 → exec i t = .next t

/-! ### Frames -/

/-- R47, R238: an instruction changes only the destinations of the table of R47, whether it completes or faults: every byte
of every other buffer reads as before, and so does every other table and register. A tree record is part of a DESER. -/
def Obligations.OnlyDestinationsChange : Prop :=
  ∀ (i : Instr) (s t : State), exec i s = .next t →
    (i ≠ .decode → i ≠ .decompress → ∀ a, t.mem.readByte .dbuf a = s.mem.readByte .dbuf a) ∧
    (i ≠ .ser → i ≠ .asm → i ≠ .parse → i ≠ .compress → i ≠ .decompress →
      ∀ a, t.mem.readByte .tbuf a = s.mem.readByte .tbuf a) ∧
    (i ≠ .encode → i ≠ .parse → i ≠ .compress → i ≠ .decompress → ∀ a, t.mem.readByte .pbuf a = s.mem.readByte .pbuf a) ∧
    (i ≠ .asm → i ≠ .compress → ∀ a, t.mem.readByte .fbuf a = s.mem.readByte .fbuf a) ∧
    (i ≠ .count → i ≠ .compress → t.wt = s.wt) ∧
    (i ≠ .build → i ≠ .deser → i ≠ .parse → i ≠ .compress → i ≠ .decompress → (∀ v, i ≠ .tagLeaf v) →
      t.tree = s.tree ∧ t.root = s.root ∧ t.nodeCnt = s.nodeCnt) ∧
    (i ≠ .gen → i ≠ .compress → t.ct = s.ct) ∧
    (i ≠ .encode → i ≠ .parse → i ≠ .compress → i ≠ .decompress → t.contentLen = s.contentLen) ∧
    (i ≠ .deser → i ≠ .parse → i ≠ .decompress → (∀ v, i ≠ .tagLeaf v) → t.consumed = s.consumed) ∧
    (i ≠ .tagInternal → (∀ v, i ≠ .tagLeaf v) → t.reading = s.reading) ∧
    t.caps = s.caps ∧ t.host = s.host ∧ t.response = s.response

/-- R39, R47: what a command computes depends on its source objects and the capacities alone: on two states that agree on
these it ends with the same error report and the same destinations. -/
def Obligations.OnlySourcesMatter : Prop :=
  ∀ (i : Instr) (w : Word) (s s' t : State), encode i = .command w → s'.caps = s.caps →
    (∀ o ∈ sources i, sameObj s s' o) → exec i s = .next t →
      ∃ t', exec i s' = .next t' ∧ t'.err = t.err ∧ t'.sub = t.sub ∧ t'.errinfo = t.errinfo ∧ t'.lastop = t.lastop ∧
        ∀ o ∈ destinations i, sameObj t t' o

/-- R40 to R42, R235: every command leaves the low byte of its word in LASTOP; one that completed leaves ERR, SUB and ERRINFO 0
and ERRLOG as it was; one that faulted adds the bit of its code to ERRLOG and clears none. -/
def Obligations.EveryCommandReports : Prop :=
  ∀ (i : Instr) (w : Word) (s t : State), encode i = .command w → exec i s = .next t →
    t.lastop = w.extractLsb' 0 8 ∧
    (t.err = 0 → t.sub = 0 ∧ t.errinfo = 0 ∧ t.errlog = s.errlog) ∧
    (t.err ≠ 0 → t.errlog = s.errlog ||| (1#32 <<< t.err.toNat))

/-! ### Host operations -/

/-- R40: the fields of STATUS as H.RDREG delivers it. -/
def Obligations.StatusFields : Prop :=
  ∀ s : State, ∃ w : Word, hostOp (.rdreg 0x01) s = .next { s with response := some (.okWord w) } ∧
    w.extractLsb' 0 4 = s.err ∧ w.extractLsb' 4 4 = s.sub ∧ w.extractLsb' 8 8 = s.lastop ∧
    w.getLsbD 16 = s.wt.isSome ∧ w.getLsbD 17 = s.tree.isSome ∧ w.getLsbD 18 = s.ct.isSome ∧ w.extractLsb' 19 13 = 0

/-- R38, R214, R25, R31, R44: what H.RDREG delivers for each register number; CMD and unknown numbers are refused; the read
changes no state. -/
def Obligations.RegisterReads : Prop :=
  ∀ s : State, s.mem.wf s.caps = true →
    hostOp (.rdreg 0x00) s = .next { s with response := some .refused } ∧
    hostOp (.rdreg 0x02) s = .next { s with response := some (.okWord s.errinfo) } ∧
    hostOp (.rdreg 0x03) s = .next { s with response := some (.okWord s.errlog) } ∧
    hostOp (.rdreg 0x04) s = .next { s with response := some (.okWord s.contentLen) } ∧
    hostOp (.rdreg 0x05) s = .next { s with response := some (.okWord s.consumed) } ∧
    (s.tree = none → hostOp (.rdreg 0x06) s = .next { s with response := some (.okWord 0) } ∧
      hostOp (.rdreg 0x07) s = .next { s with response := some (.okWord 0) }) ∧
    (∀ st : NodeStore, s.tree = some st → ∃ w, hostOp (.rdreg 0x06) s = .next { s with response := some (.okWord w) } ∧
      w.toNat = st.root.toNat) ∧
    (∀ st : NodeStore, s.tree = some st → st.nodes.length ≤ 511 → ∃ w, hostOp (.rdreg 0x07) s = .next { s with response := some (.okWord w) } ∧
      w.toNat = st.nodes.length) ∧
    (∀ (k : Nat) (b : Buf) (X : List Byte) (cap : Nat), s.buffers[k]? = some (b, X, cap) →
      (∃ w, hostOp (.rdreg (0x08 + k)) s = .next { s with response := some (.okWord w) } ∧ w.toNat = X.length) ∧
      ∃ w, hostOp (.rdreg (0x0C + k)) s = .next { s with response := some (.okWord w) } ∧ w.toNat = cap) ∧
    ∀ r, 0x10 ≤ r → hostOp (.rdreg r) s = .next { s with response := some .refused }

/-- R211 to R213: H.CLEAR empties a buffer, H.PUSH appends a byte while there is room, H.RDBYTE delivers the byte at an index
below the length; each leaves everything else, every other buffer's bytes among it, as it was. -/
def Obligations.BufferOperations : Prop :=
  ∀ (s : State) (k : Nat) (b : Buf) (X : List Byte) (cap : Nat), s.buffers[k]? = some (b, X, cap) →
    (∃ m, hostOp (.clear k) s = .next { s with mem := m, response := some .ok } ∧ (∀ i, m.readByte b i = none) ∧
      ∀ c i, c ≠ b → m.readByte c i = s.mem.readByte c i) ∧
    (∀ v, v < 256 → X.length < cap →
      ∃ m, hostOp (.push k v) s = .next { s with mem := m, response := some .ok } ∧
        m.readByte b X.length = some (BitVec.ofNat 8 v) ∧ m.readByte b (X.length + 1) = none ∧
        ∀ c i, (c ≠ b ∨ i < X.length) → m.readByte c i = s.mem.readByte c i) ∧
    (∀ v, v < 256 → cap ≤ X.length → hostOp (.push k v) s = .next { s with response := some .refused }) ∧
    (∀ (i : Nat) (v : Byte), X[i]? = some v → hostOp (.rdbyte k i) s = .next { s with response := some (.okByte v) }) ∧
    ∀ i, X.length ≤ i → hostOp (.rdbyte k i) s = .next { s with response := some .refused }

/-- R216 to R218: H.RDWT, H.RDCT and H.RDNODE deliver an entry of a valid table and are refused otherwise; an invalid code
entry is (0, 0, 0), and a field a node record does not use is 0. The code field is the subject of CodeFieldLayout. -/
def Obligations.TableReads : Prop :=
  ∀ s : State,
    (∀ x, s.wt = none → hostOp (.rdwt x) s = .next { s with response := some .refused }) ∧
    (∀ (W : WeightTable) (x : Nat), s.wt = some W → x < 256 → hostOp (.rdwt x) s = .next { s with response := some (.okWord (W.get (BitVec.ofNat 8 x))) }) ∧
    (∀ x, s.ct = none → hostOp (.rdct x) s = .next { s with response := some .refused }) ∧
    (∀ (C : CodeTable) (x : Nat), s.ct = some C → x < 256 → C.get (BitVec.ofNat 8 x) = none →
      hostOp (.rdct x) s = .next { s with response := some (.okCode 0 0 0) }) ∧
    (∀ (C : CodeTable) (x : Nat) (c : Bits), s.ct = some C → x < 256 → C.get (BitVec.ofNat 8 x) = some c → c.length ≤ 255 →
      ∃ len field, hostOp (.rdct x) s = .next { s with response := some (.okCode 1 len field) } ∧ len.toNat = c.length) ∧
    (∀ i, s.tree = none → hostOp (.rdnode i) s = .next { s with response := some .refused }) ∧
    (∀ (st : NodeStore) (i : Nat) (v : Byte) (w : Word), s.tree = some st → st.nodes[i]? = some (.leaf v w) →
      hostOp (.rdnode i) s = .next { s with response := some (.okNode { kind := 1, sym := v, weight := w, left := 0, right := 0 }) }) ∧
    (∀ (st : NodeStore) (i : Nat) (w : Word) (l r : NodeIndex), s.tree = some st → st.nodes[i]? = some (.internal w l r) →
      hostOp (.rdnode i) s = .next { s with response := some (.okNode { kind := 0, sym := 0, weight := w, left := l, right := r }) }) ∧
    ∀ (st : NodeStore) (i : Nat), s.tree = some st → st.nodes.length ≤ i → hostOp (.rdnode i) s = .next { s with response := some .refused }

/-- R217, R34: in the 255-bit field in which H.RDCT delivers a code, element j stands at bit 254 - j and the remaining low bits
are 0. -/
def Obligations.CodeFieldLayout : Prop :=
  ∀ (s : State) (C : CodeTable) (x : Nat) (code : Bits), s.ct = some C → x < 256 → C.get (BitVec.ofNat 8 x) = some code →
    code.length ≤ 255 →
      ∃ len field, hostOp (.rdct x) s = .next { s with response := some (.okCode 1 len field) } ∧
        (∀ (j : Nat) (b : Bool), code[j]? = some b → field.getLsbD (254 - j) = b) ∧
        ∀ k, k + code.length < 255 → field.getLsbD k = false

/-- R215: a write of CONTENT_LEN changes that register and nothing else; every other register but CMD is refused, and so is a
value that does not fit. -/
def Obligations.RegisterWrites : Prop :=
  ∀ (s : State) (r v : Nat),
    (v < 2 ^ 32 → hostOp (.wrreg 0x04 v) s = .next { s with contentLen := BitVec.ofNat 32 v, response := some .ok }) ∧
    (v < 2 ^ 32 →
      hostOp (.wrreg 0x00 v) s =
        match issueCommand (BitVec.ofNat 32 v) s with
        | .next t => .next { t with response := some .ok }
        | .fault f => .fault f
        | .refused r => .refused r) ∧
    (r ≠ 0x00 → r ≠ 0x04 → hostOp (.wrreg r v) s = .next { s with response := some .refused }) ∧
    (2 ^ 32 ≤ v → hostOp (.wrreg r v) s = .next { s with response := some .refused })

/-- R219: the refused operations are exactly the listed ones, and a refused operation changes no state. -/
def Obligations.RefusedOperations : Prop :=
  ∀ (op : HostOp) (s t : State), hostOp op s = .next t →
    (t.response = some .refused → t = { s with response := some .refused }) ∧
    (t.response = some .refused ↔
      match op with
      | .reset => False
      | .clear b => 4 ≤ b
      | .push b v => 4 ≤ b ∨ 256 ≤ v ∨ ∃ (B : Buf) (X : List Byte) (cap : Nat), s.buffers[b]? = some (B, X, cap) ∧ cap ≤ X.length
      | .rdbyte b i => 4 ≤ b ∨ ∃ (B : Buf) (X : List Byte) (cap : Nat), s.buffers[b]? = some (B, X, cap) ∧ X.length ≤ i
      | .rdreg r => r = 0x00 ∨ 0x10 ≤ r
      | .wrreg r v => r ≠ 0x00 ∧ r ≠ 0x04 ∨ 2 ^ 32 ≤ v
      | .rdwt x => 256 ≤ x ∨ s.wt = none
      | .rdct x => 256 ≤ x ∨ s.ct = none
      | .rdnode i => s.tree = none ∨ ∃ st : NodeStore, s.tree = some st ∧ st.nodes.length ≤ i)

/-- R28, R219, R66: apart from H.RESET and a write of CMD, no host operation writes WT, NODE, CT, ROOT, NODE_CNT, CONSUMED, STATUS,
ERRINFO or ERRLOG. -/
def Obligations.HostCannotWriteResults : Prop :=
  ∀ (op : HostOp) (s t : State), op ≠ .reset → (∀ v, op ≠ .wrreg 0x00 v) → hostOp op s = .next t →
    t.wt = s.wt ∧ t.tree = s.tree ∧ t.ct = s.ct ∧ t.consumed = s.consumed ∧ t.status = s.status ∧ t.err = s.err ∧
    t.sub = s.sub ∧ t.lastop = s.lastop ∧ t.errinfo = s.errinfo ∧ t.errlog = s.errlog ∧ t.caps = s.caps ∧
    t.reading = s.reading ∧ t.host = s.host

/-- R92, R212: the operations of H.LOAD, issued one after the other, leave exactly the given bytes in the buffer and everything
else as it was. The queue they stand in is the model's own (notes/assumptions/3.md). -/
def Obligations.LoadFillsTheBuffer : Prop :=
  ∀ (s : State) (k : Nat) (b : Buf) (X : List Byte) (cap : Nat) (bytes : List Byte) (rest : List HostOp),
    s.reading = TreeReading.idle → s.buffers[k]? = some (b, X, cap) → bytes.length ≤ cap →
    s.host = .clear k :: bytes.map (fun v => .push k v.toNat) ++ rest →
      ∃ m, Host.Core.run Sys2Proof.core (bytes.length + 1) s = .next { s with mem := m, host := rest, response := some .ok } ∧
        (∀ i, m.readByte b i = bytes[i]?) ∧ ∀ c i, c ≠ b → m.readByte c i = s.mem.readByte c i

end Slice0Obligations
end

