-- ==== Sys2Proof/Laws/State.lean ====
section
/-! SUPPORT. One lemma per field of State for each operation that updates it, so that no proof unfolds a record update. -/

namespace Sys2Proof.Machine

/-! ### State.succeed -/

@[simp] theorem State.succeed_caps (s : State) : s.succeed.caps = s.caps := rfl
@[simp] theorem State.succeed_mem (s : State) : s.succeed.mem = s.mem := rfl
@[simp] theorem State.succeed_wt (s : State) : s.succeed.wt = s.wt := rfl
@[simp] theorem State.succeed_tree (s : State) : s.succeed.tree = s.tree := rfl
@[simp] theorem State.succeed_ct (s : State) : s.succeed.ct = s.ct := rfl
@[simp] theorem State.succeed_contentLen (s : State) : s.succeed.contentLen = s.contentLen := rfl
@[simp] theorem State.succeed_consumed (s : State) : s.succeed.consumed = s.consumed := rfl
@[simp] theorem State.succeed_err (s : State) : s.succeed.err = 0 := rfl
@[simp] theorem State.succeed_sub (s : State) : s.succeed.sub = 0 := rfl
@[simp] theorem State.succeed_lastop (s : State) : s.succeed.lastop = s.lastop := rfl
@[simp] theorem State.succeed_errinfo (s : State) : s.succeed.errinfo = 0 := rfl
@[simp] theorem State.succeed_errlog (s : State) : s.succeed.errlog = s.errlog := rfl
@[simp] theorem State.succeed_reading (s : State) : s.succeed.reading = s.reading := rfl
@[simp] theorem State.succeed_host (s : State) : s.succeed.host = s.host := rfl
@[simp] theorem State.succeed_response (s : State) : s.succeed.response = s.response := rfl

/-! ### State.takeError -/

@[simp] theorem State.takeError_caps (s : State) (e : CmdError) : (s.takeError e).caps = s.caps := rfl
@[simp] theorem State.takeError_mem (s : State) (e : CmdError) : (s.takeError e).mem = s.mem := rfl
@[simp] theorem State.takeError_wt (s : State) (e : CmdError) : (s.takeError e).wt = s.wt := rfl
@[simp] theorem State.takeError_tree (s : State) (e : CmdError) : (s.takeError e).tree = s.tree := rfl
@[simp] theorem State.takeError_ct (s : State) (e : CmdError) : (s.takeError e).ct = s.ct := rfl
@[simp] theorem State.takeError_contentLen (s : State) (e : CmdError) : (s.takeError e).contentLen = s.contentLen := rfl
@[simp] theorem State.takeError_consumed (s : State) (e : CmdError) : (s.takeError e).consumed = s.consumed := rfl
@[simp] theorem State.takeError_err (s : State) (e : CmdError) : (s.takeError e).err = e.kind.code := rfl
@[simp] theorem State.takeError_sub (s : State) (e : CmdError) : (s.takeError e).sub = e.sub := rfl
@[simp] theorem State.takeError_lastop (s : State) (e : CmdError) : (s.takeError e).lastop = s.lastop := rfl
@[simp] theorem State.takeError_errinfo (s : State) (e : CmdError) : (s.takeError e).errinfo = wordOfNat e.info := rfl
@[simp] theorem State.takeError_errlog (s : State) (e : CmdError) : (s.takeError e).errlog = logError s.errlog e.kind.code := rfl
@[simp] theorem State.takeError_reading (s : State) (e : CmdError) : (s.takeError e).reading = s.reading := rfl
@[simp] theorem State.takeError_host (s : State) (e : CmdError) : (s.takeError e).host = s.host := rfl
@[simp] theorem State.takeError_response (s : State) (e : CmdError) : (s.takeError e).response = s.response := rfl

/-! ### State.setBuf -/

@[simp] theorem State.setBuf_caps (s : State) (b : Buf) (X : List Byte) : (s.setBuf b X).caps = s.caps := rfl
@[simp] theorem State.setBuf_mem (s : State) (b : Buf) (X : List Byte) : (s.setBuf b X).mem = s.mem.put b X := rfl
@[simp] theorem State.setBuf_wt (s : State) (b : Buf) (X : List Byte) : (s.setBuf b X).wt = s.wt := rfl
@[simp] theorem State.setBuf_tree (s : State) (b : Buf) (X : List Byte) : (s.setBuf b X).tree = s.tree := rfl
@[simp] theorem State.setBuf_ct (s : State) (b : Buf) (X : List Byte) : (s.setBuf b X).ct = s.ct := rfl
@[simp] theorem State.setBuf_contentLen (s : State) (b : Buf) (X : List Byte) : (s.setBuf b X).contentLen = s.contentLen := rfl
@[simp] theorem State.setBuf_consumed (s : State) (b : Buf) (X : List Byte) : (s.setBuf b X).consumed = s.consumed := rfl
@[simp] theorem State.setBuf_err (s : State) (b : Buf) (X : List Byte) : (s.setBuf b X).err = s.err := rfl
@[simp] theorem State.setBuf_sub (s : State) (b : Buf) (X : List Byte) : (s.setBuf b X).sub = s.sub := rfl
@[simp] theorem State.setBuf_lastop (s : State) (b : Buf) (X : List Byte) : (s.setBuf b X).lastop = s.lastop := rfl
@[simp] theorem State.setBuf_errinfo (s : State) (b : Buf) (X : List Byte) : (s.setBuf b X).errinfo = s.errinfo := rfl
@[simp] theorem State.setBuf_errlog (s : State) (b : Buf) (X : List Byte) : (s.setBuf b X).errlog = s.errlog := rfl
@[simp] theorem State.setBuf_reading (s : State) (b : Buf) (X : List Byte) : (s.setBuf b X).reading = s.reading := rfl
@[simp] theorem State.setBuf_host (s : State) (b : Buf) (X : List Byte) : (s.setBuf b X).host = s.host := rfl
@[simp] theorem State.setBuf_response (s : State) (b : Buf) (X : List Byte) : (s.setBuf b X).response = s.response := rfl

/-! ### State.respond -/

@[simp] theorem State.respond_caps (s : State) (r : Response) : (s.respond r).caps = s.caps := rfl
@[simp] theorem State.respond_mem (s : State) (r : Response) : (s.respond r).mem = s.mem := rfl
@[simp] theorem State.respond_wt (s : State) (r : Response) : (s.respond r).wt = s.wt := rfl
@[simp] theorem State.respond_tree (s : State) (r : Response) : (s.respond r).tree = s.tree := rfl
@[simp] theorem State.respond_ct (s : State) (r : Response) : (s.respond r).ct = s.ct := rfl
@[simp] theorem State.respond_contentLen (s : State) (r : Response) : (s.respond r).contentLen = s.contentLen := rfl
@[simp] theorem State.respond_consumed (s : State) (r : Response) : (s.respond r).consumed = s.consumed := rfl
@[simp] theorem State.respond_err (s : State) (r : Response) : (s.respond r).err = s.err := rfl
@[simp] theorem State.respond_sub (s : State) (r : Response) : (s.respond r).sub = s.sub := rfl
@[simp] theorem State.respond_lastop (s : State) (r : Response) : (s.respond r).lastop = s.lastop := rfl
@[simp] theorem State.respond_errinfo (s : State) (r : Response) : (s.respond r).errinfo = s.errinfo := rfl
@[simp] theorem State.respond_errlog (s : State) (r : Response) : (s.respond r).errlog = s.errlog := rfl
@[simp] theorem State.respond_reading (s : State) (r : Response) : (s.respond r).reading = s.reading := rfl
@[simp] theorem State.respond_host (s : State) (r : Response) : (s.respond r).host = s.host := rfl
@[simp] theorem State.respond_response (s : State) (r : Response) : (s.respond r).response = some r := rfl

/-! ### State.commitTree -/

@[simp] theorem State.commitTree_caps (s : State) (r : TreeReading) : (s.commitTree r).caps = s.caps := rfl
@[simp] theorem State.commitTree_mem (s : State) (r : TreeReading) : (s.commitTree r).mem = s.mem := rfl
@[simp] theorem State.commitTree_wt (s : State) (r : TreeReading) : (s.commitTree r).wt = s.wt := rfl
@[simp] theorem State.commitTree_tree (s : State) (r : TreeReading) : (s.commitTree r).tree = some { nodes := r.nodes, root := 0 } := rfl
@[simp] theorem State.commitTree_ct (s : State) (r : TreeReading) : (s.commitTree r).ct = s.ct := rfl
@[simp] theorem State.commitTree_contentLen (s : State) (r : TreeReading) : (s.commitTree r).contentLen = s.contentLen := rfl
@[simp] theorem State.commitTree_consumed (s : State) (r : TreeReading) : (s.commitTree r).consumed = wordOfNat r.cur := rfl
@[simp] theorem State.commitTree_err (s : State) (r : TreeReading) : (s.commitTree r).err = s.err := rfl
@[simp] theorem State.commitTree_sub (s : State) (r : TreeReading) : (s.commitTree r).sub = s.sub := rfl
@[simp] theorem State.commitTree_lastop (s : State) (r : TreeReading) : (s.commitTree r).lastop = s.lastop := rfl
@[simp] theorem State.commitTree_errinfo (s : State) (r : TreeReading) : (s.commitTree r).errinfo = s.errinfo := rfl
@[simp] theorem State.commitTree_errlog (s : State) (r : TreeReading) : (s.commitTree r).errlog = s.errlog := rfl
@[simp] theorem State.commitTree_reading (s : State) (r : TreeReading) : (s.commitTree r).reading = s.reading := rfl
@[simp] theorem State.commitTree_host (s : State) (r : TreeReading) : (s.commitTree r).host = s.host := rfl
@[simp] theorem State.commitTree_response (s : State) (r : TreeReading) : (s.commitTree r).response = s.response := rfl

/-! ### State.commitParsed -/

@[simp] theorem State.commitParsed_caps (s : State) (p : Parsed) : (s.commitParsed p).caps = s.caps := rfl
@[simp] theorem State.commitParsed_mem (s : State) (p : Parsed) : (s.commitParsed p).mem = (s.mem.put .tbuf p.treeBytes).put .pbuf p.payload := rfl
@[simp] theorem State.commitParsed_wt (s : State) (p : Parsed) : (s.commitParsed p).wt = s.wt := rfl
@[simp] theorem State.commitParsed_tree (s : State) (p : Parsed) : (s.commitParsed p).tree = some { nodes := p.reading.nodes, root := 0 } := rfl
@[simp] theorem State.commitParsed_ct (s : State) (p : Parsed) : (s.commitParsed p).ct = s.ct := rfl
@[simp] theorem State.commitParsed_contentLen (s : State) (p : Parsed) : (s.commitParsed p).contentLen = p.contentLen := rfl
@[simp] theorem State.commitParsed_consumed (s : State) (p : Parsed) : (s.commitParsed p).consumed = wordOfNat p.reading.cur := rfl
@[simp] theorem State.commitParsed_err (s : State) (p : Parsed) : (s.commitParsed p).err = s.err := rfl
@[simp] theorem State.commitParsed_sub (s : State) (p : Parsed) : (s.commitParsed p).sub = s.sub := rfl
@[simp] theorem State.commitParsed_lastop (s : State) (p : Parsed) : (s.commitParsed p).lastop = s.lastop := rfl
@[simp] theorem State.commitParsed_errinfo (s : State) (p : Parsed) : (s.commitParsed p).errinfo = s.errinfo := rfl
@[simp] theorem State.commitParsed_errlog (s : State) (p : Parsed) : (s.commitParsed p).errlog = s.errlog := rfl
@[simp] theorem State.commitParsed_reading (s : State) (p : Parsed) : (s.commitParsed p).reading = s.reading := rfl
@[simp] theorem State.commitParsed_host (s : State) (p : Parsed) : (s.commitParsed p).host = s.host := rfl
@[simp] theorem State.commitParsed_response (s : State) (p : Parsed) : (s.commitParsed p).response = s.response := rfl

/-! ### State.failReading -/

@[simp] theorem State.failReading_caps (s : State) (e : CmdError) : (s.failReading e).caps = s.caps := rfl
@[simp] theorem State.failReading_mem (s : State) (e : CmdError) : (s.failReading e).mem = s.mem := rfl
@[simp] theorem State.failReading_wt (s : State) (e : CmdError) : (s.failReading e).wt = s.wt := rfl
@[simp] theorem State.failReading_tree (s : State) (e : CmdError) : (s.failReading e).tree = s.tree := rfl
@[simp] theorem State.failReading_ct (s : State) (e : CmdError) : (s.failReading e).ct = s.ct := rfl
@[simp] theorem State.failReading_contentLen (s : State) (e : CmdError) : (s.failReading e).contentLen = s.contentLen := rfl
@[simp] theorem State.failReading_consumed (s : State) (e : CmdError) : (s.failReading e).consumed = s.consumed := rfl
@[simp] theorem State.failReading_err (s : State) (e : CmdError) : (s.failReading e).err = e.kind.code := rfl
@[simp] theorem State.failReading_sub (s : State) (e : CmdError) : (s.failReading e).sub = e.sub := rfl
@[simp] theorem State.failReading_lastop (s : State) (e : CmdError) : (s.failReading e).lastop = s.lastop := rfl
@[simp] theorem State.failReading_errinfo (s : State) (e : CmdError) : (s.failReading e).errinfo = wordOfNat e.info := rfl
@[simp] theorem State.failReading_errlog (s : State) (e : CmdError) : (s.failReading e).errlog = logError s.errlog e.kind.code := rfl
@[simp] theorem State.failReading_reading (s : State) (e : CmdError) : (s.failReading e).reading = TreeReading.idle := rfl
@[simp] theorem State.failReading_host (s : State) (e : CmdError) : (s.failReading e).host = s.host := rfl
@[simp] theorem State.failReading_response (s : State) (e : CmdError) : (s.failReading e).response = s.response := rfl

/-! ### State.resetWith -/

@[simp] theorem State.resetWith_caps (c : Capacities) : (State.resetWith c).caps = c := rfl
@[simp] theorem State.resetWith_mem (c : Capacities) : (State.resetWith c).mem = Memory.empty := rfl
@[simp] theorem State.resetWith_wt (c : Capacities) : (State.resetWith c).wt = none := rfl
@[simp] theorem State.resetWith_tree (c : Capacities) : (State.resetWith c).tree = none := rfl
@[simp] theorem State.resetWith_ct (c : Capacities) : (State.resetWith c).ct = none := rfl
@[simp] theorem State.resetWith_contentLen (c : Capacities) : (State.resetWith c).contentLen = 0 := rfl
@[simp] theorem State.resetWith_consumed (c : Capacities) : (State.resetWith c).consumed = 0 := rfl
@[simp] theorem State.resetWith_err (c : Capacities) : (State.resetWith c).err = 0 := rfl
@[simp] theorem State.resetWith_sub (c : Capacities) : (State.resetWith c).sub = 0 := rfl
@[simp] theorem State.resetWith_lastop (c : Capacities) : (State.resetWith c).lastop = 0 := rfl
@[simp] theorem State.resetWith_errinfo (c : Capacities) : (State.resetWith c).errinfo = 0 := rfl
@[simp] theorem State.resetWith_errlog (c : Capacities) : (State.resetWith c).errlog = 0 := rfl
@[simp] theorem State.resetWith_reading (c : Capacities) : (State.resetWith c).reading = TreeReading.idle := rfl
@[simp] theorem State.resetWith_host (c : Capacities) : (State.resetWith c).host = [] := rfl
@[simp] theorem State.resetWith_response (c : Capacities) : (State.resetWith c).response = none := rfl

/-! ### Reading a buffer after a write -/

@[simp] theorem Memory.get_put_self (m : Memory) (b : Buf) (X : List Byte) : (m.put b X).get b = X := by
  cases b <;> rfl

theorem Memory.get_put_other (m : Memory) {b c : Buf} (h : b ≠ c) (X : List Byte) : (m.put b X).get c = m.get c := by
  cases b <;> cases c <;> first | rfl | exact absurd rfl h

theorem Memory.get_put (m : Memory) (b c : Buf) (X : List Byte) : (m.put b X).get c = if b = c then X else m.get c := by
  cases b <;> cases c <;> rfl

/-- Two memories whose buffers are equal are equal data. -/
theorem Memory.ext_get {m n : Memory} (h : ∀ b, m.get b = n.get b) : m = n := by
  have hd := h .dbuf
  have ht := h .tbuf
  have hp := h .pbuf
  have hf := h .fbuf
  cases m; cases n
  simp only [Memory.get] at hd ht hp hf
  simp only [hd, ht, hp, hf]

@[simp] theorem State.buf_setBuf_self (s : State) (b : Buf) (X : List Byte) : (s.setBuf b X).buf b = X :=
  Memory.get_put_self s.mem b X

theorem State.buf_setBuf_other (s : State) {b c : Buf} (h : b ≠ c) (X : List Byte) : (s.setBuf b X).buf c = s.buf c :=
  Memory.get_put_other s.mem h X

@[simp] theorem State.buf_succeed (s : State) (b : Buf) : s.succeed.buf b = s.buf b := rfl
@[simp] theorem State.buf_takeError (s : State) (e : CmdError) (b : Buf) : (s.takeError e).buf b = s.buf b := rfl
@[simp] theorem State.buf_respond (s : State) (r : Response) (b : Buf) : (s.respond r).buf b = s.buf b := rfl
@[simp] theorem State.buf_commitTree (s : State) (r : TreeReading) (b : Buf) : (s.commitTree r).buf b = s.buf b := rfl

/-! ### Clearing destinations -/

@[simp] theorem clearObj_buf (s : State) (b : Buf) : clearObj s (.buf b) = s.setBuf b [] := rfl
@[simp] theorem clearObj_wt (s : State) : clearObj s .wt = { s with wt := none } := rfl
@[simp] theorem clearObj_tree (s : State) : clearObj s .tree = { s with tree := none } := rfl
@[simp] theorem clearObj_ct (s : State) : clearObj s .ct = { s with ct := none } := rfl
@[simp] theorem clearObj_contentLen (s : State) : clearObj s .contentLen = { s with contentLen := 0 } := rfl
@[simp] theorem clearObj_consumed (s : State) : clearObj s .consumed = { s with consumed := 0 } := rfl

end Sys2Proof.Machine
end

