-- ==== Sys2Proof/Laws/Operands.lean ====
section
/-! SUPPORT. Laws of the tables indexed by a byte value, of big-endian words, of bit packing and of buffers. -/

namespace Sys2Proof

/-! ### Byte tables -/

namespace ByteTable

variable {α : Type}

@[simp] theorem get_set_self (t : ByteTable α) (b : Byte) (a : α) : (t.set b a).get b = a := by
  simp [get, set]

theorem get_set_other (t : ByteTable α) {b c : Byte} (h : b ≠ c) (a : α) : (t.set b a).get c = t.get c := by
  have hn : b.toNat ≠ c.toNat := fun e => h (BitVec.eq_of_toNat_eq e)
  simp [get, set, List.getElem_set_ne hn]

theorem get_set (t : ByteTable α) (b c : Byte) (a : α) : (t.set b a).get c = if b = c then a else t.get c := by
  by_cases h : b = c
  · subst h; simp
  · simp [get_set_other t h, h]

@[simp] theorem get_const (a : α) (b : Byte) : (const a).get b = a := List.getElem_replicate _

/-- Two tables with the same entries are equal. -/
theorem ext_get {t u : ByteTable α} (h : ∀ b, t.get b = u.get b) : t = u := by
  have he : t.entries = u.entries := by
    apply List.ext_getElem (by rw [t.size_eq, u.size_eq])
    intro i hi hj
    have hlt : i < 256 := by rw [← t.size_eq]; exact hi
    have := h (BitVec.ofNat 8 i)
    simpa [get, BitVec.toNat_ofNat, Nat.mod_eq_of_lt hlt] using this
  cases t; cases u; simp_all

theorem mem_entries (t : ByteTable α) (a : α) : a ∈ t.entries ↔ ∃ b, t.get b = a := by
  constructor
  · intro h
    obtain ⟨i, hi, rfl⟩ := List.getElem_of_mem h
    have hlt : i < 256 := by rw [← t.size_eq]; exact hi
    exact ⟨BitVec.ofNat 8 i, by simp [get, BitVec.toNat_ofNat, Nat.mod_eq_of_lt hlt]⟩
  · rintro ⟨b, rfl⟩
    exact List.getElem_mem _

end ByteTable

@[simp] theorem allBytes_length : allBytes.length = 256 := by simp [allBytes]

theorem mem_allBytes (b : Byte) : b ∈ allBytes := by
  simp only [allBytes, List.mem_map, List.mem_range]
  exact ⟨b.toNat, b.isLt, by simp⟩

theorem allBytes_sorted : allBytes.Pairwise (fun a b => a.toNat < b.toNat) := by
  rw [allBytes, List.pairwise_map]
  apply List.Pairwise.imp_of_mem _ List.pairwise_lt_range
  intro a b ha hb hab
  rw [List.mem_range] at ha hb
  rwa [BitVec.toNat_ofNat, BitVec.toNat_ofNat, Nat.mod_eq_of_lt ha, Nat.mod_eq_of_lt hb]

theorem allBytes_nodup : allBytes.Nodup :=
  allBytes_sorted.imp fun h e => by simp [e] at h

/-- The entries of a table are its values at the bytes 0 to 255 in order. -/
theorem ByteTable.entries_eq_map {α : Type} (t : ByteTable α) : t.entries = allBytes.map t.get := by
  apply List.ext_getElem (by simp [t.size_eq])
  intro i hi hj
  have hlt : i < 256 := by rw [← t.size_eq]; exact hi
  simp [allBytes, ByteTable.get, BitVec.toNat_ofNat, Nat.mod_eq_of_lt hlt]

namespace Machine

/-! ### Big-endian words -/

@[simp] theorem be32_length (v : Word) : (be32 v).length = 4 := rfl

theorem u32be_four (a b c d : Byte) :
    u32be [a, b, c, d] = a.toNat * 2 ^ 24 + b.toNat * 2 ^ 16 + c.toNat * 2 ^ 8 + d.toNat := by
  simp only [u32be, List.foldl]; ring

/-- The four bytes of a word read back as its value (R9). -/
@[simp] theorem u32be_be32 (v : Word) : u32be (be32 v) = v.toNat := by
  have hv := v.isLt
  simp only [be32, u32be_four, BitVec.extractLsb'_toNat, Nat.shiftRight_eq_div_pow]
  omega

theorem u32be_lt (a b c d : Byte) : u32be [a, b, c, d] < 2 ^ 32 := by
  have := a.isLt; have := b.isLt; have := c.isLt; have := d.isLt
  rw [u32be_four]; omega

theorem be32_u32be (a b c d : Byte) : be32 (wordOfNat (u32be [a, b, c, d])) = [a, b, c, d] := by
  have ha := a.isLt; have hb := b.isLt; have hc := c.isLt; have hd := d.isLt
  have hn : (wordOfNat (u32be [a, b, c, d])).toNat = a.toNat * 2 ^ 24 + b.toNat * 2 ^ 16 + c.toNat * 2 ^ 8 + d.toNat := by
    rw [← u32be_four, wordOfNat, BitVec.toNat_ofNat, Nat.mod_eq_of_lt (u32be_lt a b c d)]
  have part : ∀ (k : Nat) (x : Byte), (wordOfNat (u32be [a, b, c, d])).toNat / 2 ^ k % 2 ^ 8 = x.toNat →
      (wordOfNat (u32be [a, b, c, d])).extractLsb' k 8 = x := by
    intro k x h
    apply BitVec.eq_of_toNat_eq
    rw [BitVec.extractLsb'_toNat, Nat.shiftRight_eq_div_pow, h]
  rw [hn] at part
  rw [be32, part 24 a (by omega), part 16 b (by omega), part 8 c (by omega), part 0 d (by omega)]

@[simp] theorem wordOfNat_toNat (v : Word) : wordOfNat v.toNat = v := by simp [wordOfNat]

theorem toNat_wordOfNat {n : Nat} (h : n < 2 ^ 32) : (wordOfNat n).toNat = n := by
  simp only [wordOfNat, BitVec.toNat_ofNat]; omega

/-! ### Reading a part of a byte sequence -/

theorem memRead_zero (X Y : List Byte) (n : Nat) (h : X.length = n) : memRead (X ++ Y) 0 n = X := by
  subst h; simp [memRead]

/-- A field that follows the bytes X. -/
theorem memRead_append (X Y : List Byte) (i n : Nat) (h : X.length = i) : memRead (X ++ Y) i n = Y.take n := by
  subst h; simp [memRead]

theorem memRead_length (B : List Byte) (i n : Nat) (h : i + n ≤ B.length) : (memRead B i n).length = n := by
  simp [memRead]; omega

/-! ### Packing bits -/

@[simp] theorem bitsOfByte_length (b : Byte) : (bitsOfByte b).length = 8 := rfl

@[simp] theorem bitsOfByte_byteOfBits (b7 b6 b5 b4 b3 b2 b1 b0 : Bool) :
    bitsOfByte (byteOfBits b7 b6 b5 b4 b3 b2 b1 b0) = [b7, b6, b5, b4, b3, b2, b1, b0] := by
  revert b7 b6 b5 b4 b3 b2 b1 b0; decide

@[simp] theorem unpack_nil : unpack [] = [] := rfl

@[simp] theorem unpack_cons (b : Byte) (X : List Byte) : unpack (b :: X) = bitsOfByte b ++ unpack X := rfl

theorem unpack_append (X Y : List Byte) : unpack (X ++ Y) = unpack X ++ unpack Y := by
  simp [unpack]

@[simp] theorem unpack_length (X : List Byte) : (unpack X).length = 8 * X.length := by
  induction X with
  | nil => rfl
  | cons b X ih => simp only [unpack_cons, List.length_append, bitsOfByte_length, ih, List.length_cons]; omega

/-- Packing whole bytes and reading the bits again gives the bits back (R9). -/
theorem unpack_pack (bits : Bits) (h : bits.length % 8 = 0) : unpack (pack bits) = bits := by
  fun_induction pack bits with
  | case1 b7 b6 b5 b4 b3 b2 b1 b0 rest ih =>
    simp only [List.length_cons] at h
    rw [unpack_cons, ih (by omega), bitsOfByte_byteOfBits]; rfl
  | case2 bits hno =>
    rcases bits with _ | ⟨a, _ | ⟨b, _ | ⟨c, _ | ⟨d, _ | ⟨e, _ | ⟨f, _ | ⟨g, _ | ⟨i, rest⟩⟩⟩⟩⟩⟩⟩⟩
    all_goals first | rfl | (simp at h; done) | exact (hno _ _ _ _ _ _ _ _ _ rfl).elim

theorem pack_length (bits : Bits) : (pack bits).length = bits.length / 8 := by
  fun_induction pack bits with
  | case1 b7 b6 b5 b4 b3 b2 b1 b0 rest ih => simp only [List.length_cons, ih]; omega
  | case2 bits hno =>
    rcases bits with _ | ⟨a, _ | ⟨b, _ | ⟨c, _ | ⟨d, _ | ⟨e, _ | ⟨f, _ | ⟨g, _ | ⟨i, rest⟩⟩⟩⟩⟩⟩⟩⟩
    all_goals first | rfl | (simp; done) | exact (hno _ _ _ _ _ _ _ _ _ rfl).elim

theorem padded_length_mod (bits : Bits) : (padded bits).length % 8 = 0 := by
  simp only [padded, padCount, List.length_append, List.length_replicate]; omega

theorem padCount_lt (n : Nat) : padCount n < 8 := by simp only [padCount]; omega

/-- The payload of a bit sequence has as many bytes as are needed for its bits (R83, R151). -/
theorem pack_padded_length (bits : Bits) : (pack (padded bits)).length = (bits.length + 7) / 8 := by
  rw [pack_length]
  simp only [padded, padCount, List.length_append, List.length_replicate]; omega

theorem unpack_pack_padded (bits : Bits) : unpack (pack (padded bits)) = padded bits :=
  unpack_pack _ (padded_length_mod bits)

/-! ### Buffers -/

/-- Memory is well formed exactly when every buffer is within its capacity (R24). -/
theorem Memory.wf_iff (c : Capacities) (m : Memory) : m.wf c = true ↔ ∀ b, (m.get b).length ≤ capOf c b := by
  simp only [Memory.wf, Bool.and_eq_true, decide_eq_true_eq]
  constructor
  · rintro ⟨⟨⟨h0, h1⟩, h2⟩, h3⟩ b
    cases b <;> assumption
  · intro h
    exact ⟨⟨⟨h .dbuf, h .tbuf⟩, h .pbuf⟩, h .fbuf⟩

/-- Writing a buffer that is not longer than its capacity keeps memory well formed (R67). -/
theorem Memory.wf_put {c : Capacities} {m : Memory} (hm : m.wf c = true) {b : Buf} {X : List Byte}
    (h : X.length ≤ capOf c b) : (m.put b X).wf c = true := by
  rw [Memory.wf_iff] at *
  intro d
  rw [Memory.get_put]
  split
  · subst_vars; exact h
  · exact hm d

theorem Memory.wf_empty (c : Capacities) : Memory.empty.wf c = true := by
  rw [Memory.wf_iff]; intro b; cases b <;> exact Nat.zero_le _

theorem capOf_lt (c : Capacities) (b : Buf) : capOf c b < 2 ^ 32 := by
  cases b <;> exact BitVec.isLt _

/-- A buffer within its capacity is shorter than 2^32 bytes (R7). -/
theorem Memory.length_lt {c : Capacities} {m : Memory} (hm : m.wf c = true) (b : Buf) : (m.get b).length < 2 ^ 32 :=
  lt_of_le_of_lt ((Memory.wf_iff c m).1 hm b) (capOf_lt c b)

/-- The cells of one buffer have rising addresses, all in the buffer's own range. -/
theorem bufCells_addresses (m : Memory) (b : Buf) :
    (bufCells m b).map Prod.fst = (List.range (m.get b).length).map (fun i => bufId b * 2 ^ 32 + i) := by
  apply List.ext_getElem (by simp [bufCells])
  intro i h1 h2
  simp [bufCells]

/-- The cells of a memory within its capacities are listed with strictly rising addresses. -/
theorem Memory.cells_rising {c : Capacities} {m : Memory} (hm : m.wf c = true) :
    (m.cells.map Prod.fst).Pairwise (· < ·) := by
  have one : ∀ b, ((bufCells m b).map Prod.fst).Pairwise (· < ·) := by
    intro b
    rw [bufCells_addresses, List.pairwise_map]
    exact List.pairwise_lt_range.imp fun h => by omega
  have range : ∀ b, ∀ a ∈ (bufCells m b).map Prod.fst, bufId b * 2 ^ 32 ≤ a ∧ a < bufId b * 2 ^ 32 + 2 ^ 32 := by
    intro b a ha
    rw [bufCells_addresses, List.mem_map] at ha
    obtain ⟨i, hi, rfl⟩ := ha
    rw [List.mem_range] at hi
    have := Memory.length_lt hm b
    omega
  simp only [Memory.cells, List.map_append, List.pairwise_append, List.mem_append]
  refine ⟨⟨⟨one _, one _, ?_⟩, one _, ?_⟩, one _, ?_⟩
  · intro a ha b hb
    have := range _ a ha; have := range _ b hb; simp only [bufId] at *; omega
  · rintro a (ha | ha) b hb <;> have := range _ a ha <;> have := range _ b hb <;> simp only [bufId] at * <;> omega
  · rintro a ((ha | ha) | ha) b hb <;> have := range _ a ha <;> have := range _ b hb <;> simp only [bufId] at * <;> omega

end Machine

end Sys2Proof
end

