-- ==== Sys2Proof/Laws/Analyzer.lean ====
section
/-! SUPPORT. What the counting pass of COUNT computes. -/

namespace Sys2Proof.Machine

theorem bump_get (wt : WeightTable) (b c : Byte) : (bump wt b).get c = if b = c then wt.get b + 1 else wt.get c := by
  rw [bump, ByteTable.get_set]

/-- One pass adds to each counter the number of occurrences of its byte value, modulo 2^32. -/
theorem foldl_bump_get (D : List Byte) (c : Byte) :
    ∀ wt : WeightTable, (D.foldl bump wt).get c = wt.get c + BitVec.ofNat 32 (D.count c) := by
  induction D with
  | nil => intro wt; simp
  | cons b D ih =>
    intro wt
    rw [List.foldl_cons, ih, bump_get, List.count_cons]
    by_cases h : b = c
    · subst h
      simp only [if_true, beq_self_eq_true]
      rw [BitVec.ofNat_add, BitVec.add_assoc, BitVec.add_comm (BitVec.ofNat 32 (D.count b))]
      rfl
    · simp [h]

theorem countTable_get (D : List Byte) (c : Byte) : (countTable D).get c = BitVec.ofNat 32 (D.count c) := by
  rw [countTable, foldl_bump_get, ByteTable.get_const]; simp

/-- A counter of COUNT is the number of occurrences, for an input that fits a buffer (R101, R102). -/
theorem countTable_toNat {D : List Byte} (h : D.length < 2 ^ 32) (c : Byte) : ((countTable D).get c).toNat = D.count c := by
  rw [countTable_get, BitVec.toNat_ofNat, Nat.mod_eq_of_lt (lt_of_le_of_lt List.count_le_length h)]

theorem WeightTable.total_eq (wt : WeightTable) : WeightTable.total wt = (allBytes.map fun b => (wt.get b).toNat).sum := by
  rw [WeightTable.total, ByteTable.entries_eq_map, List.map_map]; rfl

theorem sum_indicator (a : Byte) (l : List Byte) : (l.map fun b => if a = b then 1 else 0).sum = l.count a := by
  induction l with
  | nil => rfl
  | cons b l ih =>
    rw [List.map_cons, List.sum_cons, ih, List.count_cons]
    by_cases h : a = b
    · subst h; simp [Nat.add_comm]
    · have : ¬ b = a := fun e => h e.symm
      simp [h, this]

/-- The numbers of occurrences of the values of a list without repeats add up to the length of a list over them. -/
theorem sum_count {l : List Byte} (hl : l.Nodup) (D : List Byte) (hD : ∀ b ∈ D, b ∈ l) :
    (l.map fun b => D.count b).sum = D.length := by
  induction D with
  | nil => simp
  | cons a D ih =>
    have split : (l.map fun b => (a :: D).count b) = l.map fun b => D.count b + if a = b then 1 else 0 := by
      apply List.map_congr_left
      intro b _
      rw [List.count_cons]
      simp only [beq_iff_eq]
    rw [split, List.sum_map_add, ih fun b hb => hD b (List.mem_cons_of_mem _ hb), sum_indicator,
      List.count_eq_one_of_mem hl (hD a (List.mem_cons_self ..)), List.length_cons]

/-- The counters of COUNT add up to the number of bytes (R102). -/
theorem total_countTable {D : List Byte} (h : D.length < 2 ^ 32) : WeightTable.total (countTable D) = D.length := by
  rw [WeightTable.total_eq, ← sum_count allBytes_nodup D fun b _ => mem_allBytes b]
  congr 1
  exact List.map_congr_left fun b _ => countTable_toNat h b

end Sys2Proof.Machine
end

