-- ==== Sys2Proof/Laws/Tree.lean ====
section
/-! SUPPORT. Trees and the node stores that hold them. `Rep` says that the records below an index are a given tree; the
bounded readers `treeAt` and `indicesAt` find exactly the trees it describes. -/

namespace Sys2Proof.Machine

/-- The records reached from index i are the tree T, at the indices `is` in preorder. -/
inductive Rep (nodes : List Node) : Nat → CodeTree → List Nat → Prop where
  | leaf {i : Nat} {v : Byte} {w : Word} : nodes[i]? = some (.leaf v w) → Rep nodes i (.leaf v w) [i]
  | node {i : Nat} {w : Word} {l r : NodeIndex} {lt rt : CodeTree} {ls rs : List Nat} :
      nodes[i]? = some (.internal w l r) → Rep nodes l.toNat lt ls → Rep nodes r.toNat rt rs →
      Rep nodes i (.internal w lt rt) (i :: (ls ++ rs))

/-- The number of edges of the longest path from the root. -/
def CodeTree.height : CodeTree → Nat
  | .leaf _ _ => 0
  | .internal _ l r => 1 + max l.height r.height

/-- The tree with every weight 0, as a deserialized tree has them (R164). -/
def CodeTree.unweighted : CodeTree → CodeTree
  | .leaf v _ => .leaf v 0
  | .internal _ l r => .internal 0 l.unweighted r.unweighted

@[simp] theorem CodeTree.shape_unweighted (T : CodeTree) : T.unweighted.shape = T.shape := by
  induction T with
  | leaf v w => rfl
  | internal w l r hl hr => simp [unweighted, shape, hl, hr]

/-- A tree with L leaves has 2L - 1 nodes (R32). -/
theorem CodeTree.size_eq (T : CodeTree) : T.size + 1 = 2 * T.leafValues.length := by
  induction T with
  | leaf v w => rfl
  | internal w l r hl hr => simp only [size, leafValues, List.length_append]; omega

theorem CodeTree.leafValues_pos (T : CodeTree) : 1 ≤ T.leafValues.length := by
  induction T with
  | leaf v w => exact Nat.le_refl 1
  | internal w l r hl hr => simp only [leafValues, List.length_append]; omega

/-- A tree with L leaves serializes to 3L - 1 bytes (R87). -/
theorem CodeTree.ser_length (T : CodeTree) : T.ser.length + 1 = 3 * T.leafValues.length := by
  induction T with
  | leaf v w => rfl
  | internal w l r hl hr => simp only [ser, leafValues, List.length_cons, List.length_append]; omega

/-- The depth of a leaf is at most half the number of the other nodes (R32). -/
theorem CodeTree.height_le (T : CodeTree) : 2 * T.height + 1 ≤ T.size := by
  induction T with
  | leaf v w => exact Nat.le_refl 1
  | internal w l r hl hr => simp only [height, size]; omega

namespace Rep

variable {nodes : List Node} {i : Nat} {T : CodeTree} {is : List Nat}

theorem length_eq (h : Rep nodes i T is) : is.length = T.size := by
  induction h with
  | leaf _ => rfl
  | node _ _ _ hl hr => simp only [List.length_cons, List.length_append, CodeTree.size, hl, hr]; omega

theorem lt_of_mem (h : Rep nodes i T is) : ∀ j ∈ is, j < nodes.length := by
  induction h with
  | leaf hi =>
    intro j hj
    rw [List.mem_singleton] at hj
    subst hj
    exact (List.getElem?_eq_some_iff.1 hi).1
  | node hi _ _ hl hr =>
    intro j hj
    rcases List.mem_cons.1 hj with rfl | hj
    · exact (List.getElem?_eq_some_iff.1 hi).1
    · rcases List.mem_append.1 hj with hj | hj
      · exact hl j hj
      · exact hr j hj

/-- A tree is still there when records are appended. -/
theorem append (h : Rep nodes i T is) (more : List Node) : Rep (nodes ++ more) i T is := by
  induction h with
  | leaf hi => exact .leaf (by rw [List.getElem?_append_left (List.getElem?_eq_some_iff.1 hi).1]; exact hi)
  | node hi _ _ hl hr => exact .node (by rw [List.getElem?_append_left (List.getElem?_eq_some_iff.1 hi).1]; exact hi) hl hr

theorem treeAt_eq (h : Rep nodes i T is) : ∀ d, T.height < d → treeAt nodes d i = some T := by
  induction h with
  | leaf hi =>
    intro d hd
    cases d with
    | zero => omega
    | succ d => simp [treeAt, hi]
  | node hi _ _ hl hr =>
    intro d hd
    cases d with
    | zero => omega
    | succ d =>
      simp only [CodeTree.height] at hd
      simp [treeAt, hi, hl d (by omega), hr d (by omega)]

theorem indicesAt_eq (h : Rep nodes i T is) : ∀ d, T.height < d → indicesAt nodes d i = some is := by
  induction h with
  | leaf hi =>
    intro d hd
    cases d with
    | zero => omega
    | succ d => simp [indicesAt, hi]
  | node hi _ _ hl hr =>
    intro d hd
    cases d with
    | zero => omega
    | succ d =>
      simp only [CodeTree.height] at hd
      simp [indicesAt, hi, hl d (by omega), hr d (by omega)]

end Rep

theorem rep_of_indicesAt {nodes : List Node} :
    ∀ {d i : Nat} {is : List Nat}, indicesAt nodes d i = some is → ∃ T, Rep nodes i T is ∧ treeAt nodes d i = some T := by
  intro d
  induction d with
  | zero => intro i is h; simp [indicesAt] at h
  | succ d ih =>
    intro i is h
    rw [indicesAt] at h
    split at h
    · cases h
    · rename_i v w hi
      cases h
      exact ⟨_, .leaf hi, by simp [treeAt, hi]⟩
    · rename_i w l r hi
      split at h
      · rename_i ls rs hl hr
        cases h
        obtain ⟨lt, hlr, hlt⟩ := ih hl
        obtain ⟨rt, hrr, hrt⟩ := ih hr
        exact ⟨_, .node hi hlr hrr, by simp [treeAt, hi, hlt, hrt]⟩
      · cases h

theorem rep_of_treeAt {nodes : List Node} :
    ∀ {d i : Nat} {T : CodeTree}, treeAt nodes d i = some T → ∃ is, Rep nodes i T is := by
  intro d
  induction d with
  | zero => intro i is h; simp [treeAt] at h
  | succ d ih =>
    intro i T h
    rw [treeAt] at h
    split at h
    · cases h
    · rename_i v w hi
      cases h
      exact ⟨_, .leaf hi⟩
    · rename_i w l r hi
      split at h
      · rename_i lt rt hl hr
        cases h
        obtain ⟨ls, hlr⟩ := ih hl
        obtain ⟨rs, hrr⟩ := ih hr
        exact ⟨_, .node hi hlr hrr⟩
      · cases h

/-- The store of a represented tree whose indices are all its records, each once, is valid, and reading it gives that
tree. -/
theorem NodeStore.valid_of_rep {st : NodeStore} {T : CodeTree} {is : List Nat} (h : Rep st.nodes st.root.toNat T is)
    (nodup : is.Nodup) (all : is.length = st.nodes.length) (cap : st.nodes.length ≤ Config.nodeCap) :
    st.valid ∧ st.tree? = some T := by
  have hd : T.height < st.nodes.length := by
    have := T.height_le; have := h.length_eq; omega
  refine ⟨⟨cap, ?_⟩, h.treeAt_eq _ hd⟩
  rw [h.indicesAt_eq _ hd]
  exact ⟨nodup, all⟩

/-- A valid store holds a tree, with as many nodes as there are records (R32, R33). -/
theorem NodeStore.valid.tree {st : NodeStore} (h : st.valid) :
    ∃ T is, st.tree? = some T ∧ Rep st.nodes st.root.toNat T is ∧ is.Nodup ∧ is.length = st.nodes.length ∧
      T.size = st.nodes.length ∧ st.nodes.length ≤ Config.nodeCap := by
  obtain ⟨cap, hm⟩ := h
  split at hm
  · exact hm.elim
  · rename_i is his
    obtain ⟨T, hrep, ht⟩ := rep_of_indicesAt his
    exact ⟨T, is, ht, hrep, hm.1, hm.2, by rw [← hrep.length_eq, hm.2], cap⟩

/-- A valid tree has at most 256 leaves and codes of at most 255 bits (R32). -/
theorem NodeStore.valid.bounds {st : NodeStore} (h : st.valid) {T : CodeTree} (ht : st.tree? = some T) :
    T.leafValues.length ≤ 256 ∧ T.height ≤ Config.codeMax ∧ T.ser.length ≤ Config.tbufCapMin := by
  obtain ⟨T', is, ht', _, _, _, hsize, hcap⟩ := h.tree
  rw [ht] at ht'
  cases ht'
  have h1 := T.size_eq
  have h2 := T.height_le
  have h3 := T.ser_length
  simp only [Config.nodeCap] at hcap
  simp only [Config.codeMax, Config.tbufCapMin]
  omega

end Sys2Proof.Machine
end

