-- ==== Sys2Proof/Laws/Builder.lean ====
section
/-! SUPPORT. What BUILD makes: each round of the merge loop takes the two least live nodes, and at the end one tree over
all the leaves is left (41_tree_builder.md). -/

namespace Sys2Proof.Machine

/-! ### The least node -/

theorem lighter_iff (nodes : List Node) (i j : Nat) : lighter nodes i j = true ↔ before nodes i j := by
  simp [lighter, before]

theorem before_trans {nodes : List Node} {i j k : Nat} (h : before nodes i j) (h' : before nodes j k) : before nodes i k := by
  simp only [before] at *; omega

theorem before_total {nodes : List Node} {i j : Nat} (h : i ≠ j) (hn : ¬ before nodes i j) : before nodes j i := by
  simp only [before] at *; omega

theorem least_eq_none {nodes : List Node} {live : List Nat} : least nodes live = none ↔ live = [] := by
  cases live with
  | nil => simp [least]
  | cons i rest => cases h : least nodes rest <;> simp [least, h]

/-- The least node is in the set and comes before every other node of it (R113). -/
theorem least_spec {nodes : List Node} :
    ∀ {live : List Nat} {a : Nat}, least nodes live = some a → a ∈ live ∧ ∀ j ∈ live, j ≠ a → before nodes a j := by
  intro live
  induction live with
  | nil => intro a h; simp [least] at h
  | cons i rest ih =>
    intro a h
    rw [least] at h
    cases hr : least nodes rest with
    | none =>
      rw [hr] at h
      cases h
      rw [least_eq_none] at hr
      subst hr
      exact ⟨List.mem_cons_self .., fun j hj hne => absurd (List.mem_singleton.1 hj) hne⟩
    | some b =>
      obtain ⟨hb, hmin⟩ := ih hr
      rw [hr] at h
      simp only [Option.some.injEq] at h
      by_cases hl : lighter nodes i b = true
      · rw [if_pos hl] at h
        subst h
        rw [lighter_iff] at hl
        refine ⟨List.mem_cons_self .., fun j hj hne => ?_⟩
        rcases List.mem_cons.1 hj with rfl | hj
        · exact absurd rfl hne
        · by_cases hjb : j = b
          · subst hjb; exact hl
          · exact before_trans hl (hmin j hj hjb)
      · rw [if_neg hl] at h
        subst h
        rw [lighter_iff] at hl
        refine ⟨List.mem_cons_of_mem _ hb, fun j hj hne => ?_⟩
        rcases List.mem_cons.1 hj with rfl | hj
        · exact before_total hne hl
        · exact hmin j hj hne

/-! ### Forests -/

/-- A live node with the tree it stands for and the indices of that tree. -/
abbrev Part := Nat × CodeTree × List Nat

/-- The parts stand for trees in the store, and together they use every record once. -/
structure Forest (nodes : List Node) (ps : List Part) : Prop where
  rep : ∀ p ∈ ps, Rep nodes p.1 p.2.1 p.2.2
  cover : (ps.flatMap fun p => p.2.2).Perm (List.range nodes.length)

/-- The invariant of the merge loop: the live nodes are the roots of a forest, and they are the nodes no record has as a
child. -/
structure Merging (nodes : List Node) (live : List Nat) (ps : List Part) : Prop where
  forest : Forest nodes ps
  roots : (ps.map Prod.fst).Perm live
  nodup : live.Nodup
  live_iff : ∀ i, i ∈ live ↔ unmerged nodes nodes.length i

theorem weightAt_rep {nodes : List Node} {i : Nat} {T : CodeTree} {is : List Nat} (h : Rep nodes i T is) :
    weightAt nodes i = T.weight := by
  cases h with
  | leaf hi => simp [weightAt, hi, Node.weight, CodeTree.weight]
  | node hi _ _ => simp [weightAt, hi, Node.weight, CodeTree.weight]

theorem weightAt_append {nodes : List Node} {i : Nat} (h : i < nodes.length) (more : List Node) :
    weightAt (nodes ++ more) i = weightAt nodes i := by
  simp [weightAt, List.getElem?_append_left h]

theorem unmerged_append {nodes : List Node} {m i : Nat} (h : m ≤ nodes.length) (more : List Node) :
    unmerged (nodes ++ more) m i ↔ unmerged nodes m i := by
  simp only [unmerged]
  constructor
  · rintro ⟨hi, hk⟩
    refine ⟨hi, fun k hkm w l r hn => hk k hkm w l r ?_⟩
    rw [List.getElem?_append_left (by omega)]; exact hn
  · rintro ⟨hi, hk⟩
    refine ⟨hi, fun k hkm w l r hn => hk k hkm w l r ?_⟩
    rwa [List.getElem?_append_left (by omega)] at hn

/-- A merge of the two least stays one when records are appended. -/
theorem mergesTwoLeast_append {nodes : List Node} {m : Nat} (h : m < nodes.length) (hm : mergesTwoLeast nodes m)
    (more : List Node) : mergesTwoLeast (nodes ++ more) m := by
  obtain ⟨a, b, l, r, hn, hl, hr, ha, hb, hab, hmin, hmin2⟩ := hm
  have wa : ∀ i, unmerged nodes m i → weightAt (nodes ++ more) i = weightAt nodes i := fun i hi =>
    weightAt_append (lt_trans hi.1 h) more
  have un : ∀ i, unmerged (nodes ++ more) m i ↔ unmerged nodes m i := fun i => unmerged_append (Nat.le_of_lt h) more
  have bf : ∀ i j, unmerged nodes m i → unmerged nodes m j → before nodes i j → before (nodes ++ more) i j := by
    intro i j hi hj hij
    simpa only [before, wa i hi, wa j hj] using hij
  refine ⟨a, b, l, r, ?_, hl, hr, (un a).2 ha, (un b).2 hb, hab, ?_, ?_⟩
  · rw [List.getElem?_append_left h, hn, wa a ha, wa b hb]
  · intro i hi hne
    rw [un] at hi
    exact bf a i ha hi (hmin i hi hne)
  · intro i hi hne hne'
    rw [un] at hi
    exact bf b i hb hi (hmin2 i hi hne hne')

/-- One round of the merge loop keeps its invariant: the two least nodes become the children of the new record. -/
theorem Merging.round {nodes : List Node} {live : List Nat} {ps : List Part} (h : Merging nodes live ps) {a b : Nat}
    (ha : least nodes live = some a) (hb : least nodes (live.erase a) = some b) (room : nodes.length < Config.nodeCap) :
    ∃ ta ia tb ib rest, ps.Perm ((a, ta, ia) :: (b, tb, ib) :: rest) ∧
      Merging (nodes ++ [mergedNode nodes a b]) ((live.erase a).erase b ++ [nodes.length])
        (rest ++ [(nodes.length, .internal (ta.weight + tb.weight) ta tb, nodes.length :: (ia ++ ib))]) ∧
      mergesTwoLeast (nodes ++ [mergedNode nodes a b]) nodes.length := by
  obtain ⟨hal, hamin⟩ := least_spec ha
  obtain ⟨hbl', hbmin⟩ := least_spec hb
  have hne : b ≠ a := fun e => by
    rw [e] at hbl'
    exact h.nodup.not_mem_erase hbl'
  have hbl : b ∈ live := List.mem_of_mem_erase hbl'
  have hua := (h.live_iff a).1 hal
  have hub := (h.live_iff b).1 hbl
  have la : a < nodes.length := hua.1
  have lb : b < nodes.length := hub.1
  simp only [Config.nodeCap] at room
  have na : (BitVec.ofNat 9 a).toNat = a := by rw [BitVec.toNat_ofNat]; omega
  have nb : (BitVec.ofNat 9 b).toNat = b := by rw [BitVec.toNat_ofNat]; omega
  -- split the two parts off
  obtain ⟨⟨a', ta, ia⟩, hpa, hfa⟩ := List.mem_map.1 ((h.roots.mem_iff).2 hal)
  simp only at hfa
  subst hfa
  obtain ⟨P, Q, hPQ⟩ := List.append_of_mem hpa
  have hperm1 : ps.Perm ((a', ta, ia) :: (P ++ Q)) := by rw [hPQ]; exact List.perm_middle
  have hroots1 : ((P ++ Q).map Prod.fst).Perm (live.erase a') := by
    have h1 := (hperm1.map Prod.fst).symm.trans h.roots
    rw [List.map_cons] at h1
    exact List.Perm.cons_inv (h1.trans (List.perm_cons_erase hal))
  obtain ⟨⟨b', tb, ib⟩, hpb, hfb⟩ := List.mem_map.1 ((hroots1.mem_iff).2 hbl')
  simp only at hfb
  subst hfb
  obtain ⟨P', Q', hPQ'⟩ := List.append_of_mem hpb
  have hperm2 : (P ++ Q).Perm ((b', tb, ib) :: (P' ++ Q')) := by rw [hPQ']; exact List.perm_middle
  have hroots2 : ((P' ++ Q').map Prod.fst).Perm ((live.erase a').erase b') := by
    have h1 := (hperm2.map Prod.fst).symm.trans hroots1
    rw [List.map_cons] at h1
    exact List.Perm.cons_inv (h1.trans (List.perm_cons_erase hbl'))
  have hperm : ps.Perm ((a', ta, ia) :: (b', tb, ib) :: (P' ++ Q')) := hperm1.trans (hperm2.cons _)
  have hra : Rep nodes a' ta ia := h.forest.rep (a', ta, ia) (hperm.mem_iff.2 (by simp))
  have hrb : Rep nodes b' tb ib := h.forest.rep (b', tb, ib) (hperm.mem_iff.2 (by simp))
  have hrrest : ∀ p ∈ P' ++ Q', Rep nodes p.1 p.2.1 p.2.2 := fun p hp =>
    h.forest.rep _ (hperm.mem_iff.2 (List.mem_cons_of_mem _ (List.mem_cons_of_mem _ hp)))
  have hlast : (nodes ++ [mergedNode nodes a' b'])[nodes.length]? = some (mergedNode nodes a' b') := by simp
  refine ⟨ta, ia, tb, ib, P' ++ Q', hperm, ⟨⟨?_, ?_⟩, ?_, ?_, ?_⟩, ?_⟩
  · intro p hp
    rcases List.mem_append.1 hp with hp | hp
    · exact (hrrest p hp).append _
    · rw [List.mem_singleton] at hp
      subst hp
      have e : mergedNode nodes a' b' = .internal (ta.weight + tb.weight) (BitVec.ofNat 9 a') (BitVec.ofNat 9 b') := by
        rw [mergedNode, weightAt_rep hra, weightAt_rep hrb]
      exact .node (by rw [hlast, e]) (by rw [na]; exact hra.append _) (by rw [nb]; exact hrb.append _)
  · have hc := (List.Perm.flatMap_right (fun p : Part => p.2.2) hperm).symm.trans h.forest.cover
    simp only [List.flatMap_cons] at hc
    rw [List.flatMap_append, List.length_append, List.length_singleton, List.range_succ]
    simp only [List.flatMap_cons, List.flatMap_nil, List.append_nil]
    have h1 : ((P' ++ Q').flatMap (fun p => p.2.2) ++ nodes.length :: (ia ++ ib)).Perm
        (ia ++ (ib ++ (P' ++ Q').flatMap fun p => p.2.2) ++ [nodes.length]) := by
      rw [List.perm_iff_count]
      intro x
      simp only [List.count_append, List.count_cons, List.count_nil]
      omega
    exact h1.trans (hc.append_right _)
  · rw [List.map_append, List.map_cons, List.map_nil]
    exact hroots2.append_right _
  · rw [List.nodup_append]
    refine ⟨(h.nodup.erase a').erase b', List.nodup_singleton _, ?_⟩
    intro x hx y hy
    rw [List.mem_singleton] at hy
    subst hy
    have := ((h.live_iff x).1 (List.mem_of_mem_erase (List.mem_of_mem_erase hx))).1
    omega
  · intro i
    have hmem : i ∈ (live.erase a').erase b' ↔ i ≠ b' ∧ i ≠ a' ∧ i ∈ live := by
      rw [(h.nodup.erase a').mem_erase_iff, h.nodup.mem_erase_iff]
    rw [List.mem_append, hmem, List.mem_singleton, h.live_iff, List.length_append, List.length_singleton]
    constructor
    · rintro (⟨hib, hia, hi, hk⟩ | rfl)
      · refine ⟨by omega, fun k hk' w l r hn => ?_⟩
        by_cases hkn : k < nodes.length
        · rw [List.getElem?_append_left hkn] at hn
          exact hk k hkn w l r hn
        · have : k = nodes.length := by omega
          subst this
          rw [hlast, mergedNode, Option.some.injEq, Node.internal.injEq] at hn
          obtain ⟨_, rfl, rfl⟩ := hn
          rw [na, nb]
          exact ⟨fun e => hia e.symm, fun e => hib e.symm⟩
      · refine ⟨by omega, fun k hk' w l r hn => ?_⟩
        by_cases hkn : k < nodes.length
        · rw [List.getElem?_append_left hkn] at hn
          -- children of earlier records are earlier records
          have hall : k ∈ ps.flatMap fun p => p.2.2 := h.forest.cover.mem_iff.2 (List.mem_range.2 hkn)
          obtain ⟨p, hp, hkp⟩ := List.mem_flatMap.1 hall
          have key : ∀ {j : Nat} {T : CodeTree} {is : List Nat}, Rep nodes j T is → k ∈ is →
              l.toNat < nodes.length ∧ r.toNat < nodes.length := by
            intro j T is hrep
            induction hrep with
            | @leaf i v w hi =>
              intro hki
              rw [List.mem_singleton] at hki
              subst hki
              rw [hn] at hi
              cases hi
            | @node i w l' r' lt rt ls rs hi hl hr ihl ihr =>
              intro hki
              rcases List.mem_cons.1 hki with rfl | hki
              · rw [hn] at hi
                cases hi
                constructor
                · cases hl with
                  | leaf hx => exact (List.getElem?_eq_some_iff.1 hx).1
                  | node hx _ _ => exact (List.getElem?_eq_some_iff.1 hx).1
                · cases hr with
                  | leaf hx => exact (List.getElem?_eq_some_iff.1 hx).1
                  | node hx _ _ => exact (List.getElem?_eq_some_iff.1 hx).1
              · rcases List.mem_append.1 hki with hki | hki
                · exact ihl hki
                · exact ihr hki
          have := key (h.forest.rep p hp) hkp
          omega
        · have : k = nodes.length := by omega
          subst this
          rw [hlast, mergedNode, Option.some.injEq, Node.internal.injEq] at hn
          obtain ⟨_, rfl, rfl⟩ := hn
          rw [na, nb]
          omega
    · rintro ⟨hi, hk⟩
      by_cases hin : i < nodes.length
      · left
        have hchild := hk nodes.length (by omega) _ _ _ hlast
        rw [na, nb] at hchild
        refine ⟨fun e => hchild.2 e.symm, fun e => hchild.1 e.symm, hin, fun k hk' w l r hn => ?_⟩
        exact hk k (by omega) w l r (by rw [List.getElem?_append_left hk']; exact hn)
      · right; omega
  · have un : ∀ i, unmerged (nodes ++ [mergedNode nodes a' b']) nodes.length i ↔ i ∈ live := fun i => by
      rw [unmerged_append (Nat.le_refl _), h.live_iff]
    have wt : ∀ i ∈ live, weightAt (nodes ++ [mergedNode nodes a' b']) i = weightAt nodes i := fun i hi =>
      weightAt_append ((h.live_iff i).1 hi).1 _
    refine ⟨a', b', BitVec.ofNat 9 a', BitVec.ofNat 9 b', ?_, na, nb, (un _).2 hal, (un _).2 hbl, fun e => hne e.symm, ?_, ?_⟩
    · rw [hlast, wt _ hal, wt _ hbl]; rfl
    · intro i hi hia
      rw [un] at hi
      have := hamin i hi hia
      simpa only [before, wt _ hal, wt _ hi] using this
    · intro i hi hia hib
      rw [un] at hi
      have := hbmin i ((h.nodup.mem_erase_iff).2 ⟨hia, hi⟩) hib
      simpa only [before, wt _ hbl, wt _ hi] using this

/-- What the merge loop leaves of a forest of k + 1 trees: one tree over the same leaves, with k more records, each of them
a merge of the two least (R112 to R115). -/
structure Merged (nodes : List Node) (live : List Nat) (ps : List Part) (k : Nat) (nodes' : List Node) (root : Nat) (T : CodeTree)
    (is : List Nat) : Prop where
  length : nodes'.length = nodes.length + k
  kept : nodes <+: nodes'
  rep : Rep nodes' root T is
  cover : is.Perm (List.range nodes'.length)
  leaves : T.leafValues.Perm (ps.flatMap fun p => p.2.1.leafValues)
  weight : T.weight = (ps.map fun p => p.2.1.weight).sum
  root_live : k = 0 → root ∈ live
  root_last : 0 < k → root = nodes'.length - 1
  greedy : ∀ m, nodes.length ≤ m → m < nodes'.length → mergesTwoLeast nodes' m

theorem mergeLoop_spec :
    ∀ (k rounds : Nat) (nodes : List Node) (live : List Nat) (ps : List Part), Merging nodes live ps →
      live.length = k + 1 → k ≤ rounds → nodes.length + k ≤ Config.nodeCap →
      ∃ root T is, Merged nodes live ps k (mergeLoop rounds nodes live) root T is := by
  intro k
  induction k with
  | zero =>
    intro rounds nodes live ps h hlen _ _
    obtain ⟨x, rfl⟩ := List.length_eq_one_iff.1 hlen
    have hstop : mergeLoop rounds nodes [x] = nodes := by
      cases rounds with
      | zero => rfl
      | succ n => simp [mergeLoop, least]
    have hps : ps.length = 1 := by
      have := h.roots.length_eq
      simpa using this
    obtain ⟨⟨i, T, is⟩, rfl⟩ := List.length_eq_one_iff.1 hps
    refine ⟨i, T, is, ?_⟩
    rw [hstop]
    refine ⟨rfl, List.prefix_refl _, h.forest.rep _ (List.mem_singleton.2 rfl), ?_, ?_, ?_, ?_, fun hk => absurd hk (Nat.lt_irrefl _),
      fun m h1 h2 => by omega⟩
    · simpa using h.forest.cover
    · simp
    · simp
    · intro _; exact h.roots.mem_iff.1 (List.mem_singleton.2 rfl)
  | succ k ih =>
    intro rounds nodes live ps h hlen hr hcap
    cases rounds with
    | zero => omega
    | succ rounds =>
      cases ha : least nodes live with
      | none =>
        rw [least_eq_none] at ha
        subst ha
        simp at hlen
      | some a =>
        have hal := (least_spec ha).1
        have hlen1 : (live.erase a).length = k + 1 := by rw [List.length_erase_of_mem hal, hlen]; rfl
        cases hb : least nodes (live.erase a) with
        | none =>
          rw [least_eq_none] at hb
          rw [hb] at hlen1
          simp at hlen1
        | some b =>
          have hbl := (least_spec hb).1
          obtain ⟨ta, ia, tb, ib, rest, hperm, hm, hg⟩ := h.round ha hb (by omega)
          have hlen2 : ((live.erase a).erase b ++ [nodes.length]).length = k + 1 := by
            rw [List.length_append, List.length_erase_of_mem hbl, hlen1]; rfl
          obtain ⟨root, T, is, hM⟩ := ih rounds _ _ _ hm hlen2 (by omega) (by rw [List.length_append]; simp; omega)
          refine ⟨root, T, is, ?_⟩
          have hstep : mergeLoop (rounds + 1) nodes live
              = mergeLoop rounds (nodes ++ [mergedNode nodes a b]) ((live.erase a).erase b ++ [nodes.length]) := by
            rw [mergeLoop, ha]; simp only [hb]
          rw [hstep]
          have hlenM := hM.length
          rw [List.length_append, List.length_singleton] at hlenM
          refine ⟨by omega, List.IsPrefix.trans (List.prefix_append _ _) hM.kept, hM.rep, hM.cover, ?_, ?_, fun h0 => absurd h0 (Nat.succ_ne_zero k), ?_, ?_⟩
          · refine hM.leaves.trans ?_
            refine List.Perm.trans ?_ (List.Perm.flatMap_right (fun p : Part => p.2.1.leafValues) hperm).symm
            simp only [List.flatMap_append, List.flatMap_cons, List.flatMap_nil, List.append_nil, CodeTree.leafValues]
            rw [← List.append_assoc ta.leafValues]
            exact List.perm_append_comm
          · rw [hM.weight, (hperm.map fun p : Part => p.2.1.weight).sum_eq]
            simp only [List.map_append, List.map_cons, List.map_nil, List.sum_append, List.sum_cons, List.sum_nil,
              CodeTree.weight]
            ring
          · intro _
            by_cases hk : 0 < k
            · exact hM.root_last hk
            · have hk0 : k = 0 := by omega
              subst hk0
              -- after the last round the new record is the only live node
              obtain ⟨x, hx⟩ := List.length_eq_one_iff.1 hlen2
              have hxn : x = nodes.length := by
                have : nodes.length ∈ [x] := by rw [← hx]; simp
                exact (List.mem_singleton.1 this).symm
              have hroot := hM.root_live rfl
              rw [hx, List.mem_singleton] at hroot
              omega
          · intro m h1 h2
            by_cases hmn : m = nodes.length
            · subst hmn
              obtain ⟨t, ht⟩ := hM.kept
              rw [← ht]
              exact mergesTwoLeast_append (by simp) hg t
            · exact hM.greedy m (by rw [List.length_append, List.length_singleton]; omega) h2

/-! ### The leaves BUILD starts from -/

theorem mem_presentSyms {wt : WeightTable} {b : Byte} : b ∈ presentSyms wt ↔ wt.get b ≠ 0 := by
  simp [presentSyms, mem_allBytes]

theorem presentSyms_sorted (wt : WeightTable) : (presentSyms wt).Pairwise fun a b => a.toNat < b.toNat :=
  allBytes_sorted.filter _

theorem presentSyms_nodup (wt : WeightTable) : (presentSyms wt).Nodup := allBytes_nodup.filter _

theorem presentSyms_length (wt : WeightTable) : (presentSyms wt).length ≤ 256 := by
  rw [← allBytes_length]; exact List.length_filter_le _ _

@[simp] theorem leafNodes_length (wt : WeightTable) : (leafNodes wt).length = (presentSyms wt).length := by simp [leafNodes]

theorem leafNodes_getElem? (wt : WeightTable) (i : Nat) :
    (leafNodes wt)[i]? = (presentSyms wt)[i]?.map fun s => .leaf s (wt.get s) := by
  simp [leafNodes]

/-- The parts BUILD starts from: each leaf alone. -/
def leafParts (wt : WeightTable) (syms : List Byte) (start : Nat) : List Part :=
  match syms with
  | [] => []
  | s :: rest => (start, .leaf s (wt.get s), [start]) :: leafParts wt rest (start + 1)

theorem leafParts_roots (wt : WeightTable) (syms : List Byte) (n : Nat) :
    (leafParts wt syms n).map Prod.fst = List.range' n syms.length := by
  induction syms generalizing n with
  | nil => rfl
  | cons s rest ih => simp [leafParts, ih, List.range'_succ]

theorem leafParts_indices (wt : WeightTable) (syms : List Byte) (n : Nat) :
    ((leafParts wt syms n).flatMap fun p => p.2.2) = List.range' n syms.length := by
  induction syms generalizing n with
  | nil => rfl
  | cons s rest ih => simp [leafParts, ih, List.range'_succ]

theorem leafParts_leaves (wt : WeightTable) (syms : List Byte) (n : Nat) :
    ((leafParts wt syms n).flatMap fun p => p.2.1.leafValues) = syms := by
  induction syms generalizing n with
  | nil => rfl
  | cons s rest ih => simp [leafParts, ih, CodeTree.leafValues]

theorem leafParts_weights (wt : WeightTable) (syms : List Byte) (n : Nat) :
    ((leafParts wt syms n).map fun p => p.2.1.weight) = syms.map wt.get := by
  induction syms generalizing n with
  | nil => rfl
  | cons s rest ih => rw [leafParts, List.map_cons, ih, List.map_cons]; rfl

theorem leafParts_rep (wt : WeightTable) (syms : List Byte) (n : Nat) (nodes : List Node)
    (h : ∀ i, i < syms.length → nodes[n + i]? = (syms[i]?).map fun s => .leaf s (wt.get s)) :
    ∀ p ∈ leafParts wt syms n, Rep nodes p.1 p.2.1 p.2.2 := by
  induction syms generalizing n with
  | nil => intro p hp; cases hp
  | cons s rest ih =>
    intro p hp
    rcases List.mem_cons.1 hp with rfl | hp
    · exact .leaf (by simpa using h 0 (by simp))
    · refine ih (n + 1) (fun i hi => ?_) p hp
      have := h (i + 1) (by simp; omega)
      rw [show n + 1 + i = n + (i + 1) by omega, this, List.getElem?_cons_succ]

theorem leafNodes_merging (wt : WeightTable) :
    Merging (leafNodes wt) (List.range (leafNodes wt).length) (leafParts wt (presentSyms wt) 0) := by
  refine ⟨⟨leafParts_rep wt _ 0 _ (fun i _ => ?_), ?_⟩, ?_, List.nodup_range, fun i => ?_⟩
  · rw [Nat.zero_add, leafNodes_getElem?]
  · rw [leafParts_indices, leafNodes_length, List.range_eq_range']
  · rw [leafParts_roots, leafNodes_length, List.range_eq_range']
  · rw [List.mem_range, unmerged]
    refine ⟨fun hi => ⟨hi, fun k _ w l r hn => ?_⟩, fun h => h.1⟩
    rw [leafNodes_getElem?, Option.map_eq_some_iff] at hn
    obtain ⟨s, _, hs⟩ := hn
    cases hs

/-! ### The store BUILD makes -/

/-- With two byte values or more, BUILD merges the leaves into one tree (R112 to R115). -/
theorem buildNodes_merged {wt : WeightTable} (h : 2 ≤ (presentSyms wt).length) :
    ∃ root T is, Merged (leafNodes wt) (List.range (leafNodes wt).length) (leafParts wt (presentSyms wt) 0)
      ((presentSyms wt).length - 1) (buildNodes wt) root T is := by
  have hb : buildNodes wt = mergeLoop (leafNodes wt).length (leafNodes wt) (List.range (leafNodes wt).length) := by
    rw [buildNodes]
    split
    · rename_i hs; rw [hs] at h; simp at h
    · rename_i s hs; rw [hs] at h; simp at h
    · rfl
  rw [hb]
  have hlen := presentSyms_length wt
  exact mergeLoop_spec _ _ _ _ _ (leafNodes_merging wt) (by rw [List.length_range, leafNodes_length]; omega)
    (by rw [leafNodes_length]; omega) (by rw [leafNodes_length]; simp only [Config.nodeCap]; omega)

theorem buildNodes_single {wt : WeightTable} {s : Byte} (h : presentSyms wt = [s]) :
    buildNodes wt = [.leaf s (wt.get s), .leaf (s + 1) 0, .internal (wt.get s) 0 1] := by
  rw [buildNodes, h]

theorem presentSyms_cases (wt : WeightTable) :
    presentSyms wt = [] ∨ (∃ s, presentSyms wt = [s]) ∨ 2 ≤ (presentSyms wt).length := by
  rcases hs : presentSyms wt with _ | ⟨s, _ | ⟨t, rest⟩⟩
  · exact .inl rfl
  · exact .inr (.inl ⟨s, rfl⟩)
  · exact .inr (.inr (by simp))

theorem buildStore_single {wt : WeightTable} {s : Byte} (h : presentSyms wt = [s]) :
    (buildStore wt).valid ∧
      (buildStore wt).tree? = some (.internal (wt.get s) (.leaf s (wt.get s)) (.leaf (s + 1) 0)) := by
  have hn := buildNodes_single h
  have hst : buildStore wt = ⟨[.leaf s (wt.get s), .leaf (s + 1) 0, .internal (wt.get s) 0 1], 2⟩ := by
    rw [buildStore, hn]; rfl
  rw [hst]
  have hrep : Rep [Node.leaf s (wt.get s), .leaf (s + 1) 0, .internal (wt.get s) 0 1] 2
      (.internal (wt.get s) (.leaf s (wt.get s)) (.leaf (s + 1) 0)) (2 :: ([0] ++ [1])) :=
    .node (l := 0) (r := 1) rfl (.leaf rfl) (.leaf rfl)
  exact NodeStore.valid_of_rep (st := ⟨_, 2⟩) hrep (by decide) rfl (by simp [Config.nodeCap])

/-- With two byte values or more: the store is valid and its tree has exactly the present byte values as leaves (R115,
R117). -/
theorem buildStore_merged {wt : WeightTable} (h : 2 ≤ (presentSyms wt).length) :
    ∃ T is, Merged (leafNodes wt) (List.range (leafNodes wt).length) (leafParts wt (presentSyms wt) 0)
        ((presentSyms wt).length - 1) (buildNodes wt) (2 * (presentSyms wt).length - 2) T is ∧
      (buildNodes wt).length = 2 * (presentSyms wt).length - 1 ∧
      (buildStore wt).root.toNat = 2 * (presentSyms wt).length - 2 ∧ (buildStore wt).valid ∧
      (buildStore wt).tree? = some T ∧ T.leafValues.Perm (presentSyms wt) ∧
      T.weight = ((presentSyms wt).map wt.get).sum := by
  obtain ⟨root, T, is, hM⟩ := buildNodes_merged h
  have hlen := hM.length
  rw [leafNodes_length] at hlen
  have hle := presentSyms_length wt
  have hroot : root = 2 * (presentSyms wt).length - 2 := by
    rw [hM.root_last (by omega), hlen]; omega
  have hst : (buildStore wt).root.toNat = root := by
    rw [buildStore]
    simp only [BitVec.toNat_ofNat]
    omega
  have hval := NodeStore.valid_of_rep (st := buildStore wt) (T := T) (is := is) (by rw [hst]; exact hM.rep)
    (hM.cover.nodup_iff.2 List.nodup_range) (by rw [hM.cover.length_eq, List.length_range]; rfl)
    (by show (buildNodes wt).length ≤ _; simp only [Config.nodeCap]; omega)
  subst hroot
  refine ⟨T, is, hM, by omega, hst, hval.1, hval.2, ?_, ?_⟩
  · rw [← leafParts_leaves wt (presentSyms wt) 0]; exact hM.leaves
  · rw [hM.weight, leafParts_weights]

/-- BUILD of a table that is not empty makes a valid store (R117). -/
theorem buildStore_valid {wt : WeightTable} (h : presentSyms wt ≠ []) : (buildStore wt).valid := by
  rcases presentSyms_cases wt with h0 | ⟨s, hs⟩ | h2
  · exact absurd h0 h
  · exact (buildStore_single hs).1
  · obtain ⟨_, _, _, _, _, hv, _⟩ := buildStore_merged h2
    exact hv

theorem byte_ne_succ : ∀ s : Byte, ¬ s = s + 1 := by decide

/-- The tree BUILD makes: two leaves or more with distinct byte values, among them every present one (R117). -/
theorem buildStore_tree {wt : WeightTable} (h : presentSyms wt ≠ []) :
    ∃ T, (buildStore wt).tree? = some T ∧ T.leafValues.Nodup ∧ 2 ≤ T.leafValues.length ∧
      ∀ b, wt.get b ≠ 0 → b ∈ T.leafValues := by
  rcases presentSyms_cases wt with h0 | ⟨s, hs⟩ | h2
  · exact absurd h0 h
  · refine ⟨_, (buildStore_single hs).2, ?_, by simp [CodeTree.leafValues], ?_⟩
    · simp only [CodeTree.leafValues, List.singleton_append, List.nodup_cons, List.mem_singleton, List.not_mem_nil,
        not_false_eq_true, List.nodup_nil, and_true]
      exact byte_ne_succ s
    · intro b hb
      rw [← mem_presentSyms, hs, List.mem_singleton] at hb
      simp [CodeTree.leafValues, hb]
  · obtain ⟨T, _, _, _, _, _, ht, hp, _⟩ := buildStore_merged h2
    refine ⟨T, ht, hp.nodup_iff.2 (presentSyms_nodup wt), by rw [hp.length_eq]; exact h2, fun b hb => ?_⟩
    rw [hp.mem_iff, mem_presentSyms]; exact hb

/-- Every byte that was counted is present. -/
theorem present_of_mem {D : List Byte} (h : D.length < 2 ^ 32) {b : Byte} (hb : b ∈ D) : (countTable D).get b ≠ 0 := by
  intro h0
  have h1 := countTable_toNat h b
  rw [h0] at h1
  have := List.count_pos_iff.2 hb
  simp at h1
  omega

end Sys2Proof.Machine
end

