-- ==== Sys2Proof/Laws/TreeCodec.lean ====
section
/-! SUPPORT. What reading a serialized tree does: the records it allocates for one subtree, that it reads back what SER
writes, that it accepts nothing else, and that it agrees with the recursion of 44_tree_codec.md rule R163. -/

namespace Sys2Proof.Machine

/-- The records a deserialization allocates for a tree whose root gets index n: preorder, weights 0 (R164). -/
def preorderNodes : Nat → CodeTree → List Node
  | _, .leaf v _ => [.leaf v 0]
  | n, .internal _ l r =>
    .internal 0 (BitVec.ofNat 9 (n + 1)) (BitVec.ofNat 9 (n + 1 + l.size)) ::
      (preorderNodes (n + 1) l ++ preorderNodes (n + 1 + l.size) r)

@[simp] theorem preorderNodes_length (n : Nat) (T : CodeTree) : (preorderNodes n T).length = T.size := by
  induction T generalizing n with
  | leaf v w => rfl
  | internal w l r hl hr => simp only [preorderNodes, List.length_cons, List.length_append, hl, hr, CodeTree.size]; omega

/-- The reading after one subtree has been read at the slot that was due: `more` are the slots due after it. -/
def TreeReading.afterTree (r : TreeReading) (slot : Slot) (more : List Slot) (T : CodeTree) : TreeReading where
  cur := r.cur + T.ser.length
  nodes := slot.fill r.nodes.length r.nodes ++ preorderNodes r.nodes.length T
  todo := more

@[simp] theorem Slot.fill_length (i : Nat) (nodes : List Node) (slot : Slot) : (slot.fill i nodes).length = nodes.length := by
  cases slot <;> simp [Slot.fill]

theorem modify_at_length {α : Type} (f : α → α) (A B : List α) (x : α) :
    (A ++ x :: B).modify A.length f = A ++ f x :: B := by
  induction A with
  | nil => rfl
  | cons a A ih => simp [ih]

theorem fill_left_at (A B : List Node) (n i : Nat) (x : Node) (h : A.length = n) :
    (Slot.left n).fill i (A ++ x :: B) = A ++ x.withLeft i :: B := by
  subst h
  exact modify_at_length _ A B x

theorem fill_right_at (A B : List Node) (n i : Nat) (x : Node) (h : A.length = n) :
    (Slot.right n).fill i (A ++ x :: B) = A ++ x.withRight i :: B := by
  subst h
  exact modify_at_length _ A B x

/-- The reading after an internal marker and the two subtrees that follow it. -/
theorem TreeReading.afterTree_internal (r : TreeReading) (slot : Slot) (more : List Slot) (w : Word) (L R : CodeTree) :
    ((({ cur := r.cur + 1, nodes := slot.fill r.nodes.length r.nodes ++ [.internal 0 0 0],
         todo := .left r.nodes.length :: .right r.nodes.length :: more } : TreeReading).afterTree
        (.left r.nodes.length) (.right r.nodes.length :: more) L).afterTree (.right r.nodes.length) more R)
      = r.afterTree slot more (.internal w L R) := by
  have hlen : (slot.fill r.nodes.length r.nodes).length = r.nodes.length := Slot.fill_length ..
  simp only [afterTree, CodeTree.ser, preorderNodes, List.length_append, List.length_cons, List.length_nil, hlen,
    fill_left_at _ [] _ _ _ hlen, preorderNodes_length, TreeReading.mk.injEq, and_true, Nat.zero_add]
  refine ⟨by omega, ?_⟩
  rw [List.append_assoc, List.cons_append, fill_right_at _ _ _ _ _ hlen]
  simp [Node.withLeft, Node.withRight]

/-- A record is accepted when a node is due and the store has room. -/
theorem TreeReading.alloc_ok {r : TreeReading} {slot : Slot} {more : List Slot} (hr : r.todo = slot :: more)
    (room : r.nodes.length < Config.nodeCap) (size : Nat) (node : Node) (due : List Slot) :
    r.alloc size node due
      = .ok { cur := r.cur + size, nodes := slot.fill r.nodes.length r.nodes ++ [node], todo := due ++ more } := by
  rw [alloc, hr]
  simp only [if_neg (Nat.ne_of_lt room)]

theorem TreeReading.alloc_full {r : TreeReading} {slot : Slot} {more : List Slot} (hr : r.todo = slot :: more)
    (full : r.nodes.length = Config.nodeCap) (size : Nat) (node : Node) (due : List Slot) :
    r.alloc size node due = .error (capacityError 5) := by
  rw [alloc, hr]
  simp only [if_pos full]

/-- `readRecords` one record at a time. -/
theorem readRecords_done (X : List Byte) {r : TreeReading} (h : r.todo = []) : readRecords X r = .ok r := by
  cases X with
  | nil => rw [readRecords, if_pos h]
  | cons b X => rw [readRecords.eq_def]; simp only [if_pos h]

theorem readRecords_internal (X : List Byte) {r : TreeReading} (h : r.todo ≠ []) :
    readRecords (0x00 :: X) r =
      match r.internal with
      | .error e => .error e
      | .ok r' => readRecords X r' := by
  rw [readRecords.eq_def]
  exact (if_neg h).trans (if_pos rfl)

theorem readRecords_leaf (v : Byte) (X : List Byte) {r : TreeReading} (h : r.todo ≠ []) :
    readRecords (0x01 :: v :: X) r =
      match r.leaf v with
      | .error e => .error e
      | .ok r' => readRecords X r' := by
  rw [readRecords.eq_def]; simp only [if_neg h, if_true]
  rfl

/-- The loop of DESER decodes each record with the decoder of the opcode table and runs it. -/
theorem readRecords_decode (X : List Byte) {r : TreeReading} (h : r.todo ≠ []) :
    readRecords X r =
      match decodeRecord X with
      | .error .truncatedRecord => .error (malformedTreeError 2 (r.cur + X.length))
      | .error _ => .error (malformedTreeError 1 r.cur)
      | .ok (.tagLeaf v, size) =>
        match r.leaf v with
        | .error e => .error e
        | .ok r' => readRecords (X.drop size) r'
      | .ok (_, size) =>
        match r.internal with
        | .error e => .error e
        | .ok r' => readRecords (X.drop size) r' := by
  rcases X with _ | ⟨tag, rest⟩
  · simp [readRecords, h, decodeRecord]
  · by_cases h0 : tag = 0x00
    · subst h0; rw [readRecords_internal rest h]; rfl
    · by_cases h1 : tag = 0x01
      · subst h1
        rcases rest with _ | ⟨v, rest⟩
        · rw [readRecords.eq_def]; simp only [if_neg h, if_true]; rfl
        · rw [readRecords_leaf v rest h]; rfl
      · rw [readRecords.eq_def]; simp only [if_neg h, if_neg h0, if_neg h1, decodeRecord]

/-- Reading the serialized form of a tree that fits the store gives its records (R166). -/
theorem readRecords_ser (T : CodeTree) :
    ∀ (r : TreeReading) (slot : Slot) (more : List Slot) (Y : List Byte), r.todo = slot :: more →
      r.nodes.length + T.size ≤ Config.nodeCap → readRecords (T.ser ++ Y) r = readRecords Y (r.afterTree slot more T) := by
  induction T with
  | leaf v w =>
    intro r slot more Y hr room
    simp only [CodeTree.size] at room
    rw [CodeTree.ser, List.cons_append, List.cons_append, List.nil_append,
      readRecords_leaf v Y (by rw [hr]; exact List.cons_ne_nil _ _), TreeReading.leaf, TreeReading.alloc_ok hr (by omega)]
    rfl
  | internal w L R hL hR =>
    intro r slot more Y hr room
    simp only [CodeTree.size] at room
    rw [CodeTree.ser, List.cons_append, readRecords_internal _ (by rw [hr]; exact List.cons_ne_nil _ _),
      TreeReading.internal, TreeReading.alloc_ok hr (by omega)]
    simp only [List.append_assoc, List.cons_append, List.nil_append]
    rw [hL _ (.left r.nodes.length) (.right r.nodes.length :: more) _ rfl (by simp; omega),
      hR _ (.right r.nodes.length) more _ rfl (by simp [TreeReading.afterTree]; omega),
      TreeReading.afterTree_internal r slot more w L R]

/-- DESER of a serialized tree, whatever follows it (R165, R166). -/
theorem readTree_ser (T : CodeTree) (Y : List Byte) (room : T.size ≤ Config.nodeCap) :
    readTree (T.ser ++ Y) = .ok { cur := T.ser.length, nodes := preorderNodes 0 T, todo := [] } := by
  rw [readTree, readRecords_ser T TreeReading.start .root [] Y rfl (by simpa [TreeReading.start] using room),
    readRecords_done _ rfl]
  simp [TreeReading.afterTree, TreeReading.start, Slot.fill]

/-- The records of a tree represent it, wherever they stand in a store of at most 511 records (R164). -/
theorem rep_preorderNodes (T : CodeTree) :
    ∀ (A B : List Node), A.length + T.size ≤ Config.nodeCap →
      Rep (A ++ preorderNodes A.length T ++ B) A.length T.unweighted (List.range' A.length T.size) := by
  induction T with
  | leaf v w =>
    intro A B _
    exact .leaf (by simp [preorderNodes])
  | internal w L R hL hR =>
    intro A B room
    simp only [CodeTree.size, Config.nodeCap] at room
    have nl : (BitVec.ofNat 9 (A.length + 1)).toNat = A.length + 1 := by rw [BitVec.toNat_ofNat]; omega
    have nr : (BitVec.ofNat 9 (A.length + 1 + L.size)).toNat = A.length + 1 + L.size := by rw [BitVec.toNat_ofNat]; omega
    have hrange : List.range' A.length (1 + L.size + R.size)
        = A.length :: (List.range' (A.length + 1) L.size ++ List.range' (A.length + 1 + L.size) R.size) := by
      rw [show 1 + L.size + R.size = (L.size + R.size) + 1 by omega, List.range'_succ, ← List.range'_append_1]
    have e1 := hL (A ++ [.internal 0 (BitVec.ofNat 9 (A.length + 1)) (BitVec.ofNat 9 (A.length + 1 + L.size))])
      (preorderNodes (A.length + 1 + L.size) R ++ B) (by simp [Config.nodeCap]; omega)
    have e2 := hR (A ++ .internal 0 (BitVec.ofNat 9 (A.length + 1)) (BitVec.ofNat 9 (A.length + 1 + L.size)) ::
      preorderNodes (A.length + 1) L) B (by simp [Config.nodeCap]; omega)
    have len2 : (A ++ .internal 0 (BitVec.ofNat 9 (A.length + 1)) (BitVec.ofNat 9 (A.length + 1 + L.size)) ::
      preorderNodes (A.length + 1) L).length = A.length + 1 + L.size := by simp; omega
    rw [len2] at e2
    simp only [List.length_append, List.length_cons, List.length_nil, Nat.zero_add, List.append_assoc, List.cons_append,
      List.nil_append] at e1 e2
    rw [CodeTree.size, hrange, CodeTree.unweighted, preorderNodes]
    simp only [List.append_assoc, List.cons_append]
    exact .node (l := BitVec.ofNat 9 (A.length + 1)) (r := BitVec.ofNat 9 (A.length + 1 + L.size)) (by simp)
      (by rw [nl]; exact e1) (by rw [nr]; exact e2)

/-- The store DESER makes from a serialized tree is valid and holds that tree without its weights (R164, R166). -/
theorem preorder_store_valid (T : CodeTree) (room : T.size ≤ Config.nodeCap) :
    NodeStore.valid { nodes := preorderNodes 0 T, root := 0 } ∧
      NodeStore.tree? { nodes := preorderNodes 0 T, root := 0 } = some T.unweighted := by
  have h := rep_preorderNodes T [] [] (by simpa using room)
  simp only [List.nil_append, List.append_nil, List.length_nil] at h
  exact NodeStore.valid_of_rep (st := { nodes := preorderNodes 0 T, root := 0 }) h List.nodup_range' (by simp) (by simpa using room)

/-! ### The recursion of R163 -/

theorem set_at_length {α : Type} (a : α) (A B : List α) (x : α) : (A ++ x :: B).set A.length a = A ++ a :: B := by
  simp

/-- What one call of `parse_node` does: an error is the error of the record loop at the same place; otherwise a subtree has
been read, and its records appended in preorder. -/
theorem parseNode_spec (Z : List Byte) :
    ∀ (d c : Nat) (ns : List Node), ns.length ≤ Config.nodeCap → Config.nodeCap + 1 ≤ d + ns.length → c ≤ Z.length →
      (∀ e, parseNode Z d c ns = .error e → ∀ (N : List Node) (slot : Slot) (more : List Slot), N.length = ns.length →
        readRecords (Z.drop c) { cur := c, nodes := N, todo := slot :: more } = .error e) ∧
      (∀ i c' ns', parseNode Z d c ns = .ok (i, c', ns') → i = ns.length ∧ ∃ T : CodeTree, T.unweighted = T ∧
        Z.drop c = T.ser ++ Z.drop c' ∧ c' = c + T.ser.length ∧ c' ≤ Z.length ∧ ns' = ns ++ preorderNodes ns.length T ∧
        ns.length + T.size ≤ Config.nodeCap) := by
  intro d
  induction d with
  | zero => intro c ns h1 h2; omega
  | succ d ih =>
    intro c ns hcap hdepth hc
    rw [parseNode]
    rcases hZ : Z.drop c with _ | ⟨tag, rest⟩
    · -- a marker is due and no byte is left
      have hlen : c = Z.length := by
        have := List.drop_eq_nil_iff.1 hZ; omega
      have hget : Z[c]? = none := by rw [List.getElem?_eq_none_iff]; omega
      simp only [hget]
      refine ⟨?_, ?_⟩
      · intro e he N slot more _
        cases he
        simp [readRecords]
      · intro i c' ns' h; cases h
    · have hclt : c < Z.length := by
        by_contra hn
        rw [List.drop_eq_nil_of_le (by omega)] at hZ
        cases hZ
      have hget : Z[c]? = some tag := by
        rw [← List.head?_drop, hZ]; rfl
      have hrest : Z.drop (c + 1) = rest := by
        rw [← List.drop_drop, hZ]; rfl
      simp only [hget]
      by_cases h1 : tag = 0x01
      · subst h1
        simp only [if_true]
        rcases hR : rest with _ | ⟨v, rest'⟩
        · -- the value is due and no byte is left
          have hget1 : Z[c + 1]? = none := by
            rw [← List.head?_drop, hrest, hR]; rfl
          simp only [hget1]
          refine ⟨?_, ?_⟩
          · intro e he N slot more _
            cases he
            rw [readRecords.eq_def]; simp
          · intro i c' ns' h; cases h
        · have hget1 : Z[c + 1]? = some v := by
            rw [← List.head?_drop, hrest, hR]; rfl
          have hrest2 : Z.drop (c + 2) = rest' := by
            rw [← List.drop_drop, hZ, hR]; rfl
          have hclt2 : c + 2 ≤ Z.length := by
            have : (Z.drop (c + 1)).length = rest'.length + 1 := by rw [hrest, hR]; rfl
            rw [List.length_drop] at this; omega
          simp only [hget1]
          by_cases hfull : ns.length = Config.nodeCap
          · simp only [if_pos hfull]
            refine ⟨?_, ?_⟩
            · intro e he N slot more hN
              cases he
              rw [readRecords_leaf _ _ (List.cons_ne_nil _ _), TreeReading.leaf,
                TreeReading.alloc_full rfl (by rw [← hfull]; exact hN)]
            · intro i c' ns' h; cases h
          · simp only [if_neg hfull]
            refine ⟨?_, ?_⟩
            · intro e he; cases he
            · intro i c' ns' h
              cases h
              refine ⟨rfl, .leaf v 0, rfl, ?_, rfl, hclt2, rfl, ?_⟩
              · rw [hrest2]; rfl
              · simp only [CodeTree.size]; omega
      · simp only [if_neg h1]
        by_cases h0 : tag = 0x00
        · subst h0
          simp only [if_true]
          by_cases hfull : ns.length = Config.nodeCap
          · simp only [if_pos hfull]
            refine ⟨?_, ?_⟩
            · intro e he N slot more hN
              cases he
              rw [readRecords_internal _ (List.cons_ne_nil _ _), TreeReading.internal,
                TreeReading.alloc_full rfl (by rw [← hfull]; exact hN)]
            · intro i c' ns' h; cases h
          · simp only [if_neg hfull]
            have step : ∀ (N : List Node) (slot : Slot) (more : List Slot), N.length = ns.length →
                readRecords (0x00 :: rest) { cur := c, nodes := N, todo := slot :: more }
                  = readRecords (Z.drop (c + 1)) (TreeReading.mk (c + 1) (slot.fill N.length N ++ [.internal 0 0 0])
                      (.left N.length :: .right N.length :: more)) := by
              intro N slot more hN
              rw [readRecords_internal _ (List.cons_ne_nil _ _), TreeReading.internal,
                TreeReading.alloc_ok rfl (by show N.length < _; omega), hrest]
              rfl
            have hL := ih (c + 1) (ns ++ [.internal 0 0 0]) (by simp; omega) (by simp; omega) (by omega)
            cases hl : parseNode Z d (c + 1) (ns ++ [.internal 0 0 0]) with
            | error e =>
              refine ⟨?_, ?_⟩
              · intro e' he' N slot more hN
                cases he'
                rw [step N slot more hN]
                exact hL.1 e hl _ _ _ (by simp [hN])
              · intro i c' ns' h; cases h
            | ok p =>
              obtain ⟨l, c1, ns1⟩ := p
              obtain ⟨hl0, L, hLu, hLs, hLc, hLle, hLn, hLsz⟩ := hL.2 _ _ _ hl
              simp only [List.length_append, List.length_cons, List.length_nil, Nat.zero_add] at hl0 hLn hLsz
              have hR := ih c1 ns1 (by rw [hLn]; simp; omega) (by rw [hLn]; simp; omega) hLle
              cases hr : parseNode Z d c1 ns1 with
              | error e =>
                refine ⟨?_, ?_⟩
                · intro e' he' N slot more hN
                  simp only [hr] at he'
                  cases he'
                  rw [step N slot more hN, hLs, readRecords_ser L _ (.left N.length) (.right N.length :: more) _ rfl
                    (by simp; omega), TreeReading.afterTree]
                  simp only [hLc] at hR ⊢
                  exact hR.1 e (by rw [← hLc]; exact hr) _ _ _ (by rw [hLn]; simp [hN]; omega)
                · intro i c' ns' h; simp only [hr] at h; cases h
              | ok p =>
                obtain ⟨r, c2, ns2⟩ := p
                obtain ⟨hr0, R, hRu, hRs, hRc, hRle, hRn, hRsz⟩ := hR.2 _ _ _ hr
                refine ⟨?_, ?_⟩
                · intro e' he'; simp only [hr] at he'; cases he'
                · intro i c' ns' h
                  simp only [hr] at h
                  cases h
                  have hn1 : ns1.length = ns.length + 1 + L.size := by rw [hLn]; simp; omega
                  refine ⟨rfl, .internal 0 L R, by rw [CodeTree.unweighted, hLu, hRu], ?_, ?_, hRle, ?_, ?_⟩
                  · rw [CodeTree.ser, List.cons_append, List.append_assoc, ← hRs, ← hLs, hrest]
                  · rw [hRc, hLc, CodeTree.ser]; simp; omega
                  · rw [hRn, hn1, hLn, hl0, hr0, hn1, preorderNodes]
                    simp
                  · simp only [CodeTree.size]; omega
        · -- an unknown marker
          simp only [if_neg h0]
          refine ⟨?_, ?_⟩
          · intro e he N slot more _
            cases he
            rw [readRecords.eq_def]
            simp only [List.cons_ne_nil, if_neg h0, if_neg h1, if_false]
          · intro i c' ns' h; cases h

/-- DESER accepts exactly the byte sequences that begin with the serialized form of a tree that fits the store, and what it
reads is that tree (R165, R169). -/
theorem readTree_ok {X : List Byte} {r : TreeReading} (h : readTree X = .ok r) :
    ∃ (T : CodeTree) (Y : List Byte), T.unweighted = T ∧ X = T.ser ++ Y ∧ T.size ≤ Config.nodeCap ∧
      r = { cur := T.ser.length, nodes := preorderNodes 0 T, todo := [] } := by
  have hp := parseNode_spec X (Config.nodeCap + 1) 0 [] (Nat.zero_le _) (by simp) (Nat.zero_le _)
  cases hq : parseNode X (Config.nodeCap + 1) 0 [] with
  | error e =>
    have := hp.1 e hq [] .root [] rfl
    rw [List.drop_zero] at this
    rw [readTree, TreeReading.start, this] at h
    cases h
  | ok p =>
    obtain ⟨_, T, hu, hX, hc, _, _, hsz⟩ := hp.2 _ _ _ hq
    rw [List.drop_zero] at hX
    simp only [List.length_nil, Nat.zero_add] at hsz
    refine ⟨T, X.drop p.2.1, hu, hX, hsz, ?_⟩
    rw [hX, readTree_ser T _ hsz] at h
    cases h
    rfl

/-- An error of `parse_node` is the error DESER ends with. -/
theorem readTree_of_parseNode_error {X : List Byte} {e : CmdError} (h : parseNode X (Config.nodeCap + 1) 0 [] = .error e) :
    readTree X = .error e := by
  have := (parseNode_spec X (Config.nodeCap + 1) 0 [] (Nat.zero_le _) (by simp) (Nat.zero_le _)).1 e h [] .root [] rfl
  rwa [List.drop_zero] at this

/-- What `parse_node` returns is what DESER installs. -/
theorem readTree_of_parseNode_ok {X : List Byte} {i c : Nat} {ns : List Node}
    (h : parseNode X (Config.nodeCap + 1) 0 [] = .ok (i, c, ns)) :
    i = 0 ∧ readTree X = .ok { cur := c, nodes := ns, todo := [] } := by
  obtain ⟨hi, T, _, hX, hc, _, hn, hsz⟩ :=
    (parseNode_spec X (Config.nodeCap + 1) 0 [] (Nat.zero_le _) (by simp) (Nat.zero_le _)).2 _ _ _ h
  rw [List.drop_zero] at hX
  simp only [List.length_nil, Nat.zero_add, List.nil_append] at hsz hc hn
  refine ⟨hi, ?_⟩
  rw [hX, readTree_ser T _ hsz, hc, hn]

/-- A tree that has been read leaves the cursor within the bytes. -/
theorem readTree_cur_le {X : List Byte} {r : TreeReading} (h : readTree X = .ok r) : r.cur ≤ X.length := by
  obtain ⟨T, Y, _, hX, _, rfl⟩ := readTree_ok h
  simp [hX]

/-- The store DESER and PARSE install is valid (R33, R164). -/
theorem readTree_store_valid {X : List Byte} {r : TreeReading} (h : readTree X = .ok r) :
    NodeStore.valid { nodes := r.nodes, root := 0 } := by
  obtain ⟨T, Y, _, hX, hsz, rfl⟩ := readTree_ok h
  exact (preorder_store_valid T hsz).1

end Sys2Proof.Machine
end

