-- ==== Sys2Proof/Laws/Container.lean ====
section
/-! SUPPORT. What PARSE makes of a container: it reads back what ASM writes, it accepts nothing else, and which errors it
can end with (45_container.md). -/

namespace Sys2Proof.Machine

theorem containerBytes_length (T : List Byte) (C : Word) (P : List Byte) :
    (containerBytes T C P).length = 8 + T.length + P.length := by
  simp only [containerBytes, List.length_append, be32_length]; omega

/-- The first field of a container (R61). -/
theorem memRead_treeLength {T : List Byte} {C : Word} {P : List Byte} (h : T.length < 2 ^ 32) :
    u32be (memRead (containerBytes T C P) 0 4) = T.length := by
  rw [containerBytes, List.append_assoc, List.append_assoc, memRead_zero _ _ _ (be32_length _), u32be_be32,
    toNat_wordOfNat h]

/-- The second field, at offset 4 (R61). -/
theorem memRead_treeBytes {T : List Byte} {C : Word} {P : List Byte} :
    memRead (containerBytes T C P) 4 T.length = T := by
  rw [containerBytes, List.append_assoc, List.append_assoc, memRead_append _ _ _ _ (be32_length _), List.take_left]

/-- The third field, at offset 4 + N (R61). -/
theorem memRead_contentLen {T : List Byte} {C : Word} {P : List Byte} :
    memRead (containerBytes T C P) (4 + T.length) 4 = be32 C := by
  rw [containerBytes, List.append_assoc, memRead_append _ _ _ _ (by simp), List.take_left' (be32_length _)]

/-- The rest, from offset 8 + N (R61). -/
theorem memRead_payload {T : List Byte} {C : Word} {P : List Byte} :
    memRead (containerBytes T C P) (8 + T.length) P.length = P := by
  rw [containerBytes, memRead_append _ _ _ _ (by simp; omega), List.take_length]

/-- PARSE reads back the parts of a container that fit their buffers (R184, R188). -/
theorem parseContainer_containerBytes {c : Capacities} (T : CodeTree) (C : Word) (P : List Byte)
    (room : T.size ≤ Config.nodeCap) (hT : T.ser.length ≤ capOf c .tbuf) (hP : P.length ≤ capOf c .pbuf) :
    parseContainer c (containerBytes T.ser C P)
      = .ok { treeBytes := T.ser, reading := { cur := T.ser.length, nodes := preorderNodes 0 T, todo := [] },
              contentLen := C, payload := P } := by
  have hlen := containerBytes_length T.ser C P
  have hlt := lt_of_le_of_lt hT (capOf_lt c .tbuf)
  have hread := readTree_ser T [] room
  rw [List.append_nil] at hread
  rw [parseContainer, if_neg (by omega)]
  simp only [memRead_treeLength hlt]
  rw [if_neg (by omega), if_neg (by omega), memRead_treeBytes, hread]
  simp only [ne_eq, not_true_eq_false, if_false]
  rw [if_neg (by omega), if_neg (by omega)]
  rw [memRead_contentLen, u32be_be32, wordOfNat_toNat]
  have : (containerBytes T.ser C P).length - (8 + T.ser.length) = P.length := by omega
  rw [this, memRead_payload]

/-- PARSE accepts containers only, and what it delivers are the parts (R184, R186). -/
theorem parseContainer_ok {c : Capacities} {F : List Byte} {p : Parsed} (h : parseContainer c F = .ok p) :
    ∃ T : CodeTree, T.unweighted = T ∧ T.size ≤ Config.nodeCap ∧ F = containerBytes T.ser p.contentLen p.payload ∧
      p.treeBytes = T.ser ∧ p.reading = { cur := T.ser.length, nodes := preorderNodes 0 T, todo := [] } ∧
      T.ser.length ≤ capOf c .tbuf ∧ p.payload.length ≤ capOf c .pbuf := by
  rw [parseContainer] at h
  by_cases h4 : F.length < 4
  · rw [if_pos h4] at h; cases h
  rw [if_neg h4] at h
  obtain ⟨f0, f1, f2, f3, G, rfl⟩ : ∃ f0 f1 f2 f3 G, F = f0 :: f1 :: f2 :: f3 :: G := by
    rcases F with _ | ⟨a, _ | ⟨b, _ | ⟨c, _ | ⟨d, G⟩⟩⟩⟩
    all_goals first | exact ⟨_, _, _, _, _, rfl⟩ | (simp at h4)
  have hN : memRead (f0 :: f1 :: f2 :: f3 :: G) 0 4 = [f0, f1, f2, f3] := by simp [memRead]
  have hG : ∀ i n, memRead (f0 :: f1 :: f2 :: f3 :: G) (4 + i) n = memRead G i n := fun i n => by
    simp [memRead, Nat.add_comm 4 i]
  have hG0 : ∀ n, memRead (f0 :: f1 :: f2 :: f3 :: G) 4 n = memRead G 0 n := fun n => by simpa using hG 0 n
  simp only [hN, hG0, List.length_cons] at h
  generalize hNval : u32be [f0, f1, f2, f3] = N at h
  by_cases h2 : G.length + 1 + 1 + 1 + 1 - 4 < N
  · rw [if_pos h2] at h; cases h
  rw [if_neg h2] at h
  by_cases hcap : N > capOf c .tbuf
  · rw [if_pos hcap] at h; cases h
  rw [if_neg hcap] at h
  cases hr : readTree (memRead G 0 N) with
  | error e => rw [hr] at h; cases h
  | ok r =>
    rw [hr] at h
    simp only [] at h
    by_cases hcur : r.cur ≠ N
    · rw [if_pos hcur] at h; cases h
    rw [if_neg hcur, not_not] at *
    by_cases h3 : G.length + 1 + 1 + 1 + 1 - (4 + N) < 4
    · rw [if_pos h3] at h; cases h
    rw [if_neg h3] at h
    by_cases hp : G.length + 1 + 1 + 1 + 1 - (8 + N) > capOf c .pbuf
    · rw [if_pos hp] at h; cases h
    rw [if_neg hp] at h
    cases h
    obtain ⟨T, Y, hu, hX, hsz, rfl⟩ := readTree_ok hr
    have hY : Y = [] := by
      have := memRead_length G 0 N (by omega)
      rw [hX] at this
      simp only [List.length_append] at this hcur
      exact List.length_eq_zero_iff.1 (by omega)
    subst hY
    rw [List.append_nil] at hX
    simp only [] at hcur
    have htake : G.take N = T.ser := by rw [← hX]; simp [memRead]
    -- the content length field
    have hdlen : (G.drop N).length = G.length - N := by simp
    obtain ⟨c0, c1, c2, c3, P, hP⟩ : ∃ c0 c1 c2 c3 P, G.drop N = c0 :: c1 :: c2 :: c3 :: P := by
      rcases hD : G.drop N with _ | ⟨a, _ | ⟨b, _ | ⟨c, _ | ⟨d, P⟩⟩⟩⟩
      all_goals first
        | exact ⟨_, _, _, _, _, rfl⟩
        | (rw [hD] at hdlen; simp only [List.length_cons, List.length_nil] at hdlen; omega)
    have hC : memRead G N 4 = [c0, c1, c2, c3] := by simp [memRead, hP]
    have hPl : G.length - N = P.length + 4 := by rw [← hdlen, hP]; rfl
    have hPay : memRead G (4 + N) (G.length + 1 + 1 + 1 + 1 - (8 + N)) = P := by
      have e1 : G.drop (4 + N) = P := by
        rw [Nat.add_comm, ← List.drop_drop, hP]; rfl
      rw [memRead, e1, List.take_of_length_le (by omega)]
    have hPay' : memRead (f0 :: f1 :: f2 :: f3 :: G) (8 + N) (G.length + 1 + 1 + 1 + 1 - (8 + N)) = P := by
      rw [show 8 + N = 4 + (4 + N) by omega, hG, show 4 + (4 + N) = 8 + N by omega, hPay]
    refine ⟨T, hu, hsz, ?_, hX, rfl, by omega, ?_⟩
    · have hsplit : G = G.take N ++ (c0 :: c1 :: c2 :: c3 :: P) := by rw [← hP, List.take_append_drop]
      simp only [hPay', hG, hC]
      rw [containerBytes, be32_u32be, ← htake, List.length_take, Nat.min_eq_left (by omega)]
      have hb : be32 (wordOfNat N) = [f0, f1, f2, f3] := by rw [← hNval, be32_u32be]
      rw [hb]
      conv => lhs; rw [hsplit]
      simp
    · simp only [hPay']; omega

/-- The errors PARSE can end with (R184). -/
theorem parseContainer_error {c : Capacities} {F : List Byte} {e : CmdError} (h : parseContainer c F = .error e) :
    e = truncatedFileError 1 0 ∨ e = truncatedFileError 2 4 ∨ (∃ n, e = truncatedFileError 3 n) ∨ e = capacityError 2 ∨
      e = capacityError 3 ∨ (∃ n, e = malformedTreeError 3 n) ∨ ∃ X, readTree X = .error e := by
  rw [parseContainer] at h
  split at h
  · cases h; simp
  simp only [] at h
  split at h
  · cases h; simp
  split at h
  · cases h; simp
  split at h
  · rename_i e' he
    cases h
    exact .inr (.inr (.inr (.inr (.inr (.inr ⟨_, he⟩)))))
  split at h
  · cases h; exact .inr (.inr (.inr (.inr (.inr (.inl ⟨_, rfl⟩)))))
  split at h
  · cases h; exact .inr (.inr (.inl ⟨_, rfl⟩))
  split at h
  · cases h; simp
  · cases h

/-- The errors reading a tree can end with (R163, R234). -/
theorem readRecords_error (X : List Byte) :
    ∀ {r : TreeReading} {e : CmdError}, readRecords X r = .error e →
      (∃ n, e = malformedTreeError 1 n) ∨ (∃ n, e = malformedTreeError 2 n) ∨ e = capacityError 5 := by
  have alloc : ∀ {r : TreeReading} {size : Nat} {node : Node} {due : List Slot} {e : CmdError},
      r.alloc size node due = .error e → e = capacityError 5 := by
    intro r size node due e h
    rw [TreeReading.alloc] at h
    split at h
    · cases h
    · split at h
      · cases h; rfl
      · cases h
  induction hlen : X.length using Nat.strong_induction_on generalizing X with
  | _ len ih =>
    intro r e h
    subst hlen
    rcases X with _ | ⟨tag, rest⟩
    · rw [readRecords] at h
      split at h
      · cases h
      · cases h; exact .inr (.inl ⟨_, rfl⟩)
    · rw [readRecords.eq_def] at h
      simp only [] at h
      split at h
      · cases h
      split at h
      · split at h
        · rename_i e' he
          cases h
          exact .inr (.inr (alloc he))
        · exact ih _ (by simp) rest rfl h
      split at h
      · split at h
        · cases h; exact .inr (.inl ⟨_, rfl⟩)
        · split at h
          · rename_i e' he
            cases h
            exact .inr (.inr (alloc he))
          · exact ih _ (by simp) _ rfl h
      · cases h; exact .inl ⟨_, rfl⟩

end Sys2Proof.Machine
end

