-- ==== Sys2Proof/Laws/Codes.lean ====
section
/-! SUPPORT. The codes of a tree: what table GEN makes, that it is prefix free, and how a code leads through the tree
(42_code_table_generator.md). -/

namespace Sys2Proof.Machine

/-- The code a list of leaf visits leaves for a byte value: the last one (R133). -/
def lastCode (cs : List (Byte × Bits)) (b : Byte) : Option Bits := ((cs.filter fun p => p.1 = b).getLast?).map Prod.snd

@[simp] theorem lastCode_nil (b : Byte) : lastCode [] b = none := rfl

theorem lastCode_append (cs ds : List (Byte × Bits)) (b : Byte) :
    lastCode (cs ++ ds) b = (lastCode ds b).or (lastCode cs b) := by
  simp only [lastCode, List.filter_append, List.getLast?_append]
  cases (ds.filter fun p => p.1 = b).getLast? <;> rfl

theorem lastCode_mem {cs : List (Byte × Bits)} {b : Byte} {c : Bits} (h : lastCode cs b = some c) : (b, c) ∈ cs := by
  rw [lastCode, Option.map_eq_some_iff] at h
  obtain ⟨⟨b', c'⟩, hl, rfl⟩ := h
  have hm := List.mem_of_getLast? hl
  rw [List.mem_filter] at hm
  obtain ⟨hm, hb⟩ := hm
  simp only [decide_eq_true_eq] at hb
  subst hb
  exact hm

theorem lastCode_isSome {cs : List (Byte × Bits)} {b : Byte} (h : b ∈ cs.map Prod.fst) : ∃ c, lastCode cs b = some c := by
  obtain ⟨⟨b', c⟩, hm, rfl⟩ := List.mem_map.1 h
  have hne : cs.filter (fun p => p.1 = b') ≠ [] := by
    intro hnil
    have : (b', c) ∈ cs.filter (fun p => p.1 = b') := List.mem_filter.2 ⟨hm, by simp⟩
    rw [hnil] at this
    cases this
  exact ⟨_, by rw [lastCode, List.getLast?_eq_some_getLast hne]; rfl⟩

/-- With distinct byte values the code is the one pair there is (R134). -/
theorem lastCode_eq_iff {cs : List (Byte × Bits)} (h : (cs.map Prod.fst).Nodup) (b : Byte) (c : Bits) :
    lastCode cs b = some c ↔ (b, c) ∈ cs := by
  constructor
  · exact lastCode_mem
  · intro hm
    obtain ⟨d, hd⟩ := lastCode_isSome (List.mem_map_of_mem hm : b ∈ cs.map Prod.fst)
    have := lastCode_mem hd
    have : c = d := by
      have hp := List.inj_on_of_nodup_map h hm this rfl
      exact (Prod.mk.inj hp).2
    rw [hd, this]

theorem codesAt_values (T : CodeTree) : ∀ p, (T.codesAt p).map Prod.fst = T.leafValues := by
  induction T with
  | leaf v w => intro p; rfl
  | internal w l r hl hr => intro p; simp [CodeTree.codesAt, CodeTree.leafValues, hl, hr]

theorem codes_values (T : CodeTree) : T.codes.map Prod.fst = T.leafValues := by
  cases T with
  | leaf v w => rfl
  | internal w l r => exact codesAt_values _ _

/-- Every code below a path extends it, by at most the height of the tree. -/
theorem codesAt_path {T : CodeTree} : ∀ {p : Bits} {v : Byte} {c : Bits}, (v, c) ∈ T.codesAt p →
    ∃ q, c = p ++ q ∧ q.length ≤ T.height := by
  induction T with
  | leaf v w =>
    intro p u c h
    simp only [CodeTree.codesAt, List.mem_singleton, Prod.mk.injEq] at h
    exact ⟨[], by simp [h.2], Nat.zero_le _⟩
  | internal w l r hl hr =>
    intro p u c h
    rw [CodeTree.codesAt, List.mem_append] at h
    rcases h with h | h
    · obtain ⟨q, rfl, hq⟩ := hl h
      exact ⟨false :: q, by simp, by simp only [CodeTree.height, List.length_cons]; omega⟩
    · obtain ⟨q, rfl, hq⟩ := hr h
      exact ⟨true :: q, by simp, by simp only [CodeTree.height, List.length_cons]; omega⟩

/-- Every code has at least one bit, and at most as many as the tree is high (R82, R135). -/
theorem codes_length {T : CodeTree} {v : Byte} {c : Bits} (h : (v, c) ∈ T.codes) :
    1 ≤ c.length ∧ c.length ≤ max 1 T.height := by
  cases T with
  | leaf u w =>
    simp only [CodeTree.codes, List.mem_singleton, Prod.mk.injEq] at h
    simp [h.2]
  | internal w l r =>
    rw [CodeTree.codes, CodeTree.codesAt, List.mem_append] at h
    simp only [CodeTree.height]
    rcases h with h | h <;> obtain ⟨q, rfl, hq⟩ := codesAt_path h <;> simp <;> omega

/-- No code below a path is a prefix of the code of another leaf: if one is, they are the same entry (R82, R135). -/
theorem codesAt_prefix_free {T : CodeTree} : ∀ {p : Bits} {u v : Byte} {c d : Bits}, (u, c) ∈ T.codesAt p →
    (v, d) ∈ T.codesAt p → c <+: d → u = v ∧ c = d := by
  induction T with
  | leaf x w =>
    intro p u v c d hc hd _
    simp only [CodeTree.codesAt, List.mem_singleton, Prod.mk.injEq] at hc hd
    exact ⟨hc.1.trans hd.1.symm, hc.2.trans hd.2.symm⟩
  | internal w l r hl hr =>
    intro p u v c d hc hd h
    rw [CodeTree.codesAt, List.mem_append] at hc hd
    have differ : ∀ {b b' : Bool} {q q' : Bits}, p ++ [b] ++ q <+: p ++ [b'] ++ q' → b = b' := by
      intro b b' q q' hpre
      rw [List.append_assoc, List.append_assoc, List.prefix_append_right_inj, List.singleton_append, List.singleton_append,
        List.cons_prefix_cons] at hpre
      exact hpre.1
    rcases hc with hc | hc <;> rcases hd with hd | hd
    · exact hl hc hd h
    · obtain ⟨q, rfl, _⟩ := codesAt_path hc
      obtain ⟨q', rfl, _⟩ := codesAt_path hd
      exact absurd (differ h) (by simp)
    · obtain ⟨q, rfl, _⟩ := codesAt_path hc
      obtain ⟨q', rfl, _⟩ := codesAt_path hd
      exact absurd (differ h) (by simp)
    · exact hr hc hd h

theorem codes_prefix_free {T : CodeTree} {u v : Byte} {c d : Bits} (hc : (u, c) ∈ T.codes) (hd : (v, d) ∈ T.codes)
    (h : c <+: d) : u = v ∧ c = d := by
  cases T with
  | leaf x w =>
    simp only [CodeTree.codes, List.mem_singleton, Prod.mk.injEq] at hc hd
    exact ⟨hc.1.trans hd.1.symm, hc.2.trans hd.2.symm⟩
  | internal w l r => exact codesAt_prefix_free hc hd h

/-! ### The walk of GEN -/

/-- The walk below a non-empty path writes each leaf's path, the last visit of a byte value remaining (R131, R133). -/
theorem walk_get (T : CodeTree) :
    ∀ (p : Bits) (ct : CodeTable) (b : Byte), p ≠ [] → (walk T p ct).get b = (lastCode (T.codesAt p) b).or (ct.get b) := by
  induction T with
  | leaf v w =>
    intro p ct b hp
    rw [walk, ByteTable.get_set, leafCode, if_neg hp]
    by_cases h : v = b
    · simp [CodeTree.codesAt, lastCode, h]
    · simp [CodeTree.codesAt, lastCode, h]
  | internal w l r hl hr =>
    intro p ct b _
    rw [walk, hr _ _ _ (by simp), hl _ _ _ (by simp), CodeTree.codesAt, lastCode_append, Option.or_assoc]

/-- The table GEN makes holds for each byte value the code of the last leaf that holds it, and nothing else (R131 to
R134). -/
theorem genTable_get (T : CodeTree) (b : Byte) : (genTable T).get b = lastCode T.codes b := by
  cases T with
  | leaf v w =>
    rw [genTable, walk, ByteTable.get_set, leafCode, if_pos rfl, ByteTable.get_const]
    by_cases h : v = b
    · simp [CodeTree.codes, lastCode, h]
    · simp [CodeTree.codes, lastCode, h]
  | internal w l r =>
    rw [genTable, walk, walk_get r _ _ _ (by simp), walk_get l _ _ _ (by simp), ByteTable.get_const, CodeTree.codes,
      CodeTree.codesAt, lastCode_append, Option.or_none]

/-- Every code of the table is the code of a leaf that holds the byte value. -/
theorem mem_codes_of_genTable {T : CodeTree} {b : Byte} {c : Bits} (h : (genTable T).get b = some c) : (b, c) ∈ T.codes :=
  lastCode_mem (by rw [← genTable_get]; exact h)

/-- Every leaf value has a code. -/
theorem genTable_isSome {T : CodeTree} {b : Byte} (h : b ∈ T.leafValues) : ∃ c, (genTable T).get b = some c := by
  rw [genTable_get]
  exact lastCode_isSome (by rw [codes_values]; exact h)

/-- Only leaf values have a code. -/
theorem mem_leafValues_of_genTable {T : CodeTree} {b : Byte} {c : Bits} (h : (genTable T).get b = some c) :
    b ∈ T.leafValues := by
  rw [← codes_values]
  exact List.mem_map_of_mem (mem_codes_of_genTable h)

/-- The table of a valid tree is a valid table (R34, R135). -/
theorem genTable_ok {T : CodeTree} (h : T.height ≤ Config.codeMax) : ctOk (some (genTable T)) := by
  intro e he c hc
  obtain ⟨b, rfl⟩ := (ByteTable.mem_entries _ _).1 he
  have := codes_length (mem_codes_of_genTable (Option.mem_def.1 hc))
  simp only [Config.codeMax] at *
  omega

end Sys2Proof.Machine
end

