-- ==== Sys2Proof/Laws/Packer.lean ====
section
/-! SUPPORT. What ENCODE and DECODE compute: the bits of an input, the walk over a code, and that decoding undoes encoding
(43_bit_packer.md). -/

namespace Sys2Proof.Machine

/-- The code of a byte value in a table; empty when it has none. -/
def codeOf (ct : CodeTable) (b : Byte) : Bits := (ct.get b).getD []

/-! ### ENCODE -/

/-- When every byte has a code, the bits are the codes in input order (R83, R141). -/
theorem encodeBits_ok {ct : CodeTable} {D : List Byte} (h : ∀ b ∈ D, (ct.get b).isSome) :
    ∀ (i : Nat) (bits : Bits), encodeBits ct i D bits = .ok (bits ++ D.flatMap (codeOf ct)) := by
  induction D with
  | nil => intro i bits; simp [encodeBits]
  | cons b D ih =>
    intro i bits
    obtain ⟨c, hc⟩ := Option.isSome_iff_exists.1 (h b (List.mem_cons_self ..))
    rw [encodeBits, hc]
    simp only []
    rw [ih (fun x hx => h x (List.mem_cons_of_mem _ hx)), List.flatMap_cons, codeOf, hc, Option.getD_some,
      List.append_assoc]

/-- The first byte without a code ends ENCODE with its index (R142). -/
theorem encodeBits_error {ct : CodeTable} {A B : List Byte} {b : Byte} (hA : ∀ a ∈ A, (ct.get a).isSome)
    (hb : ct.get b = none) : ∀ (i : Nat) (bits : Bits), encodeBits ct i (A ++ b :: B) bits = .error (invariantError (i + A.length)) := by
  induction A with
  | nil => intro i bits; simp [encodeBits, hb]
  | cons a A ih =>
    intro i bits
    obtain ⟨c, hc⟩ := Option.isSome_iff_exists.1 (hA a (List.mem_cons_self ..))
    rw [List.cons_append, encodeBits, hc]
    simp only []
    rw [ih (fun x hx => hA x (List.mem_cons_of_mem _ hx)), List.length_cons]
    congr 2
    omega

/-- An input either has a code for every byte, or a first byte without one. -/
theorem coded_or_first_uncoded (ct : CodeTable) (D : List Byte) :
    (∀ b ∈ D, (ct.get b).isSome) ∨
      ∃ A b B, D = A ++ b :: B ∧ (∀ a ∈ A, (ct.get a).isSome) ∧ ct.get b = none := by
  induction D with
  | nil => exact .inl fun b hb => by cases hb
  | cons a D ih =>
    cases ha : ct.get a with
    | none => exact .inr ⟨[], a, D, rfl, by simp, ha⟩
    | some c =>
      rcases ih with ih | ⟨A, b, B, rfl, hA, hb⟩
      · left
        intro b hb
        rcases List.mem_cons.1 hb with rfl | hb
        · rw [ha]; rfl
        · exact ih b hb
      · right
        refine ⟨a :: A, b, B, rfl, ?_, hb⟩
        intro x hx
        rcases List.mem_cons.1 hx with rfl | hx
        · rw [ha]; rfl
        · exact hA x hx

/-- A body that raises INVARIANT or encodes all of its input; there is no third way (R141). -/
theorem encodeBits_cases (ct : CodeTable) (D : List Byte) :
    ((∀ b ∈ D, (ct.get b).isSome) ∧ encodeBits ct 0 D [] = .ok (D.flatMap (codeOf ct))) ∨
      ∃ A b B, D = A ++ b :: B ∧ (∀ a ∈ A, (ct.get a).isSome) ∧ ct.get b = none ∧
        encodeBits ct 0 D [] = .error (invariantError A.length) := by
  rcases coded_or_first_uncoded ct D with h | ⟨A, b, B, rfl, hA, hb⟩
  · exact .inl ⟨h, by rw [encodeBits_ok h]; rfl⟩
  · exact .inr ⟨A, b, B, rfl, hA, hb, by rw [encodeBits_error hA hb, Nat.zero_add]⟩

/-! ### DECODE -/

/-- With the counter at the content length no bit is read (R147). -/
theorem decodeLoop_enough {root node : CodeTree} {want : Nat} {out : List Byte} (h : ¬ out.length < want) (bits : Bits) :
    decodeLoop root want node bits out = .ok out := by
  cases bits <;> simp [decodeLoop, h]

/-- Out of bits with bytes still to produce (R149). -/
theorem decodeLoop_nil {root node : CodeTree} {want : Nat} {out : List Byte} (h : out.length < want) :
    decodeLoop root want node [] out = .error (corruptStreamError 1 out.length) := by
  simp [decodeLoop, h]

/-- The bits of a path from an inner node to a leaf emit the leaf's value and leave the walk at the root (R146). -/
theorem decodeLoop_path {w₀ : Word} {l₀ r₀ : CodeTree} {want : Nat} (N : CodeTree) :
    ∀ {p q : Bits} {v : Byte} {bits : Bits} {out : List Byte}, (v, p ++ q) ∈ N.codesAt p → q ≠ [] → out.length < want →
      decodeLoop (.internal w₀ l₀ r₀) want N (q ++ bits) out
        = decodeLoop (.internal w₀ l₀ r₀) want (.internal w₀ l₀ r₀) bits (out ++ [v]) := by
  induction N with
  | leaf x w =>
    intro p q v bits out h hq _
    simp only [CodeTree.codesAt, List.mem_singleton, Prod.mk.injEq, List.append_right_eq_self] at h
    exact absurd h.2 hq
  | internal w l r hl hr =>
    intro p q v bits out h hq hout
    rw [CodeTree.codesAt, List.mem_append] at h
    have go : ∀ (b : Bool) (child : CodeTree), child = (CodeTree.internal w l r).child b →
        (∀ {p q : Bits} {v : Byte} {bits : Bits} {out : List Byte}, (v, p ++ q) ∈ child.codesAt p → q ≠ [] →
          out.length < want → decodeLoop (.internal w₀ l₀ r₀) want child (q ++ bits) out
            = decodeLoop (.internal w₀ l₀ r₀) want (.internal w₀ l₀ r₀) bits (out ++ [v])) →
        (v, p ++ q) ∈ child.codesAt (p ++ [b]) →
        decodeLoop (.internal w₀ l₀ r₀) want (.internal w l r) (q ++ bits) out
          = decodeLoop (.internal w₀ l₀ r₀) want (.internal w₀ l₀ r₀) bits (out ++ [v]) := by
      intro b child hchild ih hm
      obtain ⟨q', hqq, _⟩ := codesAt_path hm
      rw [List.append_assoc, List.append_cancel_left_eq] at hqq
      subst hqq
      rw [List.singleton_append, List.cons_append, decodeLoop, if_pos hout]
      simp only [← hchild]
      rw [List.singleton_append] at hm
      cases hc : child with
      | leaf x y =>
        rw [hc, CodeTree.codesAt, List.mem_singleton, Prod.mk.injEq] at hm
        have hnil : q' = [] := by
          have := hm.2
          simpa using this
        subst hnil
        simp [hm.1]
      | internal w' l' r' =>
        have hne : q' ≠ [] := by
          rintro rfl
          rw [hc, CodeTree.codesAt, List.mem_append] at hm
          rcases hm with hm | hm <;> obtain ⟨q'', hq'', _⟩ := codesAt_path hm <;> simp at hq''
        simp only []
        rw [← hc]
        exact ih (p := p ++ [b]) (by simpa using hm) hne hout
    rcases h with h | h
    · exact go false l rfl hl h
    · exact go true r rfl hr h

/-- One code of the tree is one byte of output (R146, R148). -/
theorem decodeLoop_code {T : CodeTree} {want : Nat} {v : Byte} {c bits : Bits} {out : List Byte} (h : (v, c) ∈ T.codes)
    (hout : out.length < want) : decodeLoop T want T (c ++ bits) out = decodeLoop T want T bits (out ++ [v]) := by
  cases T with
  | leaf x w =>
    simp only [CodeTree.codes, List.mem_singleton, Prod.mk.injEq] at h
    rw [h.1, h.2, List.singleton_append, decodeLoop, if_pos hout]
    simp
  | internal w l r =>
    have hlen := (codes_length h).1
    have hm : (v, ([] : Bits) ++ c) ∈ (CodeTree.internal w l r).codesAt [] := by simpa [CodeTree.codes] using h
    exact decodeLoop_path _ hm (by rintro rfl; simp at hlen) hout

/-- A sequence of codes of the tree decodes to the byte values they are the codes of (R150). -/
theorem decodeLoop_codes {T : CodeTree} {want : Nat} {code : Byte → Bits} (D : List Byte) :
    ∀ {bits : Bits} {out : List Byte}, (∀ b ∈ D, (b, code b) ∈ T.codes) → out.length + D.length ≤ want →
      decodeLoop T want T (D.flatMap code ++ bits) out = decodeLoop T want T bits (out ++ D) := by
  induction D with
  | nil => intro bits out _ _; simp
  | cons b D ih =>
    intro bits out h hlen
    rw [List.length_cons] at hlen
    rw [List.flatMap_cons, List.append_assoc, decodeLoop_code (h b (List.mem_cons_self ..)) (by omega),
      ih (fun x hx => h x (List.mem_cons_of_mem _ hx)) (by simp; omega), List.append_assoc, List.singleton_append]

/-- Decoding the payload of D with a tree whose codes were used gives D back, whatever bits follow the last code (R147,
R150). -/
theorem decodeBytes_payload {T : CodeTree} {code : Byte → Bits} {D P : List Byte} {rest : Bits}
    (h : ∀ b ∈ D, (b, code b) ∈ T.codes) (hP : unpack P = D.flatMap code ++ rest) : decodeBytes P T D.length = .ok D := by
  rw [decodeBytes, hP, decodeLoop_codes D h (by simp), List.nil_append, decodeLoop_enough (by simp)]

/-- Decoding undoes encoding with the table GEN makes from the same tree (R133, R150). -/
theorem decode_encode {T : CodeTree} {D : List Byte} (h : ∀ b ∈ D, ((genTable T).get b).isSome) :
    decodeBytes (pack (padded (D.flatMap (codeOf (genTable T))))) T D.length = .ok D := by
  apply decodeBytes_payload (code := codeOf (genTable T)) (rest := List.replicate (padCount (D.flatMap (codeOf (genTable T))).length) false)
  · intro b hb
    obtain ⟨c, hc⟩ := Option.isSome_iff_exists.1 (h b hb)
    rw [codeOf, hc, Option.getD_some]
    exact mem_codes_of_genTable hc
  · rw [unpack_pack_padded, padded]

/-- A decoded output has exactly the content length (R145, R147). -/
theorem decodeLoop_length {root : CodeTree} {want : Nat} :
    ∀ {bits : Bits} {node : CodeTree} {out D : List Byte}, out.length ≤ want →
      decodeLoop root want node bits out = .ok D → D.length = want := by
  intro bits
  induction bits with
  | nil =>
    intro node out D hle h
    rw [decodeLoop] at h
    split at h
    · cases h
    · cases h; omega
  | cons b bits ih =>
    intro node out D hle h
    rw [decodeLoop.eq_def] at h
    simp only [] at h
    split at h
    · rename_i hlt
      have hnext : ∀ v : Byte, (out ++ [v]).length ≤ want := fun v => by simp; omega
      split at h
      · split at h
        · cases h
        · exact ih (hnext _) h
      · split at h
        · exact ih (hnext _) h
        · exact ih hle h
    · cases h; omega

/-- Bits behind the last one read do not matter (R147). -/
theorem decodeLoop_append {root : CodeTree} {want : Nat} :
    ∀ {bits : Bits} {node : CodeTree} {out D : List Byte} (more : Bits),
      decodeLoop root want node bits out = .ok D → decodeLoop root want node (bits ++ more) out = .ok D := by
  intro bits
  induction bits with
  | nil =>
    intro node out D more h
    rw [decodeLoop] at h
    split at h
    · cases h
    · rename_i hn
      cases h
      exact decodeLoop_enough hn _
  | cons b bits ih =>
    intro node out D more h
    rw [decodeLoop.eq_def] at h
    rw [List.cons_append, decodeLoop.eq_def]
    simp only [] at h ⊢
    split at h
    · rename_i hlt
      rw [if_pos hlt]
      cases root with
      | leaf v w =>
        simp only [] at h ⊢
        split at h
        · cases h
        · rename_i hb
          rw [if_neg hb]
          exact ih more h
      | internal w l r =>
        simp only [] at h ⊢
        cases hc : node.child b with
        | leaf v' w' => simp only [hc] at h; exact ih more h
        | internal w' l' r' => simp only [hc] at h; exact ih more h
    · rename_i hn
      rw [if_neg hn]
      exact h

/-- The errors DECODE's loop can end with: CORRUPT_STREAM sub 1 or 2 (R234). -/
theorem decodeLoop_error {root : CodeTree} {want : Nat} :
    ∀ {bits : Bits} {node : CodeTree} {out : List Byte} {e : CmdError},
      decodeLoop root want node bits out = .error e → ∃ n, e = corruptStreamError 1 n ∨ e = corruptStreamError 2 n := by
  intro bits
  induction bits with
  | nil =>
    intro node out e h
    rw [decodeLoop] at h
    split at h
    · cases h; exact ⟨_, .inl rfl⟩
    · cases h
  | cons b bits ih =>
    intro node out e h
    rw [decodeLoop.eq_def] at h
    simp only [] at h
    split at h
    · split at h
      · split at h
        · cases h; exact ⟨_, .inr rfl⟩
        · exact ih h
      · split at h
        · exact ih h
        · exact ih h
    · cases h

end Sys2Proof.Machine
end

