-- ==== Sys2Proof/Laws/Ops.lean ====
section
/-! SUPPORT. The command frame and the bodies of the commands: for each of them one lemma that says everything it can do,
and what taking an error leaves (60_exceptions.md rules R235 to R237). -/

namespace Sys2Proof.Machine

/-! ### The frame -/

theorem openFrame_count (s : State) : openFrame .count 0x01 s = { s with lastop := 0x01, wt := none } := rfl
theorem openFrame_build (s : State) : openFrame .build 0x02 s = { s with lastop := 0x02, tree := none } := rfl
theorem openFrame_gen (s : State) : openFrame .gen 0x03 s = { s with lastop := 0x03, ct := none } := rfl
theorem openFrame_encode (s : State) :
    openFrame .encode 0x04 s = { s with lastop := 0x04, mem := s.mem.put .pbuf [], contentLen := 0 } := rfl
theorem openFrame_ser (s : State) : openFrame .ser 0x05 s = { s with lastop := 0x05, mem := s.mem.put .tbuf [] } := rfl
theorem openFrame_asm (s : State) :
    openFrame .asm 0x06 s = { s with lastop := 0x06, mem := (s.mem.put .tbuf []).put .fbuf [] } := rfl
theorem openFrame_parse (s : State) :
    openFrame .parse 0x07 s = { s with lastop := 0x07, mem := (s.mem.put .pbuf []).put .tbuf [], tree := none, contentLen := 0,
                                        consumed := 0 } := rfl
theorem openFrame_deser (s : State) : openFrame .deser 0x08 s = { s with lastop := 0x08, tree := none, consumed := 0 } := rfl
theorem openFrame_decode (s : State) : openFrame .decode 0x09 s = { s with lastop := 0x09, mem := s.mem.put .dbuf [] } := rfl
theorem openFrame_compress (s : State) :
    openFrame .compress 0x0A s = { s with lastop := 0x0A, mem := ((s.mem.put .pbuf []).put .tbuf []).put .fbuf [], wt := none,
                                           tree := none, ct := none, contentLen := 0 } := rfl
theorem openFrame_decompress (s : State) :
    openFrame .decompress 0x0B s = { s with lastop := 0x0B, mem := ((s.mem.put .dbuf []).put .pbuf []).put .tbuf [],
                                             tree := none, contentLen := 0, consumed := 0 } := rfl

@[simp] theorem andThen_done (s : State) (f : State → StepResult) : (StepResult.done s).andThen f = f s := rfl
@[simp] theorem andThen_raised (s : State) (e : CmdError) (f : State → StepResult) :
    (StepResult.raised s e).andThen f = .raised s e := rfl
@[simp] theorem andThen_stuck (x : Fault) (f : State → StepResult) : (StepResult.stuck x).andThen f = .stuck x := rfl

/-- A step of a composite goes on only from a step that completed (R204, R236). -/
theorem andThen_cases (r : StepResult) (f : State → StepResult) :
    (∃ s, r = .done s ∧ r.andThen f = f s) ∨ (∃ s e, r = .raised s e ∧ r.andThen f = .raised s e) ∨
      ∃ x, r = .stuck x ∧ r.andThen f = .stuck x := by
  cases r with
  | done s => exact .inl ⟨s, rfl, rfl⟩
  | raised s e => exact .inr (.inl ⟨s, e, rfl, rfl⟩)
  | stuck x => exact .inr (.inr ⟨x, rfl, rfl⟩)

/-- A command that answers a next state completed or took an error (R235 step 6). -/
theorem finish_next {r : StepResult} {t : State} (h : finish r = .next t) :
    (∃ s, r = .done s ∧ t = s.succeed) ∨ ∃ s e, r = .raised s e ∧ t = s.takeError e := by
  cases r with
  | done s => cases h; exact .inl ⟨s, rfl, rfl⟩
  | raised s e => cases h; exact .inr ⟨s, e, rfl, rfl⟩
  | stuck x => cases h

/-! ### The bodies -/

theorem countStep_eq (s : State) : countStep s = .done { s with wt := some (countTable (s.buf .dbuf)) } := rfl

theorem buildStep_cases (s : State) :
    (s.wt = none ∧ buildStep s = .raised s (sequenceError 1)) ∨
      (∃ wt, s.wt = some wt ∧ presentSyms wt = [] ∧ buildStep s = .raised s emptyInputError) ∨
      ∃ wt, s.wt = some wt ∧ presentSyms wt ≠ [] ∧ buildStep s = .done { s with tree := some (buildStore wt) } := by
  rw [buildStep, needWt]
  cases hw : s.wt with
  | none => exact .inl ⟨rfl, rfl⟩
  | some wt =>
    by_cases hp : presentSyms wt = []
    · exact .inr (.inl ⟨wt, rfl, hp, if_pos hp⟩)
    · exact .inr (.inr ⟨wt, rfl, hp, if_neg hp⟩)

/-- A step that needs the tree, for a store that is valid when there is one (R33, R244). -/
theorem needTree_cases {s : State} (h : treeOk s.tree) (body : CodeTree → StepResult) :
    (s.tree = none ∧ needTree s body = .raised s (sequenceError 2)) ∨
      ∃ st T, s.tree = some st ∧ st.valid ∧ st.tree? = some T ∧ needTree s body = body T := by
  rw [needTree]
  cases ht : s.tree with
  | none => exact .inl ⟨rfl, rfl⟩
  | some st =>
    have hv : st.valid := by rw [ht] at h; exact h
    obtain ⟨T, _, hT, _⟩ := hv.tree
    simp only [hT]
    exact .inr ⟨st, T, rfl, hv, hT, rfl⟩

/-- The same without that premise: the model may be stuck. -/
theorem needTree_three (s : State) (body : CodeTree → StepResult) :
    (s.tree = none ∧ needTree s body = .raised s (sequenceError 2)) ∨
      (∃ st T, s.tree = some st ∧ st.tree? = some T ∧ needTree s body = body T) ∨
      needTree s body = .stuck .brokenNodeStore := by
  rw [needTree]
  cases ht : s.tree with
  | none => exact .inl ⟨rfl, rfl⟩
  | some st =>
    cases hT : st.tree? with
    | none => simp [hT]
    | some T => simp only [hT]; exact .inr (.inl ⟨st, T, rfl, hT, rfl⟩)

theorem needTree_some {s : State} {st : NodeStore} {T : CodeTree} (hs : s.tree = some st) (hT : st.tree? = some T)
    (body : CodeTree → StepResult) : needTree s body = body T := by
  rw [needTree, hs]; simp only [hT]

/-- The state after the step ENCODE has committed (R141). -/
def State.commitPayload (s : State) (bits : Bits) : State :=
  { s.setBuf .pbuf (pack (padded bits)) with contentLen := wordOfNat (s.buf .dbuf).length }

theorem encodeStep_cases (s : State) :
    (s.ct = none ∧ encodeStep s = .raised s (sequenceError 3)) ∨
      ∃ ct, s.ct = some ct ∧
        ((∃ A b B, s.buf .dbuf = A ++ b :: B ∧ (∀ a ∈ A, (ct.get a).isSome) ∧ ct.get b = none ∧
            encodeStep s = .raised s (invariantError A.length)) ∨
          (∀ b ∈ s.buf .dbuf, (ct.get b).isSome) ∧
            ((capOf s.caps .pbuf < (((s.buf .dbuf).flatMap (codeOf ct)).length + 7) / 8 ∧
                encodeStep s = .raised s (capacityError 3)) ∨
              ((((s.buf .dbuf).flatMap (codeOf ct)).length + 7) / 8 ≤ capOf s.caps .pbuf ∧
                encodeStep s = .done (s.commitPayload ((s.buf .dbuf).flatMap (codeOf ct)))))) := by
  rw [encodeStep, needCt]
  cases hc : s.ct with
  | none => exact .inl ⟨rfl, rfl⟩
  | some ct =>
    refine .inr ⟨ct, rfl, ?_⟩
    simp only []
    rcases encodeBits_cases ct (s.buf .dbuf) with ⟨hall, he⟩ | ⟨A, b, B, hD, hA, hb, he⟩
    · right
      refine ⟨hall, ?_⟩
      rw [he]
      simp only []
      have hlen : (padded ((s.buf .dbuf).flatMap (codeOf ct))).length / 8
          = (((s.buf .dbuf).flatMap (codeOf ct)).length + 7) / 8 := by
        rw [← pack_length, pack_padded_length]
      rw [hlen]
      by_cases hcap : (((s.buf .dbuf).flatMap (codeOf ct)).length + 7) / 8 > capOf s.caps .pbuf
      · exact .inl ⟨hcap, if_pos hcap⟩
      · exact .inr ⟨Nat.le_of_not_lt hcap, if_neg hcap⟩
    · left
      exact ⟨A, b, B, hD, hA, hb, by rw [he]⟩

theorem decodeStep_some {s : State} {st : NodeStore} {T : CodeTree} (hs : s.tree = some st) (hT : st.tree? = some T) :
    (capOf s.caps .dbuf < s.contentLen.toNat ∧ decodeStep s = .raised s (capacityError 1)) ∨
      s.contentLen.toNat ≤ capOf s.caps .dbuf ∧
        ((∃ e, decodeBytes (s.buf .pbuf) T s.contentLen.toNat = .error e ∧ decodeStep s = .raised s e) ∨
          ∃ D, decodeBytes (s.buf .pbuf) T s.contentLen.toNat = .ok D ∧ D.length = s.contentLen.toNat ∧
            decodeStep s = .done (s.setBuf .dbuf D)) := by
  rw [decodeStep, needTree_some hs hT]
  by_cases hcap : s.contentLen.toNat > capOf s.caps .dbuf
  · exact .inl ⟨hcap, if_pos hcap⟩
  · refine .inr ⟨Nat.le_of_not_lt hcap, ?_⟩
    rw [if_neg hcap]
    cases hd : decodeBytes (s.buf .pbuf) T s.contentLen.toNat with
    | error e => exact .inl ⟨e, rfl, rfl⟩
    | ok D => exact .inr ⟨D, rfl, decodeLoop_length (Nat.zero_le _) hd, rfl⟩

theorem asmStep_some {s : State} {st : NodeStore} {T : CodeTree} (hs : s.tree = some st) (hT : st.tree? = some T) :
    (capOf s.caps .fbuf < 8 + T.ser.length + (s.buf .pbuf).length ∧ asmStep s = .raised s (capacityError 4)) ∨
      (8 + T.ser.length + (s.buf .pbuf).length ≤ capOf s.caps .fbuf ∧
        asmStep s = .done ((s.setBuf .tbuf T.ser).setBuf .fbuf (containerBytes T.ser s.contentLen (s.buf .pbuf)))) := by
  rw [asmStep, needTree_some hs hT]
  by_cases hcap : 8 + T.ser.length + (s.buf .pbuf).length > capOf s.caps .fbuf
  · exact .inl ⟨hcap, if_pos hcap⟩
  · exact .inr ⟨Nat.le_of_not_lt hcap, if_neg hcap⟩

theorem deserStep_cases (s : State) :
    (∃ e, readTree (s.buf .tbuf) = .error e ∧ deserStep s = .raised s e) ∨
      ∃ r, readTree (s.buf .tbuf) = .ok r ∧ deserStep s = .done (s.commitTree r) := by
  rw [deserStep]
  cases readTree (s.buf .tbuf) with
  | error e => exact .inl ⟨e, rfl, rfl⟩
  | ok r => exact .inr ⟨r, rfl, rfl⟩

theorem parseStep_cases (s : State) :
    (∃ e, parseContainer s.caps (s.buf .fbuf) = .error e ∧ parseStep s = .raised s e) ∨
      ∃ p, parseContainer s.caps (s.buf .fbuf) = .ok p ∧ parseStep s = .done (s.commitParsed p) := by
  rw [parseStep]
  cases parseContainer s.caps (s.buf .fbuf) with
  | error e => exact .inl ⟨e, rfl, rfl⟩
  | ok p => exact .inr ⟨p, rfl, rfl⟩

/-! ### Taking an error -/

/-- The bits of ERRLOG that were set stay set, and the bit of the error is set (R42). -/
theorem logError_getLsbD (log : Word) (code : BitVec 4) (i : Nat) :
    (logError log code).getLsbD i = (log.getLsbD i || decide (i = code.toNat)) := by
  have hc := code.isLt
  rw [logError, BitVec.getLsbD_or, BitVec.getLsbD_shiftLeft]
  by_cases h : i = code.toNat
  · subst h
    simp
    omega
  · by_cases h' : code.toNat ≤ i
    · have : i - code.toNat ≠ 0 := by omega
      simp [h, BitVec.getLsbD_one, this]
    · simp [h]; omega

/-- The error report of a command that completed (R40, R41). -/
theorem statusOk_succeed {s : State} (h : s.errlog &&& 0x1FE#32 = s.errlog) : statusOk s.succeed :=
  ⟨(by decide : (0#4).toNat ≤ 8), (by decide : legalSub 0#4 0#4 = true), fun _ => rfl, h, fun hne => absurd rfl hne⟩

/-- An error with a sub-cause of its own is an error report the block can give (R231, R232, R42). -/
theorem statusOk_takeError {s : State} {e : CmdError} (h : s.errlog &&& 0x1FE#32 = s.errlog)
    (hsub : legalSub e.kind.code e.sub = true) : statusOk (s.takeError e) := by
  have hk : ∀ k : ErrorKind, k.code.toNat ≤ 8 ∧ k.code ≠ 0 ∧ (1#32 <<< k.code.toNat) &&& 0x1FE#32 = 1#32 <<< k.code.toNat := by
    intro k; cases k <;> decide
  refine ⟨(hk e.kind).1, hsub, fun h0 => absurd h0 (hk e.kind).2.1, ?_, fun _ => ?_⟩
  · rw [State.takeError_errlog, logError, BitVec.and_or_distrib_right, h, (hk e.kind).2.2]
  · rw [State.takeError_errlog, State.takeError_err, logError_getLsbD]; simp

end Sys2Proof.Machine
end

