-- ==== Sys2Proof/Laws/HostAccess.lean ====
section
/-! SUPPORT. The host operations: what each of them does, and that they keep memory well formed (47_host_access.md). -/

namespace Sys2Proof.Machine

@[simp] theorem bufOfId_bufId (b : Buf) : bufOfId (bufId b) = some b := by cases b <;> rfl

theorem bufOfId_eq_some {id : Nat} {b : Buf} : bufOfId id = some b ↔ id = bufId b := by
  constructor
  · intro h
    rw [bufOfId.eq_def] at h
    split at h <;> cases h <;> rfl
  · rintro rfl; exact bufOfId_bufId b

/-- An id outside 0 to 3 names no buffer (R24, R219). -/
theorem bufOfId_eq_none {id : Nat} : bufOfId id = none ↔ 4 ≤ id := by
  constructor
  · intro h
    by_contra hlt
    have : id = 0 ∨ id = 1 ∨ id = 2 ∨ id = 3 := by omega
    rcases this with rfl | rfl | rfl | rfl <;> cases h
  · intro h
    cases hb : bufOfId id with
    | none => rfl
    | some b => rw [bufOfId_eq_some] at hb; cases b <;> simp only [bufId] at hb <;> omega

/-- A number outside 0x00 to 0x0F names no register (R38). -/
theorem regOfNumber_eq_none {r : Nat} : regOfNumber r = none ↔ 16 ≤ r := by
  constructor
  · intro h
    by_contra hlt
    have : r < 16 := by omega
    interval_cases r <;> cases h
  · intro h
    rw [regOfNumber.eq_def]
    split <;> first | omega | rfl

theorem hostClear_id (b : Buf) (s : State) : hostClear (bufId b) s = (s.setBuf b []).respond .ok := by
  rw [hostClear, bufOfId_bufId]

/-- H.PUSH appends one byte to a buffer that is not full (R212). -/
theorem hostPush_room {b : Buf} {v : Nat} {s : State} (hv : v < 256) (room : (s.buf b).length < capOf s.caps b) :
    hostPush (bufId b) v s = (s.setBuf b (s.buf b ++ [BitVec.ofNat 8 v])).respond .ok := by
  rw [hostPush, bufOfId_bufId]
  exact if_pos ⟨hv, room⟩

/-- H.PUSH appends a byte that fits, or is refused. -/
theorem hostPush_cases (id v : Nat) (s : State) :
    (∃ b, id = bufId b ∧ v < 256 ∧ (s.buf b).length < capOf s.caps b ∧
        hostPush id v s = (s.setBuf b (s.buf b ++ [BitVec.ofNat 8 v])).respond .ok) ∨ hostPush id v s = s.refuse := by
  cases hb : bufOfId id with
  | none => exact .inr (by rw [hostPush, hb])
  | some b =>
    rw [bufOfId_eq_some] at hb
    subst hb
    by_cases h : v < 256 ∧ (s.buf b).length < capOf s.caps b
    · exact .inl ⟨b, rfl, h.1, h.2, hostPush_room h.1 h.2⟩
    · right
      rw [hostPush, bufOfId_bufId]
      exact if_neg h

theorem hostPush_wf {id v : Nat} {s : State} (h : s.mem.wf s.caps = true) :
    (hostPush id v s).mem.wf (hostPush id v s).caps = true := by
  rcases hostPush_cases id v s with ⟨b, _, _, room, hp⟩ | hp
  · rw [hp]
    exact Memory.wf_put h (by rw [List.length_append, List.length_singleton]; exact room)
  · rw [hp]; exact h

theorem hostClear_wf {id : Nat} {s : State} (h : s.mem.wf s.caps = true) :
    (hostClear id s).mem.wf (hostClear id s).caps = true := by
  rw [hostClear]
  split
  · exact h
  · exact Memory.wf_put h (Nat.zero_le _)

theorem hostReset_wf (s : State) : (hostReset s).mem.wf (hostReset s).caps = true := Memory.wf_empty s.caps

/-- The reads answer with a response and change nothing else (R66, R213, R214, R216 to R218). -/
theorem hostRead_respond (op : HostOp) (s : State)
    (h : match op with | .rdbyte _ _ | .rdreg _ | .rdwt _ | .rdct _ | .rdnode _ => True | _ => False) :
    ∃ r, hostOp op s = .next (s.respond r) := by
  cases op with
  | reset => exact h.elim
  | clear b => exact h.elim
  | push b v => exact h.elim
  | wrreg r v => exact h.elim
  | rdbyte b i =>
    simp only [hostOp, hostRdByte]
    split
    · exact ⟨_, rfl⟩
    · split <;> exact ⟨_, rfl⟩
  | rdreg r =>
    simp only [hostOp, hostRdReg]
    split
    · exact ⟨_, rfl⟩
    · split <;> exact ⟨_, rfl⟩
  | rdwt x =>
    simp only [hostOp, hostRdWt]
    split
    · split <;> exact ⟨_, rfl⟩
    · exact ⟨_, rfl⟩
  | rdct x =>
    simp only [hostOp, hostRdCt]
    split
    · split <;> exact ⟨_, rfl⟩
    · exact ⟨_, rfl⟩
  | rdnode i =>
    simp only [hostOp, hostRdNode]
    split
    · exact ⟨_, rfl⟩
    · split <;> exact ⟨_, rfl⟩

/-- H.WRREG writes CONTENT_LEN, issues a command, or is refused (R215). -/
theorem hostWrReg_cases (r v : Nat) (s : State) :
    (r = 0x04 ∧ v < 2 ^ 32 ∧ hostWrReg r v s = .next ({ s with contentLen := BitVec.ofNat 32 v }.respond .ok)) ∨
      (r = 0x00 ∧ v < 2 ^ 32 ∧ hostWrReg r v s = respondOk (issueCommand (BitVec.ofNat 32 v) s)) ∨
      ((2 ^ 32 ≤ v ∨ r ≠ 0x04 ∧ r ≠ 0x00) ∧ hostWrReg r v s = .next s.refuse) := by
  by_cases hv : v < 2 ^ 32
  · by_cases h4 : r = 4
    · subst h4; exact .inl ⟨rfl, hv, by rw [hostWrReg, if_pos hv]; rfl⟩
    · by_cases h0 : r = 0
      · subst h0; exact .inr (.inl ⟨rfl, hv, by rw [hostWrReg, if_pos hv]; rfl⟩)
      · refine .inr (.inr ⟨.inr ⟨h4, h0⟩, ?_⟩)
        rw [hostWrReg, if_pos hv]
        by_cases hr : r < 16
        · interval_cases r <;> first | rfl | exact absurd rfl h4 | exact absurd rfl h0
        · rw [regOfNumber_eq_none.2 (Nat.le_of_not_lt hr)]
  · exact .inr (.inr ⟨.inl (Nat.le_of_not_lt hv), by rw [hostWrReg, if_neg hv]⟩)

/-- The response of a command does not depend on its outcome (R215). -/
theorem respondOk_next {o : Host.Outcome State Fault Refusal} {t : State} (h : respondOk o = .next t) :
    ∃ u, o = .next u ∧ t = u.respond .ok := by
  cases o with
  | next u => cases h; exact ⟨u, rfl, rfl⟩
  | fault f => cases h
  | refused r => cases h

end Sys2Proof.Machine
end

