-- ==== Sys2Proof/Laws/Claims.lean ====
section
/-! SUPPORT. The words in which claims speak (Safety.lean) agree with the functions the model computes with. -/

namespace Sys2Proof.Machine

/-! ### Formats -/

theorem bitStream_nil : bitStream [] = [] := rfl

theorem bitStream_cons (b : Byte) (P : List Byte) : bitStream (b :: P) = bitsOfByte b ++ bitStream P := by
  have hsplit : List.range (8 * (b :: P).length) = List.range 8 ++ (List.range (8 * P.length)).map (8 + ·) := by
    rw [List.length_cons, show 8 * (P.length + 1) = 8 + 8 * P.length by ring, List.range_add]
  rw [bitStream, hsplit, List.map_append]
  congr 1
  rw [List.map_map, bitStream]
  apply List.map_congr_left
  intro k _
  simp only [Function.comp]
  rw [show (8 + k) / 8 = k / 8 + 1 by omega, show (8 + k) % 8 = k % 8 by omega, List.getElem?_cons_succ]

/-- The bit stream of a payload is its unpacking (R9, R63). -/
theorem bitStream_eq_unpack (P : List Byte) : bitStream P = unpack P := by
  induction P with
  | nil => rfl
  | cons b P ih => rw [bitStream_cons, ih, unpack_cons]

theorem fourBytes_eq_be32 (n : Nat) : fourBytes n = be32 (wordOfNat n) := by
  have part : ∀ k, k ≤ 24 → BitVec.ofNat 8 (n / 2 ^ k) = (wordOfNat n).extractLsb' k 8 := by
    intro k hk
    apply BitVec.eq_of_toNat_eq
    rw [BitVec.toNat_ofNat, BitVec.extractLsb'_toNat, wordOfNat, BitVec.toNat_ofNat, Nat.shiftRight_eq_div_pow]
    interval_cases k <;> omega
  have p0 := part 0 (by omega)
  rw [Nat.pow_zero, Nat.div_one] at p0
  rw [fourBytes, be32, part 24 (by omega), part 16 (by omega), part 8 (by omega), p0]

theorem recordsBytes_append (is js : List Instr) : recordsBytes (is ++ js) = recordsBytes is ++ recordsBytes js :=
  List.flatMap_append

/-- The serialized form of a tree is its records, each encoded as the opcode table says (R84, R85). -/
theorem recordsBytes_records (T : CodeTree) : recordsBytes T.records = T.ser := by
  induction T with
  | leaf v w => rfl
  | internal w l r hl hr =>
    rw [CodeTree.records, CodeTree.ser, ← hl, ← hr, ← recordsBytes_append]
    rfl

theorem containerBytes_eq (X : List Byte) (C : Word) (P : List Byte) :
    containerBytes X C P = fourBytes X.length ++ X ++ fourBytes C.toNat ++ P := by
  rw [containerBytes, fourBytes_eq_be32, fourBytes_eq_be32, wordOfNat_toNat]

/-! ### Outcomes -/

/-- A body that reached its end leaves the outcome the claims write with `after`. -/
theorem succeed_eq_after (s : State) : s.succeed = s.after s.lastop := rfl

/-- A body that raised leaves the outcome the claims write with `afterError`. -/
theorem takeError_eq_afterError (s : State) (e : CmdError) :
    s.takeError e = s.afterError s.lastop e.kind.code e.sub e.info := rfl

/-- Two buffers whose bytes all read the same are equal (R24). -/
theorem sameObj_buf {s t : State} {b : Buf} : sameObj s t (.buf b) ↔ t.buf b = s.buf b := by
  constructor
  · intro h; exact List.ext_getElem? h
  · intro h a
    show (t.buf b)[a]? = (s.buf b)[a]?
    rw [h]

theorem sameObj_refl (s : State) (o : Obj) : sameObj s s o := by
  cases o <;> first | exact fun _ => rfl | rfl

theorem sameObj_trans {s t u : State} {o : Obj} (h : sameObj s t o) (h' : sameObj t u o) : sameObj s u o := by
  cases o <;> first | exact fun a => (h' a).trans (h a) | exact Eq.trans h' h

/-! ### Codes -/

/-- The last visit of a byte value, found from the end (R133). -/
theorem lastCode_eq_find (cs : List (Byte × Bits)) (b : Byte) :
    lastCode cs b = (cs.reverse.find? fun p => decide (p.1 = b)).map Prod.snd := by
  rw [lastCode, ← List.head?_reverse, ← List.filter_reverse, List.head?_filter]

theorem codedAs_length {T : CodeTree} {D : List Byte} {cs : List Bits} (h : codedAs T D cs) : D.length = cs.length :=
  h.length_eq

/-- The bits of codes of a tree decode to the byte values they are the codes of (R146, R150). -/
theorem decodeLoop_codedAs {T : CodeTree} {want : Nat} {D : List Byte} {cs : List Bits} (h : codedAs T D cs) :
    ∀ {bits : Bits} {out : List Byte}, out.length + D.length ≤ want →
      decodeLoop T want T (cs.flatten ++ bits) out = decodeLoop T want T bits (out ++ D) := by
  induction h with
  | nil => intro bits out _; simp
  | @cons v c D cs hvc _ ih =>
    intro bits out hlen
    rw [List.length_cons] at hlen
    rw [List.flatten_cons, List.append_assoc, decodeLoop_code hvc (by omega), ih (by simp; omega), List.append_assoc,
      List.singleton_append]

end Sys2Proof.Machine
end

