-- ==== Sys2Proof/Laws/Exec.lean ====
section
/-! SUPPORT. What a whole command does: what its body keeps (10_state.md rule R47), how it ends (60_exceptions.md rule R235),
and, for the commands on containers, the state it ends in. -/

namespace Sys2Proof.Machine

/-! ### What a body keeps -/

/-- From s to t nothing changed but the objects of a list and the error report (R47, R238). -/
structure Keeps (objs : List Obj) (s t : State) : Prop where
  obj : ∀ o, o ∉ objs → sameObj s t o
  caps : t.caps = s.caps
  host : t.host = s.host
  response : t.response = s.response
  reading : t.reading = s.reading
  lastop : t.lastop = s.lastop
  errlog : t.errlog = s.errlog

theorem Keeps.refl (objs : List Obj) (s : State) : Keeps objs s s :=
  ⟨fun o _ => sameObj_refl s o, rfl, rfl, rfl, rfl, rfl, rfl⟩

theorem Keeps.trans {objs : List Obj} {s t u : State} (h : Keeps objs s t) (h' : Keeps objs t u) : Keeps objs s u :=
  ⟨fun o ho => sameObj_trans (h.obj o ho) (h'.obj o ho), h'.caps.trans h.caps, h'.host.trans h.host,
   h'.response.trans h.response, h'.reading.trans h.reading, h'.lastop.trans h.lastop, h'.errlog.trans h.errlog⟩

theorem Keeps.mono {objs more : List Obj} {s t : State} (h : Keeps objs s t) (hs : ∀ o ∈ objs, o ∈ more) : Keeps more s t :=
  ⟨fun o ho => h.obj o (fun x => ho (hs o x)), h.caps, h.host, h.response, h.reading, h.lastop, h.errlog⟩

/-- A body keeps everything but the objects of a list, whether it completes or raises (R237, R238). -/
def StepResult.keeps (objs : List Obj) (s : State) (r : StepResult) : Prop :=
  match r with
  | .done t => Keeps objs s t
  | .raised t _ => Keeps objs s t
  | .stuck _ => True

theorem StepResult.keeps.andThen {objs : List Obj} {s : State} {r : StepResult} {f : State → StepResult} (h : r.keeps objs s)
    (hf : ∀ u, (f u).keeps objs u) : (r.andThen f).keeps objs s := by
  cases r with
  | done u =>
    have := hf u
    show (f u).keeps objs s
    cases hh : f u with
    | done v => rw [hh] at this; exact Keeps.trans h this
    | raised v e => rw [hh] at this; exact Keeps.trans h this
    | stuck _ => trivial
  | raised u e => exact h
  | stuck x => trivial

theorem StepResult.keeps.mono {objs more : List Obj} {s : State} {r : StepResult} (h : r.keeps objs s)
    (hs : ∀ o ∈ objs, o ∈ more) : r.keeps more s := by
  cases r with
  | done u => exact Keeps.mono h hs
  | raised u e => exact Keeps.mono h hs
  | stuck x => trivial

theorem keeps_setBuf (s : State) (b : Buf) (X : List Byte) : Keeps [.buf b] s (s.setBuf b X) := by
  refine ⟨?_, rfl, rfl, rfl, rfl, rfl, rfl⟩
  intro o ho
  cases o with
  | buf c => rw [sameObj_buf]; exact State.buf_setBuf_other _ (by intro h; subst h; simp at ho) _
  | _ => rfl

theorem keeps_wt (s : State) (x : Option WeightTable) : Keeps [.wt] s { s with wt := x } := by
  refine ⟨fun o ho => ?_, rfl, rfl, rfl, rfl, rfl, rfl⟩
  cases o <;> first | rfl | exact absurd (List.mem_singleton_self _) ho | exact fun _ => rfl

theorem keeps_tree (s : State) (x : Option NodeStore) : Keeps [.tree] s { s with tree := x } := by
  refine ⟨fun o ho => ?_, rfl, rfl, rfl, rfl, rfl, rfl⟩
  cases o <;> first | rfl | exact absurd (List.mem_singleton_self _) ho | exact fun _ => rfl

theorem keeps_ct (s : State) (x : Option CodeTable) : Keeps [.ct] s { s with ct := x } := by
  refine ⟨fun o ho => ?_, rfl, rfl, rfl, rfl, rfl, rfl⟩
  cases o <;> first | rfl | exact absurd (List.mem_singleton_self _) ho | exact fun _ => rfl

theorem keeps_contentLen (s : State) (x : Word) : Keeps [.contentLen] s { s with contentLen := x } := by
  refine ⟨fun o ho => ?_, rfl, rfl, rfl, rfl, rfl, rfl⟩
  cases o <;> first | rfl | exact absurd (List.mem_singleton_self _) ho | exact fun _ => rfl

theorem keeps_consumed (s : State) (x : Word) : Keeps [.consumed] s { s with consumed := x } := by
  refine ⟨fun o ho => ?_, rfl, rfl, rfl, rfl, rfl, rfl⟩
  cases o <;> first | rfl | exact absurd (List.mem_singleton_self _) ho | exact fun _ => rfl

theorem keeps_clearObj (s : State) (o : Obj) : Keeps [o] s (clearObj s o) := by
  cases o
  · exact keeps_setBuf _ _ _
  · exact keeps_wt _ _
  · exact keeps_tree _ _
  · exact keeps_ct _ _
  · exact keeps_contentLen _ _
  · exact keeps_consumed _ _

theorem keeps_clearObjs (objs all : List Obj) (h : ∀ o ∈ objs, o ∈ all) : ∀ s : State, Keeps all s (clearObjs objs s) := by
  induction objs with
  | nil => intro s; exact Keeps.refl _ _
  | cons o objs ih =>
    intro s
    refine Keeps.trans ((keeps_clearObj s o).mono (by simp; exact h o (by simp))) (ih (fun o ho => h o (by simp [ho])) _)

theorem countStep_keeps (s : State) : (countStep s).keeps [.wt] s := keeps_wt _ _

theorem buildStep_keeps (s : State) : (buildStep s).keeps [.tree] s := by
  rcases buildStep_cases s with ⟨_, e⟩ | ⟨_, _, _, e⟩ | ⟨wt, _, hp, e⟩ <;> rw [e]
  · exact Keeps.refl _ _
  · exact Keeps.refl _ _
  · exact keeps_tree _ _

theorem genStep_keeps (s : State) : (genStep s).keeps [.ct] s := by
  rcases needTree_three s (fun T => .done { s with ct := some (genTable T) }) with ⟨_, e⟩ | ⟨_, _, _, _, e⟩ | e <;> rw [genStep, e]
  · exact Keeps.refl _ _
  · exact keeps_ct _ _
  · trivial

theorem encodeStep_keeps (s : State) : (encodeStep s).keeps [.buf .pbuf, .contentLen] s := by
  rcases encodeStep_cases s with ⟨_, e⟩ | ⟨ct, _, ⟨_, _, _, _, _, _, e⟩ | ⟨_, ⟨_, e⟩ | ⟨hle, e⟩⟩⟩ <;> rw [e]
  · exact Keeps.refl _ _
  · exact Keeps.refl _ _
  · exact Keeps.refl _ _
  · exact Keeps.trans ((keeps_setBuf s .pbuf _).mono (by simp)) ((keeps_contentLen _ _).mono (by simp))

theorem serStep_keeps (s : State) : (serStep s).keeps [.buf .tbuf] s := by
  rcases needTree_three s (fun T => .done (s.setBuf .tbuf T.ser)) with ⟨_, e⟩ | ⟨_, _, _, _, e⟩ | e <;> rw [serStep, e]
  · exact Keeps.refl _ _
  · exact keeps_setBuf _ _ _
  · trivial

theorem asmStep_keeps (s : State) : (asmStep s).keeps [.buf .tbuf, .buf .fbuf] s := by
  cases ht : s.tree with
  | none => have : asmStep s = .raised s (sequenceError 2) := by rw [asmStep, needTree, ht]
            rw [this]; exact Keeps.refl _ _
  | some st =>
    cases hT : st.tree? with
    | none => have : asmStep s = .stuck .brokenNodeStore := by simp only [asmStep, needTree, ht, hT]
              rw [this]; trivial
    | some T =>
      rcases asmStep_some ht hT with ⟨_, e⟩ | ⟨hle, e⟩ <;> rw [e]
      · exact Keeps.refl _ _
      · exact Keeps.trans ((keeps_setBuf s .tbuf _).mono (by simp)) ((keeps_setBuf _ .fbuf _).mono (by simp))

theorem decodeStep_keeps (s : State) : (decodeStep s).keeps [.buf .dbuf] s := by
  cases ht : s.tree with
  | none => have : decodeStep s = .raised s (sequenceError 2) := by rw [decodeStep, needTree, ht]
            rw [this]; exact Keeps.refl _ _
  | some st =>
    cases hT : st.tree? with
    | none => have : decodeStep s = .stuck .brokenNodeStore := by simp only [decodeStep, needTree, ht, hT]
              rw [this]; trivial
    | some T =>
      rcases decodeStep_some ht hT with ⟨_, e⟩ | ⟨_, ⟨e, hd, he⟩ | ⟨D, hd, hl, he⟩⟩
      · rw [e]; exact Keeps.refl _ _
      · rw [he]; exact Keeps.refl _ _
      · rw [he]; exact keeps_setBuf _ _ _

theorem keeps_commitTree (s : State) (r : TreeReading) : Keeps [.tree, .consumed] s (s.commitTree r) := by
  refine Keeps.trans (t := { s with tree := some { nodes := r.nodes, root := 0 } }) ((keeps_tree s _).mono (by intro o h; simp_all)) ?_
  exact (keeps_consumed { s with tree := some { nodes := r.nodes, root := 0 } } (wordOfNat r.cur)).mono (by intro o h; simp_all)

theorem deserStep_keeps (s : State) : (deserStep s).keeps [.tree, .consumed] s := by
  rcases deserStep_cases s with ⟨e, he, hs⟩ | ⟨r, hr, hs⟩ <;> rw [hs]
  · exact Keeps.refl _ _
  · exact keeps_commitTree _ _

theorem parseStep_keeps (s : State) : (parseStep s).keeps (destinations .parse) s := by
  rcases parseStep_cases s with ⟨e, he, hs⟩ | ⟨p, hp, hs⟩ <;> rw [hs]
  · exact Keeps.refl _ _
  · refine Keeps.trans (((keeps_setBuf s .tbuf p.treeBytes).mono (by simp [destinations])).trans ((keeps_setBuf _ .pbuf p.payload).mono (by simp [destinations]))) ?_
    exact Keeps.trans ((keeps_commitTree _ _).mono (by simp [destinations])) ((keeps_contentLen _ _).mono (by simp [destinations]))

theorem compressStep_keeps (s : State) : (compressStep s).keeps (destinations .compress) s := by
  rw [compressStep]
  split
  · exact Keeps.refl _ _
  · refine StepResult.keeps.andThen (StepResult.keeps.andThen (StepResult.keeps.andThen ((countStep_keeps s).mono (by simp [destinations])) ?_) ?_) ?_
    · intro u; exact (buildStep_keeps u).mono (by simp [destinations])
    · intro u; exact (genStep_keeps u).mono (by simp [destinations])
    · intro u
      refine StepResult.keeps.andThen ((encodeStep_keeps u).mono (by simp [destinations])) ?_
      intro u; exact (asmStep_keeps u).mono (by simp [destinations])

theorem decompressStep_keeps (s : State) : (decompressStep s).keeps (destinations .decompress) s := by
  refine StepResult.keeps.andThen ((parseStep_keeps s).mono (by simp [destinations])) ?_
  intro u; exact (decodeStep_keeps u).mono (by simp [destinations])

/-- A command that answers a next state: it changes its destinations alone, and its error report is the one of R235 step 6. -/
theorem frame_keeps {i : Instr} {op : Byte} {body : State → StepResult} {s t : State}
    (hb : ∀ u, (body u).keeps (destinations i) u) (h : frame i op body s = .next t) :
    (∀ o, o ∉ destinations i → sameObj s t o) ∧ t.caps = s.caps ∧ t.host = s.host ∧ t.response = s.response ∧
      t.reading = s.reading ∧ t.lastop = op ∧ (t.err = 0 → t.sub = 0 ∧ t.errinfo = 0 ∧ t.errlog = s.errlog) ∧
      (t.err ≠ 0 → t.errlog = s.errlog ||| (1#32 <<< t.err.toNat)) := by
  have ho : Keeps (destinations i) { s with lastop := op } (openFrame i op s) := keeps_clearObjs _ _ (fun _ h => h) _
  have hk := hb (openFrame i op s)
  rcases finish_next h with ⟨u, hu, rfl⟩ | ⟨u, e, hu, rfl⟩
  · rw [hu] at hk
    have := ho.trans hk
    exact ⟨this.obj, this.caps, this.host, this.response, this.reading, this.lastop, fun _ => ⟨rfl, rfl, this.errlog⟩, fun h => absurd rfl h⟩
  · rw [hu] at hk
    have := ho.trans hk
    refine ⟨this.obj, this.caps, this.host, this.response, this.reading, this.lastop, fun h => ?_, fun _ => ?_⟩
    · exfalso; revert h; show e.kind.code = 0 → _; cases e.kind <;> decide
    · show logError u.errlog e.kind.code = _
      rw [this.errlog]; rfl

/-- Every command is the frame of R235 with its opcode around a body that keeps all but its destinations. -/
theorem exec_frame {i : Instr} {w : Word} (h : encode i = .command w) :
    ∃ body, (∀ s, exec i s = frame i (w.extractLsb' 0 8) body s) ∧ ∀ u, (body u).keeps (destinations i) u := by
  cases i with
  | count => cases h; exact ⟨_, fun _ => rfl, countStep_keeps⟩
  | build => cases h; exact ⟨_, fun _ => rfl, buildStep_keeps⟩
  | gen => cases h; exact ⟨_, fun _ => rfl, genStep_keeps⟩
  | encode => cases h; exact ⟨_, fun _ => rfl, encodeStep_keeps⟩
  | ser => cases h; exact ⟨_, fun _ => rfl, serStep_keeps⟩
  | asm => cases h; exact ⟨_, fun _ => rfl, asmStep_keeps⟩
  | parse => cases h; exact ⟨_, fun _ => rfl, parseStep_keeps⟩
  | deser => cases h; exact ⟨_, fun _ => rfl, deserStep_keeps⟩
  | decode => cases h; exact ⟨_, fun _ => rfl, decodeStep_keeps⟩
  | compress => cases h; exact ⟨_, fun _ => rfl, compressStep_keeps⟩
  | decompress => cases h; exact ⟨_, fun _ => rfl, decompressStep_keeps⟩
  | tagInternal => cases h
  | tagLeaf v => cases h

/-! ### How a command ends -/

/-- On an error the body leaves the state it was given: what a command without inner steps leaves is then what the frame
cleared (R237). -/
def raisesHere (body : State → StepResult) : Prop := ∀ u v e, body u = .raised v e → v = u

theorem buildStep_raises : raisesHere buildStep := by
  intro u v e h
  rcases buildStep_cases u with ⟨_, h'⟩ | ⟨_, _, _, h'⟩ | ⟨wt, _, hp, h'⟩ <;> rw [h'] at h <;> cases h <;> rfl

theorem needTree_raised {s v : State} {e : CmdError} {b : CodeTree → StepResult} (h : needTree s b = .raised v e)
    (hb : ∀ T v e, b T = .raised v e → v = s) : v = s := by
  rcases needTree_three s b with ⟨_, h'⟩ | ⟨_, T, _, _, h'⟩ | h' <;> rw [h'] at h
  · cases h; rfl
  · exact hb T v e h
  · cases h

theorem genStep_raises : raisesHere genStep := by
  intro u v e h; exact needTree_raised h (by intro _ _ _ h; cases h)

theorem serStep_raises : raisesHere serStep := by
  intro u v e h; exact needTree_raised h (by intro _ _ _ h; cases h)

theorem asmStep_raises : raisesHere asmStep := by
  intro u v e h; exact needTree_raised h (by intro _ _ _ h; split at h <;> cases h; rfl)

theorem decodeStep_raises : raisesHere decodeStep := by
  intro u v e h; refine needTree_raised h ?_
  intro _ _ _ h; split at h
  · cases h; rfl
  · split at h <;> cases h; rfl

theorem encodeStep_raises : raisesHere encodeStep := by
  intro u v e h
  rcases encodeStep_cases u with ⟨_, h'⟩ | ⟨ct, _, ⟨_, _, _, _, _, _, h'⟩ | ⟨_, ⟨_, h'⟩ | ⟨hle, h'⟩⟩⟩ <;> rw [h'] at h <;> cases h <;> rfl

theorem deserStep_raises : raisesHere deserStep := by
  intro u v e h
  rcases deserStep_cases u with ⟨_, _, h'⟩ | ⟨_, _, h'⟩ <;> rw [h'] at h <;> cases h
  rfl

theorem parseStep_raises : raisesHere parseStep := by
  intro u v e h
  rcases parseStep_cases u with ⟨_, _, h'⟩ | ⟨_, _, h'⟩ <;> rw [h'] at h <;> cases h
  rfl

/-- A command that faulted: its body raised an error (R235 step 6). -/
theorem frame_fault {i : Instr} {op : Byte} {body : State → StepResult} {s t : State} (h : frame i op body s = .next t)
    (he : t.err ≠ 0) : ∃ u e, body (openFrame i op s) = .raised u e ∧ t = u.takeError e := by
  rcases finish_next h with ⟨u, hu, rfl⟩ | h
  · exact absurd rfl he
  · exact h

/-- After a fault of a command without inner steps: the opened frame with the error report (R237). -/
theorem frame_opened {i : Instr} {op : Byte} {body : State → StepResult} {s t : State} (hr : raisesHere body)
    (h : frame i op body s = .next t) (he : t.err ≠ 0) : ∃ e, t = (openFrame i op s).takeError e := by
  obtain ⟨u, e, h1, h2⟩ := frame_fault h he
  exact ⟨e, by rw [h2, hr _ _ _ h1]⟩

/-! ### The commands on trees and containers -/

/-- SER of a tree (R161). -/
theorem exec_ser {s : State} {st : NodeStore} {T : CodeTree} (hs : s.tree = some st) (hT : st.tree? = some T) :
    exec .ser s = .next ({ s with mem := { s.mem with tbuf := T.ser } }.after 0x05) := by
  have : serStep (openFrame .ser 5 s) = .done ((openFrame .ser 5 s).setBuf .tbuf T.ser) := by
    rw [serStep, needTree_some (s := openFrame .ser 5 s) (st := st) (T := T) hs hT]
  rw [exec, execSer, frame, this]; rfl

/-- DESER by what the reading of TBUF gives (R163). -/
theorem exec_deser (s : State) :
    exec .deser s =
      match readTree s.mem.tbuf with
      | .ok r => .next ({ s with tree := some { nodes := r.nodes, root := 0 }, consumed := wordOfNat r.cur }.after 8)
      | .error e => .next ({ s with tree := none, consumed := 0 }.afterError 0x08 e.kind.code e.sub e.info) := by
  have hb : (openFrame .deser 8 s).buf .tbuf = s.mem.tbuf := rfl
  rw [exec, execDeser, frame]
  rcases deserStep_cases (openFrame .deser 8 s) with ⟨e, he, hs⟩ | ⟨r, hr, hs⟩
  · rw [hb] at he; rw [hs, he]; rfl
  · rw [hb] at hr; rw [hs, hr]; rfl

/-- PARSE by what the sequential tests on FBUF give (R184). -/
theorem exec_parse (s : State) :
    exec .parse s =
      match parseContainer s.caps s.mem.fbuf with
      | .ok p =>
        .next ({ s with mem := { s.mem with tbuf := p.treeBytes, pbuf := p.payload }
                        tree := some { nodes := p.reading.nodes, root := 0 }
                        consumed := wordOfNat p.reading.cur
                        contentLen := p.contentLen }.after 7)
      | .error e =>
        .next ({ s with mem := { s.mem with tbuf := [], pbuf := [] }, tree := none, consumed := 0,
                        contentLen := 0 }.afterError 0x07 e.kind.code e.sub e.info) := by
  have hb : (openFrame .parse 7 s).buf .fbuf = s.mem.fbuf := rfl
  have hc : (openFrame .parse 7 s).caps = s.caps := rfl
  rw [exec, execParse, frame]
  rcases parseStep_cases (openFrame .parse 7 s) with ⟨e, he, hs⟩ | ⟨r, hr, hs⟩
  · rw [hb, hc] at he; rw [hs, he]; rfl
  · rw [hb, hc] at hr; rw [hs, hr]; rfl

/-- ASM of a tree (R181). -/
theorem exec_asm {s : State} {st : NodeStore} {T : CodeTree} (hs : s.tree = some st) (hT : st.tree? = some T) :
    exec .asm s =
      if s.caps.fbuf.toNat < 8 + T.ser.length + s.mem.pbuf.length then
        .next ({ s with mem := { s.mem with tbuf := [], fbuf := [] } }.afterError 0x06 7 4 0)
      else
        .next ({ s with mem := { s.mem with tbuf := T.ser
                                            fbuf := containerBytes T.ser s.contentLen s.mem.pbuf } }.after 0x06) := by
  rw [exec, execAsm, frame]
  have hc : (openFrame .asm 6 s).caps = s.caps := rfl
  have hb : (openFrame .asm 6 s).buf .pbuf = s.mem.pbuf := rfl
  rcases asmStep_some (s := openFrame .asm 6 s) hs hT with ⟨h, e⟩ | ⟨h, e⟩ <;> rw [hc, hb] at h <;> rw [e]
  · rw [if_pos (show s.caps.fbuf.toNat < _ from h)]; rfl
  · rw [if_neg (show ¬ s.caps.fbuf.toNat < _ from Nat.not_lt.2 h)]; rfl

theorem presentSyms_countTable {D : List Byte} (h : D.length < 2 ^ 32) (hne : D ≠ []) : presentSyms (countTable D) ≠ [] := by
  obtain ⟨b, D', rfl⟩ := List.exists_cons_of_ne_nil hne
  have := present_of_mem h (b := b) (by simp)
  intro h0
  have := mem_presentSyms.2 this
  rw [h0] at this; cases this

/-- The state COMPRESS has reached when COUNT, BUILD and GEN are done, T being the tree BUILD made (R200). -/
def State.withTables (u : State) (T : CodeTree) : State :=
  { u with wt := some (countTable (u.buf .dbuf)), tree := some (buildStore (countTable (u.buf .dbuf))), ct := some (genTable T) }

/-- On a non-empty DBUF the first three steps of COMPRESS complete, and the other two run on what they leave (R200, R201). -/
theorem compressStep_eq {u : State} (hw : u.mem.wf u.caps = true) (hne : u.buf .dbuf ≠ []) :
    ∃ T, (buildStore (countTable (u.buf .dbuf))).tree? = some T ∧ (buildStore (countTable (u.buf .dbuf))).valid ∧
      compressStep u = (encodeStep (u.withTables T)).andThen asmStep := by
  have hl : (u.buf .dbuf).length < 2 ^ 32 := Memory.length_lt hw .dbuf
  have hp := presentSyms_countTable hl hne
  obtain ⟨T, hT, _⟩ := buildStore_tree hp
  refine ⟨T, hT, buildStore_valid hp, ?_⟩
  have h : ((countStep u).andThen buildStep).andThen genStep = .done (u.withTables T) := by
    rw [countStep_eq, andThen_done, buildStep, needWt]
    simp only [if_neg hp, andThen_done]
    rw [genStep, needTree_some (st := buildStore (countTable (u.buf .dbuf))) rfl hT]
    rfl
  rw [compressStep, if_neg hne, h]; rfl

/-- Every byte of D has a code in the table made from the tree of D (R142). -/
theorem genTable_covers {D : List Byte} {T : CodeTree} (hl : D.length < 2 ^ 32) (hne : D ≠ [])
    (hT : (buildStore (countTable D)).tree? = some T) : ∀ b ∈ D, ((genTable T).get b).isSome := by
  intro b hb
  obtain ⟨T', hT', _, _, h⟩ := buildStore_tree (presentSyms_countTable hl hne)
  rw [hT] at hT'; cases hT'
  obtain ⟨c, hc⟩ := genTable_isSome (h b (present_of_mem hl hb))
  rw [hc]; rfl

/-- ENCODE when every byte of DBUF has a code (R141). -/
theorem encodeStep_some {s : State} {C : CodeTable} (hc : s.ct = some C) (hall : ∀ b ∈ s.buf .dbuf, (C.get b).isSome) :
    (capOf s.caps .pbuf < (((s.buf .dbuf).flatMap (codeOf C)).length + 7) / 8 ∧ encodeStep s = .raised s (capacityError 3)) ∨
      ((((s.buf .dbuf).flatMap (codeOf C)).length + 7) / 8 ≤ capOf s.caps .pbuf ∧
        encodeStep s = .done (s.commitPayload ((s.buf .dbuf).flatMap (codeOf C)))) := by
  rcases encodeStep_cases s with ⟨h0, _⟩ | ⟨ct, hct, ⟨A, b, B, hD, hA, hb, h'⟩ | ⟨_, h⟩⟩
  · rw [hc] at h0; cases h0
  · rw [hc] at hct; cases hct
    have := hall b (by rw [hD]; simp); rw [hb] at this; cases this
  · rw [hc] at hct; cases hct; exact h

/-- DECOMPRESS of a container that parses and decodes (R202). -/
theorem exec_decompress {s : State} {p : Parsed} {T : CodeTree} {D : List Byte}
    (hp : parseContainer s.caps s.mem.fbuf = .ok p) (hT : NodeStore.tree? { nodes := p.reading.nodes, root := 0 } = some T)
    (hc : p.contentLen.toNat ≤ s.caps.dbuf.toNat) (hd : decodeBytes p.payload T p.contentLen.toNat = .ok D) :
    exec .decompress s =
      .next ({ s with mem := { dbuf := D, tbuf := p.treeBytes, pbuf := p.payload, fbuf := s.mem.fbuf }
                      tree := some { nodes := p.reading.nodes, root := 0 }
                      contentLen := p.contentLen
                      consumed := wordOfNat p.reading.cur }.after 0x0B) := by
  have hs : parseStep (openFrame .decompress 0x0B s) = .done ((openFrame .decompress 0x0B s).commitParsed p) := by
    rw [parseStep]
    have : parseContainer (openFrame .decompress 0x0B s).caps ((openFrame .decompress 0x0B s).buf .fbuf) = .ok p := hp
    rw [this]
  rw [exec, execDecompress, frame, decompressStep, hs, andThen_done]
  have : decodeStep ((openFrame .decompress 0x0B s).commitParsed p) = .done (((openFrame .decompress 0x0B s).commitParsed p).setBuf .dbuf D) := by
    rw [decodeStep, needTree_some (s := (openFrame .decompress 0x0B s).commitParsed p) rfl hT]; refine (if_neg (Nat.not_lt.2 hc)).trans ?_
    have hd' : decodeBytes (((openFrame .decompress 0x0B s).commitParsed p).buf .pbuf) T ((openFrame .decompress 0x0B s).commitParsed p).contentLen.toNat = _ := hd
    rw [hd']
  rw [this]; rfl

end Sys2Proof.Machine
end

