-- ==== Sys2Proof/Laws/PerInstr.lean ====
section
/-! SUPPORT. One lemma for each instruction: decoding its encoding gives it back (30_encoding.md rules R80, R81, R85). -/

namespace Sys2Proof.Laws.Encoding

/-- The instruction is well formed, and what its encoding decodes to is that instruction. -/
def Statement (i : Instr) : Prop := i.wellFormed = true ∧ decode (encode i) = .ok i

theorem count : Statement .count := ⟨rfl, rfl⟩
theorem build : Statement .build := ⟨rfl, rfl⟩
theorem gen : Statement .gen := ⟨rfl, rfl⟩
theorem encode : Statement .encode := ⟨rfl, rfl⟩
theorem ser : Statement .ser := ⟨rfl, rfl⟩
theorem asm : Statement .asm := ⟨rfl, rfl⟩
theorem parse : Statement .parse := ⟨rfl, rfl⟩
theorem deser : Statement .deser := ⟨rfl, rfl⟩
theorem decode : Statement .decode := ⟨rfl, rfl⟩
theorem compress : Statement .compress := ⟨rfl, rfl⟩
theorem decompress : Statement .decompress := ⟨rfl, rfl⟩
theorem tagInternal : Statement .tagInternal := ⟨rfl, rfl⟩
theorem tagLeaf (v : Byte) : Statement (.tagLeaf v) := ⟨rfl, rfl⟩

end Sys2Proof.Laws.Encoding
end

