-- ==== Sys2Proof/Tests/Slice0.lean ====
section
/-! SUPPORT. Tests on fixed values, and for every statement with hypotheses a state and operands that meet them. The expected
values are those of 95_test_vectors.md (vectors V1 to V15, programs P1 to P5) and of the encodings of 30_encoding.md rules
R80 and R85, written out by hand. -/

namespace Sys2Proof.Tests

open Sys2Proof Sys2Proof.Machine

set_option Elab.async false

/-! ### WellFormed: operands outside their ranges are refused -/

theorem test_wf_clear : HostOp.wellFormed (.clear 4) = false ∧ HostOp.wellFormed (.clear 3) = true := by decide
theorem test_wf_push : HostOp.wellFormed (.push 4 0) = false ∧ HostOp.wellFormed (.push 0 256) = false ∧
    HostOp.wellFormed (.push 3 255) = true := by decide
theorem test_wf_rdbyte : HostOp.wellFormed (.rdbyte 4 0) = false ∧ HostOp.wellFormed (.rdbyte 0 1000) = true := by decide
theorem test_wf_rdreg : HostOp.wellFormed (.rdreg 16) = false ∧ HostOp.wellFormed (.rdreg 15) = true := by decide
theorem test_wf_wrreg : HostOp.wellFormed (.wrreg 16 0) = false ∧ HostOp.wellFormed (.wrreg 4 4294967296) = false ∧
    HostOp.wellFormed (.wrreg 4 4294967295) = true := by decide
theorem test_wf_rdwt : HostOp.wellFormed (.rdwt 256) = false ∧ HostOp.wellFormed (.rdwt 255) = true := by decide
theorem test_wf_rdct : HostOp.wellFormed (.rdct 256) = false ∧ HostOp.wellFormed (.rdct 255) = true := by decide
theorem test_wf_capacities : Capacities.legal { dbuf := 0, tbuf := 766, pbuf := 0, fbuf := 0 } = false ∧
    Capacities.legal { dbuf := 0, tbuf := 767, pbuf := 0, fbuf := 0 } = true := by decide

/-! ### Decode: the words of R80 and the bytes of R85, bit by bit -/

theorem test_decode_count : decode (.command 0b00000000000000000000000000000001) = .ok .count := rfl
theorem test_decode_build : decode (.command 0b00000000000000000000000000000010) = .ok .build := rfl
theorem test_decode_gen : decode (.command 0b00000000000000000000000000000011) = .ok .gen := rfl
theorem test_decode_encode : decode (.command 0b00000000000000000000000000000100) = .ok .encode := rfl
theorem test_decode_ser : decode (.command 0b00000000000000000000000000000101) = .ok .ser := rfl
theorem test_decode_asm : decode (.command 0b00000000000000000000000000000110) = .ok .asm := rfl
theorem test_decode_parse : decode (.command 0b00000000000000000000000000000111) = .ok .parse := rfl
theorem test_decode_deser : decode (.command 0b00000000000000000000000000001000) = .ok .deser := rfl
theorem test_decode_decode : decode (.command 0b00000000000000000000000000001001) = .ok .decode := rfl
theorem test_decode_compress : decode (.command 0b00000000000000000000000000001010) = .ok .compress := rfl
theorem test_decode_decompress : decode (.command 0b00000000000000000000000000001011) = .ok .decompress := rfl
theorem test_decode_tagInternal : decode (.record [0b00000000]) = .ok .tagInternal := rfl
theorem test_decode_tagLeaf : decode (.record [0b00000001, 0b01100001]) = .ok (.tagLeaf 0x61) := rfl
/-- V13: the words that are no command. -/
theorem test_decode_illegal :
    decode (.command 0x00000000) = .error .illegalCommand ∧
    decode (.command 0x0000000C) = .error .illegalCommand ∧
    decode (.command 0x000000FF) = .error .illegalCommand ∧
    decode (.command 0x00000101) = .error .illegalCommand ∧
    decode (.command 0x80000002) = .error .illegalCommand ∧
    decode (.command 0xFFFFFFFF) = .error .illegalCommand :=
  ⟨rfl, rfl, rfl, rfl, rfl, rfl⟩
theorem test_table_words : decodeTableWord 32 0x0000000A = some .compress ∧ decodeTableWord 8 0x00 = some .tagInternal ∧
    decodeTableWord 16 0x6201 = some (.tagLeaf 0x62) := by decide

/-! ### Small states -/

/-- The next state, where there is one. -/
def nextOf : Host.Outcome State Fault Refusal → Option State
  | .next s => some s
  | .fault _ => none
  | .refused _ => none

/-- The state an outcome ends in; the state after reset where it ends in none. -/
def ended (o : Host.Outcome State Fault Refusal) : State := (nextOf o).getD State.reset

theorem next_ended {o : Host.Outcome State Fault Refusal} (h : (nextOf o).isSome = true) : o = .next (ended o) := by
  cases o with
  | next s => rfl
  | fault f => cases h
  | refused r => cases h

/-- An instance just large enough for "aaaab": five input bytes, one payload byte, a container of 14 bytes. -/
def tight : State := State.resetWith { dbuf := 5, tbuf := 767, pbuf := 1, fbuf := 14 }

/-- The same with four buffers' contents. -/
def withBufs (d t p f : List Byte) : State := { tight with mem := { dbuf := d, tbuf := t, pbuf := p, fbuf := f } }

def aaaab : List Byte := [0x61, 0x61, 0x61, 0x61, 0x62]
def abBytes : List Byte := [0x00, 0x01, 0x62, 0x01, 0x61]
def abFile : List Byte := [0, 0, 0, 5, 0x00, 0x01, 0x62, 0x01, 0x61, 0, 0, 0, 5, 0xF0]
def abWeights : WeightTable := ((ByteTable.const 0).set 0x61 4).set 0x62 1
def abStore : NodeStore := { nodes := [.leaf 0x61 4, .leaf 0x62 1, .internal 5 1 0], root := 2 }
def abTree : CodeTree := .internal 5 (.leaf 0x62 1) (.leaf 0x61 4)
def abCodes : CodeTable := ((ByteTable.const none).set 0x61 (some [true])).set 0x62 (some [false])
/-- The store DESER makes of `abBytes` (V7). -/
def abRead : NodeStore := { nodes := [.internal 0 1 2, .leaf 0x62 0, .leaf 0x61 0], root := 0 }
/-- A lone leaf (V7). -/
def lone : NodeStore := { nodes := [.leaf 0x41 0], root := 0 }

/-- "aaaab" counted and built. -/
def built : State := { withBufs aaaab [] [] [] with wt := some abWeights, tree := some abStore }
/-- "aaaab" encoded. -/
def encoded : State := { withBufs aaaab [] [0xF0] [] with wt := some abWeights, tree := some abStore, ct := some abCodes, contentLen := 5 }
/-- A payload to decode with a tree and a length. -/
def toDecode (st : NodeStore) (p : List Byte) (n : Word) : State :=
  { withBufs [] [] p [] with tree := some st, contentLen := n }

/-! ### One step of each instruction -/

/-- P1. -/
theorem test_count : nextOf (exec .count (withBufs aaaab [] [] [])) =
    some { withBufs aaaab [] [] [] with wt := some abWeights, lastop := 0x01 } := by decide +kernel
/-- V1, the empty row. -/
theorem test_count_empty : nextOf (exec .count tight) = some { tight with wt := some (ByteTable.const 0), lastop := 0x01 } := by
  decide +kernel
/-- P1. -/
theorem test_build : (ended (exec .build { built with tree := none })).tree = some abStore ∧
    (ended (exec .build { built with tree := none })).status = 0x00030200 := by decide +kernel
/-- V2, `FF`: the sentinel's value wraps. -/
theorem test_build_sentinel : (ended (exec .build { tight with wt := some ((ByteTable.const 0).set 0xFF 1) })).tree =
    some { nodes := [.leaf 0xFF 1, .leaf 0x00 0, .internal 1 0 1], root := 2 } := by decide +kernel
/-- P1. -/
theorem test_gen : (ended (exec .gen built)).ct = some abCodes ∧ (ended (exec .gen built)).status = 0x00070300 := by
  decide +kernel
/-- V3, the lone leaf. -/
theorem test_gen_lone : (ended (exec .gen (toDecode lone [] 0))).ct = some ((ByteTable.const none).set 0x41 (some [false])) := by
  decide +kernel
/-- P1. -/
theorem test_encode : nextOf (exec .encode { encoded with mem := { encoded.mem with pbuf := [] }, contentLen := 0 }) =
    some { encoded with lastop := 0x04 } := by decide +kernel
/-- V4, "aaxab" with the codes of "aaaab". -/
theorem test_encode_stale :
    (ended (exec .encode { encoded with mem := { encoded.mem with dbuf := [0x61, 0x61, 0x78, 0x61, 0x62] } })).status = 0x00070406 ∧
    (ended (exec .encode { encoded with mem := { encoded.mem with dbuf := [0x61, 0x61, 0x78, 0x61, 0x62] } })).errinfo = 2 := by
  decide +kernel
/-- P1. -/
theorem test_ser : nextOf (exec .ser built) =
    some { built with mem := { built.mem with tbuf := abBytes }, lastop := 0x05 } := by decide +kernel
/-- P1. -/
theorem test_asm : nextOf (exec .asm encoded) =
    some { encoded with mem := { encoded.mem with tbuf := abBytes, fbuf := abFile }, lastop := 0x06 } := by decide +kernel
/-- V8, the host-written content length. -/
theorem test_asm_length : (ended (exec .asm { encoded with contentLen := 0xFFFFFFFF })).mem.fbuf =
    [0, 0, 0, 5, 0x00, 0x01, 0x62, 0x01, 0x61, 0xFF, 0xFF, 0xFF, 0xFF, 0xF0] := by decide +kernel
/-- P2. -/
theorem test_parse : nextOf (exec .parse (withBufs [] [] [] abFile)) =
    some { withBufs [] abBytes [0xF0] abFile with tree := some abRead, consumed := 5, contentLen := 5, lastop := 0x07 } := by
  decide +kernel
/-- V9, one byte of the tree field left over. -/
theorem test_parse_leftover :
    (ended (exec .parse (withBufs [] [] [] [0, 0, 0, 6, 0x00, 0x01, 0x62, 0x01, 0x61, 0xFF, 0, 0, 0, 5, 0xF0]))).status = 0x00000732 ∧
    (ended (exec .parse (withBufs [] [] [] [0, 0, 0, 6, 0x00, 0x01, 0x62, 0x01, 0x61, 0xFF, 0, 0, 0, 5, 0xF0]))).errinfo = 5 := by
  decide +kernel
/-- V7: a byte after the tree is not read. -/
theorem test_deser : nextOf (exec .deser (withBufs [] (abBytes ++ [0xFF]) [] [])) =
    some { withBufs [] (abBytes ++ [0xFF]) [] [] with tree := some abRead, consumed := 5, lastop := 0x08 } := by decide +kernel
/-- V7, the right subtree missing. -/
theorem test_deser_short : (ended (exec .deser (withBufs [] [0x00, 0x01, 0x62] [] []))).status = 0x00000822 ∧
    (ended (exec .deser (withBufs [] [0x00, 0x01, 0x62] [] []))).errinfo = 3 := by decide +kernel
/-- P5: the pad bits are not read. -/
theorem test_decode_run : nextOf (exec .decode (toDecode abRead [0xF0] 5)) =
    some { toDecode abRead [0xF0] 5 with mem := { dbuf := aaaab, tbuf := [], pbuf := [0xF0], fbuf := [] }, lastop := 0x09 } := by
  decide +kernel
/-- V5, the lone leaf with a 1 bit. -/
theorem test_decode_lone : (ended (exec .decode (toDecode lone [0x20] 3))).status = 0x00020924 ∧
    (ended (exec .decode (toDecode lone [0x20] 3))).errinfo = 2 := by decide +kernel
/-- V10. -/
theorem test_compress : nextOf (exec .compress (withBufs aaaab [] [] [])) =
    some { encoded with mem := { encoded.mem with tbuf := abBytes, fbuf := abFile }, lastop := 0x0A } := by decide +kernel
/-- V14 and E4. -/
theorem test_compress_empty : (ended (exec .compress tight)).status = 0x00000A01 ∧
    (ended (exec .compress tight)).errlog = 0x00000002 := by decide +kernel
/-- P2. -/
theorem test_decompress : nextOf (exec .decompress (withBufs [] [] [] abFile)) =
    some { withBufs aaaab abBytes [0xF0] abFile with tree := some abRead, consumed := 5, contentLen := 5, lastop := 0x0B } := by
  decide +kernel
/-- V11, the payload missing: the PARSE step stays committed. -/
theorem test_decompress_short : (ended (exec .decompress (withBufs [] [] [] (abFile.take 13)))).status = 0x00020B14 ∧
    (ended (exec .decompress (withBufs [] [] [] (abFile.take 13)))).mem = { dbuf := [], tbuf := abBytes, pbuf := [], fbuf := abFile.take 13 } := by
  decide +kernel
/-- R163: the first record of `abBytes`. -/
theorem test_tagInternal : (ended (exec .tagInternal (withBufs [] abBytes [] []).openDeser)).reading =
    { cur := 1, nodes := [.internal 0 0 0], todo := [.left 0, .right 0] } := by decide +kernel
/-- R163: its second record. -/
theorem test_tagLeaf : (ended (exec (.tagLeaf 0x62) { withBufs [] abBytes [] [] with
      reading := { cur := 1, nodes := [.internal 0 0 0], todo := [.left 0, .right 0] } })).reading =
    { cur := 3, nodes := [.internal 0 1 0, .leaf 0x62 0], todo := [.right 0] } := by decide +kernel

/-! ### Host operations (V12, V13) -/

theorem test_rdnode : (ended (hostOp (.rdnode 2) built)).response =
    some (.okNode { kind := 0, sym := 0, weight := 5, left := 1, right := 0 }) := by decide +kernel
theorem test_rdct : (ended (hostOp (.rdct 0x61) encoded)).response = some (.okCode 1 1 (1#255 <<< 254)) := by decide +kernel
theorem test_push_full : (ended (hostOp (.push 0 0x62) (withBufs aaaab [] [] []))).response = some .refused := by decide +kernel
theorem test_illegal_word : (ended (hostOp (.wrreg 0 0x101) { tight with wt := some (ByteTable.const 0) })).status = 0x00010108 ∧
    (ended (hostOp (.wrreg 0 0x101) { tight with wt := some (ByteTable.const 0) })).errinfo = 0x101 ∧
    (ended (hostOp (.wrreg 0 0x101) { tight with wt := some (ByteTable.const 0) })).errlog = 0x100 := by decide +kernel

/-! ### States that meet the invariant -/

theorem tight_inv : tight.Inv where
  caps_legal := by decide +kernel
  mem_wf := by decide +kernel
  wt_ok := trivial
  tree_ok := trivial
  ct_ok := trivial
  status_ok := by decide +kernel
  reading_idle := rfl

theorem abStore_valid : abStore.valid := ⟨by decide, by show List.Nodup [2, 1, 0] ∧ [2, 1, 0].length = 3; decide⟩

theorem encoded_inv : encoded.Inv where
  caps_legal := by decide +kernel
  mem_wf := by decide +kernel
  wt_ok := by show abWeights.total < 2 ^ 32; decide +kernel
  tree_ok := abStore_valid
  ct_ok := by show ∀ e ∈ abCodes.entries, ∀ c ∈ e, 1 ≤ c.length ∧ c.length ≤ Config.codeMax; decide +kernel
  status_ok := by decide +kernel
  reading_idle := rfl

theorem loaded_inv : (withBufs aaaab [] [] []).Inv where
  caps_legal := by decide +kernel
  mem_wf := by decide +kernel
  wt_ok := trivial
  tree_ok := trivial
  ct_ok := trivial
  status_ok := by decide +kernel
  reading_idle := rfl

/-! ### Witnesses: for each statement with hypotheses, values that meet them, one for each clause -/

theorem witness_IllegalWordsFault :
    (0x00000100#32).extractLsb' 8 24 ≠ 0 ∧ (0x00000000#32).extractLsb' 0 8 = 0 ∧ 0x0C ≤ ((0x0000000C#32).extractLsb' 0 8).toNat ∧
    ((0x00000001#32).extractLsb' 8 24 = 0 ∧ (0x00000001#32).extractLsb' 0 8 ≠ 0 ∧ ((0x00000001#32).extractLsb' 0 8).toNat < 0x0C) ∧
    ((0x0000000B#32).extractLsb' 8 24 = 0 ∧ (0x0000000B#32).extractLsb' 0 8 ≠ 0 ∧ ((0x0000000B#32).extractLsb' 0 8).toNat < 0x0C) := by
  decide

theorem witness_OneEncodingPerInstruction :
    Instr.wellFormed (.tagLeaf 0xFF) = true ∧ decode (.record [0x01, 0xFF]) = .ok (.tagLeaf 0xFF) ∧
    decode (.command 0x0B) = .ok .decompress := ⟨rfl, rfl, rfl⟩

theorem witness_NeedCounterEndsTheTree : 0 ≤ abTree.records.length ∧ 3 ≤ abTree.records.length ∧ abTree.records.length = 3 := by decide

theorem witness_StepRunsIssuedCommand :
    ({ tight with host := [.wrreg 0x00 (0x0000000B#32).toNat] } : State).reading.todo = [] ∧
    ({ tight with host := [.wrreg 0x00 (0x0000000B#32).toNat] } : State).host = .wrreg 0x00 (0x0000000B#32).toNat :: [] ∧
    decode (.command 0x0000000B) = .ok .decompress := by decide +kernel

theorem witness_StepRunsTreeRecord :
    ((withBufs [] abBytes [] []).openDeser.reading.todo ≠ [] ∧
      decodeRecord ((withBufs [] abBytes [] []).openDeser.mem.tbuf.drop (withBufs [] abBytes [] []).openDeser.reading.cur) = .ok (.tagInternal, 1)) ∧
    (tight.openDeser.reading.todo ≠ [] ∧ tight.openDeser.reading.cur ≤ tight.openDeser.mem.tbuf.length ∧
      decodeRecord (tight.openDeser.mem.tbuf.drop tight.openDeser.reading.cur) = .error .truncatedRecord) ∧
    ((withBufs [] [0x02] [] []).openDeser.reading.todo ≠ [] ∧
      decodeRecord ((withBufs [] [0x02] [] []).openDeser.mem.tbuf.drop (withBufs [] [0x02] [] []).openDeser.reading.cur) = .error .unknownTag) := by
  decide +kernel

theorem witness_PlacedWordRuns : (decodeTableWord 16 0x6201 = some (.tagLeaf 0x62) ∧ 16 < 32) ∧
    (decodeTableWord 32 0x00000001 = some .count ∧ 32 ≤ 32) := by decide

theorem witness_IdleBlockKeepsItsState : tight.reading.todo = [] ∧ tight.host = [] := ⟨rfl, rfl⟩

theorem witness_ResetOperation : HostOp.wrreg 0x00 0x0C ≠ .reset ∧
    hostOp (.wrreg 0x00 0x0C) tight = .next (ended (hostOp (.wrreg 0x00 0x0C) tight)) := ⟨by decide, next_ended (by decide +kernel)⟩

theorem witness_ResetMeetsInv : Capacities.legal { dbuf := 0, tbuf := 767, pbuf := 0, fbuf := 0 } = true := by decide

/-- A state that meets the invariant and has a COMPRESS to run. -/
def ready : State := { withBufs aaaab [] [] [] with host := [.wrreg 0x00 0x0A] }

theorem ready_inv : ready.Inv := { loaded_inv with }

theorem witness_StepKeepsInv : ready.Inv ∧ step ready = .next (ended (step ready)) ∧ (ended (step ready)).mem.fbuf = abFile :=
  ⟨ready_inv, next_ended (by decide +kernel), by decide +kernel⟩

theorem witness_BlockNeverStops : ready.Inv := ready_inv

theorem witness_CapacitiesAreConstant : step ready = .next (ended (step ready)) := next_ended (by decide +kernel)

theorem witness_CountCounts : (withBufs aaaab [] [] []).mem.wf (withBufs aaaab [] [] []).caps = true := by decide +kernel

theorem witness_EmptyInputRule :
    (({ tight with wt := some (ByteTable.const 0) } : State).wt = some (ByteTable.const 0) ∧
      ∀ b : Byte, ByteTable.get (ByteTable.const (0 : Word)) b = 0) ∧
    tight.mem.dbuf = [] ∧
    ({ encoded with mem := Memory.empty } : State).mem.dbuf = [] ∧ ({ encoded with mem := Memory.empty } : State).ct = some abCodes := by
  refine ⟨⟨rfl, by decide +kernel⟩, rfl, rfl, rfl⟩

theorem witness_BuildPairsSingleSymbolWithSentinel :
    ({ tight with wt := some ((ByteTable.const 0).set 0xFF 1) } : State).wt = some ((ByteTable.const 0).set 0xFF 1) ∧
    ((ByteTable.const (0 : Word)).set 0xFF 1).get 0xFF ≠ 0 ∧ ∀ b : Byte, b ≠ 0xFF → ((ByteTable.const (0 : Word)).set 0xFF 1).get b = 0 := by
  refine ⟨rfl, by decide +kernel, by decide +kernel⟩

theorem witness_BuildMergesTheTwoLeast :
    built.wt = some abWeights ∧ [0x61#8, 0x62].Pairwise (fun a b => a.toNat < b.toNat) ∧
    (∀ b : Byte, b ∈ [0x61#8, 0x62] ↔ abWeights.get b ≠ 0) ∧ 2 ≤ [0x61#8, 0x62].length := by
  refine ⟨rfl, by decide, by decide +kernel, by decide⟩

theorem witness_BuildTreeProperties : built.wt = some abWeights ∧ abWeights.total < 2 ^ 32 ∧ ∃ b, abWeights.get b ≠ 0 :=
  ⟨rfl, by decide +kernel, 0x61, by decide +kernel⟩

theorem witness_GenAssignsPaths : built.tree = some abStore ∧ abStore.tree? = some abTree ∧ abTree.leafValues.Nodup := by
  decide +kernel

theorem witness_GenTableIsPrefixFree : built.tree = some abStore ∧ abStore.valid ∧ abCodes.get 0x61 = some [true] ∧
    abCodes.get 0x62 = some [false] := ⟨rfl, abStore_valid, by decide +kernel, by decide +kernel⟩

/-- The clauses: no CT; a byte without a code at index 2; a payload that does not fit; one that fits exactly. -/
theorem witness_EncodeRule :
    tight.ct = none ∧
    (encoded.ct = some abCodes ∧ [0x61#8, 0x61, 0x78, 0x61] = [0x61, 0x61] ++ 0x78 :: [0x61] ∧ (∀ a ∈ [0x61#8, 0x61], abCodes.get a ≠ none) ∧
      abCodes.get 0x78 = none) ∧
    (∀ b ∈ aaaab, abCodes.get b ≠ none) ∧ [true, true, true, true, false] = aaaab.flatMap (fun b => (abCodes.get b).getD []) ∧
    ({ encoded with caps := { encoded.caps with pbuf := 0 } } : State).caps.pbuf.toNat < ([true, true, true, true, false].length + 7) / 8 ∧
    ([true, true, true, true, false].length + 7) / 8 ≤ encoded.caps.pbuf.toNat := by decide +kernel

/-- The clauses: a length above the capacity; all bytes decodable; the bits run out; a lone leaf with a 1 bit. -/
theorem witness_DecodeRule :
    ((toDecode abRead [0xF0] 6).tree = some abRead ∧ abRead.tree? = some (.internal 0 (.leaf 0x62 0) (.leaf 0x61 0)) ∧
      (toDecode abRead [0xF0] 6).caps.dbuf.toNat < (toDecode abRead [0xF0] 6).contentLen.toNat) ∧
    ((toDecode abRead [0xF0] 5).contentLen.toNat ≤ (toDecode abRead [0xF0] 5).caps.dbuf.toNat ∧
      codedAs (.internal 0 (.leaf 0x62 0) (.leaf 0x61 0)) aaaab [[true], [true], [true], [true], [false]] ∧
      bitStream [0xF0] = [[true], [true], [true], [true], [false]].flatten ++ [false, false, false] ∧ aaaab.length = (5#32).toNat) ∧
    (codedAs (.internal 0 (.leaf 0x62 0) (.leaf 0x61 0)) [] [] ∧ bitStream [] = List.flatten ([] : List Bits) ++ [] ∧ ([] : List Byte).length < (1#32).toNat ∧
      (0x62#8, [false]) ∈ (CodeTree.internal 0 (.leaf 0x62 0) (.leaf 0x61 0)).codes ∧ ([] : Bits) <+: [false] ∧ ([] : Bits) ≠ [false]) ∧
    (lone.tree? = some (.leaf 0x41 0) ∧ bitStream [0x20] = List.replicate 2 false ++ true :: [false, false, false, false, false] ∧
      2 < (3#32).toNat) := by
  refine ⟨by decide +kernel, ⟨by decide +kernel, ?_, by decide +kernel, rfl⟩, ⟨.nil, by decide +kernel, by decide, by decide +kernel, by decide, by decide⟩,
    by decide +kernel⟩
  repeat' apply List.Forall₂.cons
  all_goals first | exact .nil | decide +kernel

theorem witness_DecodeIsTheWalk :
    tight.tree = none ∧
    ((toDecode abStore [0xF0] 6).tree = some abStore ∧ abStore.valid ∧
      (toDecode abStore [0xF0] 6).caps.dbuf.toNat < (toDecode abStore [0xF0] 6).contentLen.toNat) ∧
    (toDecode abStore [0xF0] 5).contentLen.toNat ≤ (toDecode abStore [0xF0] 5).caps.dbuf.toNat :=
  ⟨rfl, ⟨rfl, abStore_valid, by decide +kernel⟩, by decide +kernel⟩

theorem witness_DecodeUndoesEncode :
    encoded.Inv ∧ exec .gen encoded = .next (ended (exec .gen encoded)) ∧ (ended (exec .gen encoded)).err = 0 ∧
    exec .encode (ended (exec .gen encoded)) = .next (ended (exec .encode (ended (exec .gen encoded)))) ∧
    (ended (exec .encode (ended (exec .gen encoded)))).err = 0 :=
  ⟨encoded_inv, next_ended (by decide +kernel), by decide +kernel, next_ended (by decide +kernel), by decide +kernel⟩

theorem witness_SerWritesTheRecords : built.tree = some abStore ∧ abStore.valid ∧ abStore.tree? = some abTree :=
  ⟨rfl, abStore_valid, by decide +kernel⟩

theorem witness_DeserAcceptsExactlyTheTrees :
    (abTree.size ≤ 511 ∧ (withBufs [] (abBytes ++ [0xFF]) [] []).mem.tbuf = recordsBytes abTree.records ++ [0xFF]) ∧
    exec .deser (withBufs [] abBytes [] []) = .next (ended (exec .deser (withBufs [] abBytes [] []))) ∧
    (ended (exec .deser (withBufs [] abBytes [] []))).err = 0 :=
  ⟨by decide +kernel, next_ended (by decide +kernel), by decide +kernel⟩

theorem witness_SerDeserRoundTrip :
    (encoded.Inv ∧ encoded.tree = some abStore ∧ exec .ser encoded = .next (ended (exec .ser encoded))) ∧
    exec .deser (withBufs [] abBytes [] []) = .next (ended (exec .deser (withBufs [] abBytes [] []))) ∧
    (ended (exec .deser (withBufs [] abBytes [] []))).err = 0 :=
  ⟨⟨encoded_inv, rfl, next_ended (by decide +kernel)⟩, next_ended (by decide +kernel), by decide +kernel⟩

theorem witness_DeserNumbersInPreorder :
    (exec .deser (withBufs [] abBytes [] []) = .next (ended (exec .deser (withBufs [] abBytes [] []))) ∧
      (ended (exec .deser (withBufs [] abBytes [] []))).tree = some abRead) ∧
    exec .parse (withBufs [] [] [] abFile) = .next (ended (exec .parse (withBufs [] [] [] abFile))) ∧
    (ended (exec .parse (withBufs [] [] [] abFile))).tree = some abRead ∧
    abRead.nodes[1]? = some (.leaf 0x62 0) ∧ abRead.nodes[0]? = some (.internal 0 1 2) :=
  ⟨⟨next_ended (by decide +kernel), by decide +kernel⟩, next_ended (by decide +kernel), by decide +kernel, rfl, rfl⟩

theorem witness_DeserRunsRecordByRecord : (withBufs [] abBytes [] []).reading = TreeReading.idle := rfl

/-- A deserialization with a full node store and its last node due. -/
def full : State := { tight with reading := { cur := 766, nodes := List.replicate 511 (.leaf 0 0), todo := [.root] } }

theorem witness_InternalRecordOpensTwoSubtrees :
    (tight.openDeser.reading.todo = .root :: [] ∧ tight.openDeser.reading.nodes.length ≠ 511) ∧
    (full.reading.todo ≠ [] ∧ full.reading.nodes.length = 511) ∧ tight.reading.todo = [] := by decide +kernel

theorem witness_LeafRecordClosesASubtree :
    (({ tight with reading := { cur := 1, nodes := [.internal 0 0 0], todo := [.left 0, .right 0] } } : State).reading.todo
        = .left 0 :: .right 0 :: [] ∧ [Node.internal 0 0 0].length ≠ 511) ∧
    (tight.openDeser.reading.todo = [.root] ∧ tight.openDeser.reading.nodes.length ≠ 511) ∧
    (full.reading.todo ≠ [] ∧ full.reading.nodes.length = 511) ∧ tight.reading.todo = [] := by decide +kernel

/-- The clauses: no tree; a container of 14 bytes in 13; in 14. -/
theorem witness_AsmRule :
    tight.tree = none ∧ encoded.tree = some abStore ∧ abStore.tree? = some abTree ∧ abBytes = recordsBytes abTree.records ∧
    ({ encoded with caps := { encoded.caps with fbuf := 13 } } : State).caps.fbuf.toNat < 8 + abBytes.length + encoded.mem.pbuf.length ∧
    8 + abBytes.length + encoded.mem.pbuf.length ≤ encoded.caps.fbuf.toNat := by decide +kernel

/-- The clauses: a short length field; a tree field one byte short; a tree field above TBUF_CAP; a tree field that is no tree;
one byte left over in it; the content length missing; a payload above PBUF_CAP; one that fits exactly. -/
theorem witness_ParseRule :
    [0#8, 0, 0].length < 4 ∧
    (5 = (0#8).toNat * 2 ^ 24 + (0#8).toNat * 2 ^ 16 + (0#8).toNat * 2 ^ 8 + (5#8).toNat ∧ [0x00#8, 0x01, 0x62, 0x01].length < 5) ∧
    (5 ≤ abBytes.length ∧ ({ tight with caps := { tight.caps with tbuf := 4 } } : State).caps.tbuf.toNat < 5) ∧
    (3 ≤ [0x00#8, 0x01, 0x62].length ∧ 3 ≤ tight.caps.tbuf.toNat ∧
      parseNode ([0x00#8, 0x01, 0x62].take 3) 512 0 [] = .error (malformedTreeError 2 3)) ∧
    (parseNode ((abBytes ++ [0xFF]).take 6) 512 0 [] = .ok (0, 5, abRead.nodes) ∧ 5 ≠ 6) ∧
    (parseNode (abBytes.take 5) 512 0 [] = .ok (0, 5, abRead.nodes) ∧ 5 = 5 ∧ (abBytes ++ [0, 0, 0]).length - 5 < 4) ∧
    ((abFile.drop 4).drop 5 = 0 :: 0 :: 0 :: 5 :: [0xF0] ∧
      ({ tight with caps := { tight.caps with pbuf := 0 } } : State).caps.pbuf.toNat < [0xF0#8].length) ∧
    [0xF0#8].length ≤ tight.caps.pbuf.toNat := by
  refine ⟨by decide, by decide, by decide +kernel, ⟨by decide, by decide +kernel, rfl⟩, ⟨rfl, by decide⟩, ⟨rfl, rfl, by decide⟩,
    by decide +kernel, by decide +kernel⟩

theorem witness_ParseUndoesAsm : encoded.Inv ∧ exec .asm encoded = .next (ended (exec .asm encoded)) ∧ (ended (exec .asm encoded)).err = 0 :=
  ⟨encoded_inv, next_ended (by decide +kernel), by decide +kernel⟩

/-- The clauses: no room for the payload; none for the container; both just fit. -/
theorem witness_CompressRule :
    (withBufs aaaab [] [] []).mem.wf (withBufs aaaab [] [] []).caps = true ∧ (withBufs aaaab [] [] []).mem.dbuf ≠ [] ∧
    (buildStore (countTable aaaab)).tree? = some abTree ∧ abBytes = recordsBytes abTree.records ∧
    [true, true, true, true, false] = aaaab.flatMap (fun b => ((genTable abTree).get b).getD []) ∧
    (0 < ([true, true, true, true, false].length + 7) / 8) ∧
    (([true, true, true, true, false].length + 7) / 8 ≤ tight.caps.pbuf.toNat ∧ 13 < 8 + abBytes.length + [0xF0#8].length ∧
      8 + abBytes.length + [0xF0#8].length ≤ tight.caps.fbuf.toNat) := by decide +kernel

theorem witness_CompressEqualsItsSteps :
    (withBufs aaaab [] [] []).mem.wf (withBufs aaaab [] [] []).caps = true ∧ (withBufs aaaab [] [] []).mem.dbuf ≠ [] := by decide +kernel

theorem witness_DecompressDeliversTheContent :
    abTree.size ≤ 511 ∧ abBytes = recordsBytes abTree.records ∧
    (withBufs [] [] [] abFile).mem.fbuf = fourBytes abBytes.length ++ abBytes ++ fourBytes aaaab.length ++ [0xF0] ∧
    abBytes.length ≤ tight.caps.tbuf.toNat ∧ [0xF0#8].length ≤ tight.caps.pbuf.toNat ∧ aaaab.length ≤ tight.caps.dbuf.toNat ∧
    codedAs abTree aaaab [[true], [true], [true], [true], [false]] ∧
    bitStream [0xF0] = [[true], [true], [true], [true], [false]].flatten ++ [false, false, false] := by
  refine ⟨by decide +kernel, by decide +kernel, by decide +kernel, by decide +kernel, by decide +kernel, by decide +kernel, ?_, by decide +kernel⟩
  repeat' apply List.Forall₂.cons
  all_goals first | exact .nil | decide +kernel

/-- Both branches: a container that parses and one that does not. -/
theorem witness_DecompressEqualsItsSteps :
    (ended (exec .parse (withBufs [] [] [] abFile))).err = 0 ∧ (ended (exec .parse tight)).err ≠ 0 := by decide +kernel

theorem witness_DecompressUndoesCompress :
    (withBufs aaaab [] [] []).Inv ∧ (withBufs aaaab [] [] []).mem.dbuf ≠ [] ∧
    exec .compress (withBufs aaaab [] [] []) = .next (ended (exec .compress (withBufs aaaab [] [] []))) ∧
    (ended (exec .compress (withBufs aaaab [] [] []))).err = 0 ∧
    (withBufs [] [] [] abFile).mem.fbuf = (ended (exec .compress (withBufs aaaab [] [] []))).mem.fbuf :=
  ⟨loaded_inv, by decide +kernel, next_ended (by decide +kernel), by decide +kernel, by decide +kernel⟩

theorem witness_SequenceErrors : tight.wt = none ∧ tight.tree = none ∧ tight.ct = none := ⟨rfl, rfl, rfl⟩

theorem witness_OnlyTheListedErrors :
    tight.mem.wf tight.caps = true ∧ ∀ i ∈ [Instr.count, .build, .gen, .encode, .decode, .ser, .deser, .asm, .parse, .compress, .decompress],
      exec i tight = .next (ended (exec i tight)) := by
  refine ⟨by decide +kernel, fun i hi => next_ended ?_⟩
  revert i; decide +kernel

theorem witness_FailedCommandLeavesNothing :
    ∀ i ∈ [Instr.build, .gen, .encode, .decode, .ser, .deser, .asm, .parse, .compress, .decompress],
      exec i tight = .next (ended (exec i tight)) ∧ (ended (exec i tight)).err ≠ 0 := by
  have h : ∀ i ∈ [Instr.build, .gen, .encode, .decode, .ser, .deser, .asm, .parse, .compress, .decompress],
      (nextOf (exec i tight)).isSome = true ∧ (ended (exec i tight)).err ≠ 0 := by decide +kernel
  exact fun i hi => ⟨next_ended (h i hi).1, (h i hi).2⟩

theorem witness_FaultRepeats : encode .parse = .command 0x07 ∧ exec .parse tight = .next (ended (exec .parse tight)) ∧
    (ended (exec .parse tight)).err ≠ 0 := ⟨rfl, next_ended (by decide +kernel), by decide +kernel⟩

theorem witness_OnlyDestinationsChange : exec .asm encoded = .next (ended (exec .asm encoded)) ∧
    exec .tagInternal tight.openDeser = .next (ended (exec .tagInternal tight.openDeser)) :=
  ⟨next_ended (by decide +kernel), next_ended (by decide +kernel)⟩

/-- Two states that agree on DBUF and CT and differ in PBUF, WT, the tree and CONTENT_LEN. -/
theorem witness_OnlySourcesMatter :
    encode .encode = .command 0x04 ∧ ({ withBufs aaaab [] [] [] with ct := some abCodes } : State).caps = encoded.caps ∧
    (∀ o ∈ sources .encode, sameObj encoded { withBufs aaaab [] [] [] with ct := some abCodes } o) ∧
    exec .encode encoded = .next (ended (exec .encode encoded)) := by
  refine ⟨rfl, rfl, ?_, next_ended (by decide +kernel)⟩
  intro o ho
  simp only [sources, List.mem_cons, List.not_mem_nil, or_false] at ho
  rcases ho with rfl | rfl
  · exact fun _ => rfl
  · exact rfl

theorem witness_EveryCommandReports :
    (encode .count = .command 0x01 ∧ exec .count tight = .next (ended (exec .count tight)) ∧ (ended (exec .count tight)).err = 0) ∧
    (encode .build = .command 0x02 ∧ exec .build tight = .next (ended (exec .build tight)) ∧ (ended (exec .build tight)).err ≠ 0) :=
  ⟨⟨rfl, next_ended (by decide +kernel), by decide +kernel⟩, rfl, next_ended (by decide +kernel), by decide +kernel⟩

theorem witness_RegisterReads :
    encoded.mem.wf encoded.caps = true ∧ tight.tree = none ∧ (encoded.tree = some abStore ∧ abStore.nodes.length ≤ 511) ∧
    encoded.buffers[0]? = some (.dbuf, aaaab, 5) ∧ encoded.buffers[3]? = some (.fbuf, [], 14) ∧ 0x10 ≤ 0x10 := by decide +kernel

/-- The clauses: room for a last byte, no room, an index below the length, the length itself. -/
theorem witness_BufferOperations :
    encoded.buffers[2]? = some (.pbuf, [0xF0], 1) ∧ 255 < 256 ∧ (tight.buffers[2]? = some (.pbuf, [], 1) ∧ ([] : List Byte).length < 1) ∧
    1 ≤ [0xF0#8].length ∧ [0xF0#8][0]? = some 0xF0 ∧ [0xF0#8].length ≤ 1 := by decide +kernel

theorem witness_TableReads :
    (tight.wt = none ∧ tight.ct = none ∧ tight.tree = none) ∧ (encoded.wt = some abWeights ∧ 255 < 256) ∧
    (encoded.ct = some abCodes ∧ abCodes.get (BitVec.ofNat 8 0x63) = none) ∧
    (abCodes.get (BitVec.ofNat 8 0x61) = some [true] ∧ [true].length ≤ 255) ∧ encoded.tree = some abStore ∧
    abStore.nodes[0]? = some (.leaf 0x61 4) ∧ abStore.nodes[2]? = some (.internal 5 1 0) ∧ abStore.nodes.length ≤ 3 := by decide +kernel

/-- A code of 255 bits and one of a single bit. -/
theorem witness_CodeFieldLayout :
    (encoded.ct = some abCodes ∧ 0x61 < 256 ∧ abCodes.get (BitVec.ofNat 8 0x61) = some [true] ∧ [true].length ≤ 255) ∧
    [true][0]? = some true ∧ 0 + [true].length < 255 ∧ 253 + [true].length < 255 ∧
    (((ByteTable.const (none : Option Bits)).set 0xFF (some (List.replicate 255 true))).get (BitVec.ofNat 8 255) = some (List.replicate 255 true) ∧
      (List.replicate 255 true).length ≤ 255) := by decide +kernel

theorem witness_RegisterWrites : 4294967295 < 2 ^ 32 ∧ (0x01 ≠ 0x00 ∧ 0x01 ≠ 0x04) ∧ 2 ^ 32 ≤ 4294967296 := by decide

/-- One refused operation of each kind, and one that is not. -/
theorem witness_RefusedOperations :
    (∀ op ∈ [HostOp.clear 4, .push 4 0, .push 0 256, .push 2 0, .rdbyte 4 0, .rdbyte 0 5, .rdreg 0, .rdreg 16, .wrreg 1 0, .wrreg 4 4294967296,
      .rdwt 256, .rdct 256, .rdnode 3], (ended (hostOp op encoded)).response = some .refused) ∧
    ∀ op ∈ [HostOp.reset, .clear 3, .rdbyte 0 4, .rdreg 15, .wrreg 4 0, .wrreg 0 0, .rdwt 255, .rdct 255, .rdnode 2],
      (ended (hostOp op encoded)).response ≠ some .refused := by decide +kernel

theorem witness_HostCannotWriteResults :
    HostOp.push 0 0x61 ≠ .reset ∧ (∀ v, HostOp.push 0 0x61 ≠ .wrreg 0x00 v) ∧
    hostOp (.push 0 0x61) tight = .next (ended (hostOp (.push 0 0x61) tight)) :=
  ⟨by decide, fun _ => HostOp.noConfusion, next_ended (by decide +kernel)⟩

/-- Five bytes into a buffer of five. -/
theorem witness_LoadFillsTheBuffer :
    ({ encoded with host := .clear 0 :: aaaab.map (fun v => .push 0 v.toNat) ++ [.wrreg 0 0x0A] } : State).reading = TreeReading.idle ∧
    encoded.buffers[0]? = some (.dbuf, aaaab, 5) ∧ aaaab.length ≤ 5 := by decide +kernel

end Sys2Proof.Tests
end

/-! SUPPORT. The invariant of the block (10_state.md rules R24, R29, R32 to R35, R39 to R42): every command and every host
operation leads from a state that meets it to a next state that meets it. Inside a command the error report is not yet
written, so the bodies keep the weaker `Sound`, and the end of the frame restores the report. -/

namespace Sys2Proof.Machine

/-! ### The state inside a command -/

/-- What holds of the state inside a command: the invariant without the error report of the command before, of which only
the bits of ERRLOG are still meaningful (R42, R235). -/
structure State.Sound (s : State) : Prop where
  caps_legal : s.caps.legal = true
  mem_wf : s.mem.wf s.caps = true
  wt_ok : wtOk s.wt
  tree_ok : treeOk s.tree
  ct_ok : ctOk s.ct
  errlog_ok : s.errlog &&& 0x1FE#32 = s.errlog
  reading_idle : s.reading = TreeReading.idle

theorem State.inv_iff (s : State) : s.Inv ↔ s.Sound ∧ statusOk s := by
  constructor
  · rintro ⟨hcaps, hmem, hwt, htree, hct, hstatus, hreading⟩
    have ⟨_, _, _, hlog, _⟩ := hstatus
    exact ⟨⟨hcaps, hmem, hwt, htree, hct, hlog, hreading⟩, hstatus⟩
  · rintro ⟨⟨hcaps, hmem, hwt, htree, hct, _, hreading⟩, hstatus⟩
    exact ⟨hcaps, hmem, hwt, htree, hct, hstatus, hreading⟩

theorem State.Inv.sound {s : State} (h : s.Inv) : s.Sound := (s.inv_iff.1 h).1

namespace State.Sound

variable {s : State}

/-- No other register, and nothing on the host's side, matters. -/
theorem registers (h : s.Sound) (contentLen consumed : Word) (err sub : BitVec 4) (lastop : Byte) (errinfo : Word)
    (host : List HostOp) (response : Option Response) :
    State.Sound { s with contentLen, consumed, err, sub, lastop, errinfo, host, response } :=
  ⟨h.caps_legal, h.mem_wf, h.wt_ok, h.tree_ok, h.ct_ok, h.errlog_ok, h.reading_idle⟩

theorem setBuf (h : s.Sound) {b : Buf} {X : List Byte} (room : X.length ≤ capOf s.caps b) : (s.setBuf b X).Sound :=
  ⟨h.caps_legal, Memory.wf_put h.mem_wf room, h.wt_ok, h.tree_ok, h.ct_ok, h.errlog_ok, h.reading_idle⟩

theorem setWt (h : s.Sound) {wt : Option WeightTable} (hwt : wtOk wt) : State.Sound { s with wt } :=
  ⟨h.caps_legal, h.mem_wf, hwt, h.tree_ok, h.ct_ok, h.errlog_ok, h.reading_idle⟩

theorem setTree (h : s.Sound) {tree : Option NodeStore} (htree : treeOk tree) : State.Sound { s with tree } :=
  ⟨h.caps_legal, h.mem_wf, h.wt_ok, htree, h.ct_ok, h.errlog_ok, h.reading_idle⟩

theorem setCt (h : s.Sound) {ct : Option CodeTable} (hct : ctOk ct) : State.Sound { s with ct } :=
  ⟨h.caps_legal, h.mem_wf, h.wt_ok, h.tree_ok, hct, h.errlog_ok, h.reading_idle⟩

theorem commitTree (h : s.Sound) {r : TreeReading} (hr : NodeStore.valid { nodes := r.nodes, root := 0 }) :
    (s.commitTree r).Sound :=
  (h.setTree (tree := some _) hr).registers ..

theorem clearObj (h : s.Sound) (o : Obj) : (clearObj s o).Sound := by
  cases o with
  | buf b => exact h.setBuf (Nat.zero_le _)
  | wt => exact h.setWt trivial
  | tree => exact h.setTree trivial
  | ct => exact h.setCt trivial
  | contentLen => exact h.registers ..
  | consumed => exact h.registers ..

theorem clearObjs (objs : List Obj) : ∀ {s : State}, s.Sound → (clearObjs objs s).Sound := by
  induction objs with
  | nil => exact fun h => h
  | cons o objs ih => exact fun h => ih (h.clearObj o)

theorem openFrame (h : s.Sound) (i : Instr) (op : Byte) : (openFrame i op s).Sound :=
  clearObjs _ (h.registers ..)

/-- TBUF has room for every valid tree (R7, R87, R161). -/
theorem ser_le_tbuf (h : s.Sound) {st : NodeStore} {T : CodeTree} (hv : st.valid) (hT : st.tree? = some T) :
    T.ser.length ≤ capOf s.caps .tbuf := by
  have hcap : Config.tbufCapMin ≤ capOf s.caps .tbuf := of_decide_eq_true h.caps_legal
  obtain ⟨_, _, hser⟩ := hv.bounds hT
  exact hser.trans hcap

theorem tree_cases (h : s.Sound) :
    s.tree = none ∨ ∃ st T, s.tree = some st ∧ st.valid ∧ st.tree? = some T := by
  cases ht : s.tree with
  | none => exact .inl rfl
  | some st =>
    have hv : st.valid := by simpa only [ht] using h.tree_ok
    obtain ⟨T, _, hT, _⟩ := hv.tree
    exact .inr ⟨st, T, rfl, hv, hT⟩

end State.Sound

/-! ### The errors -/

/-- The sub-cause is one the error's code can have (R232). -/
def CmdError.Legal (e : CmdError) : Prop := legalSub e.kind.code e.sub = true

theorem readTree_error_legal {X : List Byte} {e : CmdError} (h : readTree X = .error e) : e.Legal := by
  rcases readRecords_error X h with ⟨n, rfl⟩ | ⟨n, rfl⟩ | rfl <;> rfl

theorem parseContainer_error_legal {c : Capacities} {F : List Byte} {e : CmdError} (h : parseContainer c F = .error e) :
    e.Legal := by
  rcases parseContainer_error h with rfl | rfl | ⟨n, rfl⟩ | rfl | rfl | ⟨n, rfl⟩ | ⟨X, hX⟩
  case inr.inr.inr.inr.inr.inr => exact readTree_error_legal hX
  all_goals rfl

theorem decodeBytes_error_legal {P : List Byte} {T : CodeTree} {n : Nat} {e : CmdError}
    (h : decodeBytes P T n = .error e) : e.Legal := by
  obtain ⟨k, rfl | rfl⟩ := decodeLoop_error h <;> rfl

/-! ### How a command ends -/

/-- Ending a command writes the error report that makes a sound state meet the invariant (R235 step 6). -/
theorem State.Sound.succeed_inv {s : State} (h : s.Sound) : s.succeed.Inv :=
  (State.inv_iff _).2 ⟨h.registers .., statusOk_succeed h.errlog_ok⟩

theorem State.Sound.takeError_inv {s : State} (h : s.Sound) {e : CmdError} (he : e.Legal) : (s.takeError e).Inv :=
  have hstatus := statusOk_takeError h.errlog_ok he
  ⟨h.caps_legal, h.mem_wf, h.wt_ok, h.tree_ok, h.ct_ok, hstatus, h.reading_idle⟩

theorem State.Sound.illegalCommand_inv {s : State} (h : s.Sound) (w : Word) : (illegalCommand w s).Inv :=
  takeError_inv (h.registers ..) rfl

/-! ### The bodies -/

/-- A body did well: it was not stuck, it left a sound state, and an error it raised is one R232 lists. -/
def StepResult.Good : StepResult → Prop
  | .done s => s.Sound
  | .raised s e => s.Sound ∧ e.Legal
  | .stuck _ => False

theorem StepResult.Good.andThen {r : StepResult} {f : State → StepResult} (h : r.Good) (hf : ∀ u, u.Sound → (f u).Good) :
    (r.andThen f).Good := by
  cases r with
  | done u => exact hf u h
  | raised u e => exact h
  | stuck x => exact h

theorem needTree_none {s : State} (h : s.tree = none) (body : CodeTree → StepResult) :
    needTree s body = .raised s (sequenceError 2) := by
  rw [needTree, h]

theorem countStep_good {s : State} (h : s.Sound) : (countStep s).Good := by
  have hlen : (s.buf .dbuf).length < 2 ^ 32 := Memory.length_lt h.mem_wf .dbuf
  have htotal : wtOk (some (countTable (s.buf .dbuf))) := by
    show WeightTable.total _ < 2 ^ 32
    rwa [total_countTable hlen]
  exact h.setWt htotal

theorem buildStep_good {s : State} (h : s.Sound) : (buildStep s).Good := by
  rcases buildStep_cases s with ⟨_, e⟩ | ⟨_, _, _, e⟩ | ⟨wt, _, hp, e⟩ <;> rw [e]
  · exact ⟨h, rfl⟩
  · exact ⟨h, rfl⟩
  · exact h.setTree (tree := some _) (buildStore_valid hp)

theorem genStep_good {s : State} (h : s.Sound) : (genStep s).Good := by
  rcases h.tree_cases with hn | ⟨st, T, hs, hv, hT⟩
  · rw [genStep, needTree_none hn]
    exact ⟨h, rfl⟩
  · rw [genStep, needTree_some hs hT]
    obtain ⟨_, hheight, _⟩ := hv.bounds hT
    exact h.setCt (genTable_ok hheight)

theorem encodeStep_good {s : State} (h : s.Sound) : (encodeStep s).Good := by
  rcases encodeStep_cases s with ⟨_, e⟩ | ⟨ct, _, ⟨_, _, _, _, _, _, e⟩ | ⟨_, ⟨_, e⟩ | ⟨room, e⟩⟩⟩ <;> rw [e]
  · exact ⟨h, rfl⟩
  · exact ⟨h, rfl⟩
  · exact ⟨h, rfl⟩
  · rw [← pack_padded_length] at room
    exact (h.setBuf room).registers ..

theorem serStep_good {s : State} (h : s.Sound) : (serStep s).Good := by
  rcases h.tree_cases with hn | ⟨st, T, hs, hv, hT⟩
  · rw [serStep, needTree_none hn]
    exact ⟨h, rfl⟩
  · rw [serStep, needTree_some hs hT]
    exact h.setBuf (h.ser_le_tbuf hv hT)

theorem asmStep_good {s : State} (h : s.Sound) : (asmStep s).Good := by
  rcases h.tree_cases with hn | ⟨st, T, hs, hv, hT⟩
  · rw [asmStep, needTree_none hn]
    exact ⟨h, rfl⟩
  · rcases asmStep_some hs hT with ⟨_, e⟩ | ⟨room, e⟩ <;> rw [e]
    · exact ⟨h, rfl⟩
    · rw [← containerBytes_length _ s.contentLen] at room
      exact (h.setBuf (h.ser_le_tbuf hv hT)).setBuf room

theorem decodeStep_good {s : State} (h : s.Sound) : (decodeStep s).Good := by
  rcases h.tree_cases with hn | ⟨st, T, hs, hv, hT⟩
  · rw [decodeStep, needTree_none hn]
    exact ⟨h, rfl⟩
  · rcases decodeStep_some hs hT with ⟨_, e⟩ | ⟨room, ⟨_, hd, e⟩ | ⟨D, _, hlen, e⟩⟩ <;> rw [e]
    · exact ⟨h, rfl⟩
    · exact ⟨h, decodeBytes_error_legal hd⟩
    · exact h.setBuf (hlen ▸ room)

theorem deserStep_good {s : State} (h : s.Sound) : (deserStep s).Good := by
  rcases deserStep_cases s with ⟨_, he, e⟩ | ⟨r, hr, e⟩ <;> rw [e]
  · exact ⟨h, readTree_error_legal he⟩
  · exact h.commitTree (readTree_store_valid hr)

theorem parseStep_good {s : State} (h : s.Sound) : (parseStep s).Good := by
  rcases parseStep_cases s with ⟨_, he, e⟩ | ⟨p, hp, e⟩ <;> rw [e]
  · exact ⟨h, parseContainer_error_legal he⟩
  · obtain ⟨T, _, room, _, hbytes, hreading, htbuf, hpbuf⟩ := parseContainer_ok hp
    have hvalid : NodeStore.valid { nodes := p.reading.nodes, root := 0 } := by
      rw [hreading]
      exact (preorder_store_valid T room).1
    rw [← hbytes] at htbuf
    have hbufs := (h.setBuf htbuf).setBuf (b := .pbuf) hpbuf
    exact (hbufs.commitTree hvalid).registers ..

theorem compressStep_good {s : State} (h : s.Sound) : (compressStep s).Good := by
  rw [compressStep]
  split
  · exact ⟨h, rfl⟩
  · have htables := ((countStep_good h).andThen fun _ => buildStep_good).andThen fun _ => genStep_good
    exact htables.andThen fun _ hu => (encodeStep_good hu).andThen fun _ => asmStep_good

theorem decompressStep_good {s : State} (h : s.Sound) : (decompressStep s).Good :=
  (parseStep_good h).andThen fun _ => decodeStep_good

/-! ### Commands, host operations and steps -/

/-- The outcome is a next state that meets the invariant. -/
def goesOnInv (o : Host.Outcome State Fault Refusal) : Prop := ∃ t, o = .next t ∧ t.Inv

/-- Step 6 of the frame (R235). -/
theorem finish_goesOnInv {r : StepResult} (h : r.Good) : goesOnInv (finish r) := by
  cases r with
  | done u => exact ⟨_, rfl, h.succeed_inv⟩
  | raised u e =>
    obtain ⟨hu, he⟩ := h
    exact ⟨_, rfl, hu.takeError_inv he⟩
  | stuck x => exact h.elim

theorem frame_goesOnInv {i : Instr} {op : Byte} {body : State → StepResult} {s : State} (h : s.Inv)
    (hb : ∀ {u : State}, u.Sound → (body u).Good) : goesOnInv (frame i op body s) :=
  finish_goesOnInv (hb (h.sound.openFrame i op))

/-- A record for which no node is due is not read (R165). -/
theorem acceptRecord_idle {s : State} (h : s.reading = TreeReading.idle) (next : Except CmdError TreeReading) :
    acceptRecord next s = .next s :=
  if_pos (by rw [h]; rfl)

/-- Every instruction goes on, and to a state that meets the invariant. -/
theorem exec_goesOnInv (i : Instr) {s : State} (h : s.Inv) : goesOnInv (exec i s) := by
  cases i with
  | count => exact frame_goesOnInv h countStep_good
  | build => exact frame_goesOnInv h buildStep_good
  | gen => exact frame_goesOnInv h genStep_good
  | encode => exact frame_goesOnInv h encodeStep_good
  | ser => exact frame_goesOnInv h serStep_good
  | asm => exact frame_goesOnInv h asmStep_good
  | parse => exact frame_goesOnInv h parseStep_good
  | deser => exact frame_goesOnInv h deserStep_good
  | decode => exact frame_goesOnInv h decodeStep_good
  | compress => exact frame_goesOnInv h compressStep_good
  | decompress => exact frame_goesOnInv h decompressStep_good
  | tagInternal => exact ⟨s, acceptRecord_idle h.reading_idle _, h⟩
  | tagLeaf v => exact ⟨s, acceptRecord_idle h.reading_idle _, h⟩

theorem issueCommand_goesOnInv (w : Word) {s : State} (h : s.Inv) : goesOnInv (issueCommand w s) := by
  rw [issueCommand]
  split
  · exact ⟨_, rfl, h.sound.illegalCommand_inv w⟩
  · exact exec_goesOnInv _ h

/-- What the host writes and sees beside the buffers is no part of the invariant. -/
theorem State.Inv.hostSide {s : State} (h : s.Inv) (contentLen : Word) (host : List HostOp) (response : Option Response) :
    State.Inv { s with contentLen, host, response } :=
  (State.inv_iff _).2 ⟨h.sound.registers .., h.status_ok⟩

theorem State.Inv.setBuf {s : State} (h : s.Inv) {b : Buf} {X : List Byte} (room : X.length ≤ capOf s.caps b) :
    (s.setBuf b X).Inv :=
  (State.inv_iff _).2 ⟨h.sound.setBuf room, h.status_ok⟩

theorem State.Inv.respond {s : State} (h : s.Inv) (r : Response) : (s.respond r).Inv := h.hostSide ..

/-- The state after reset meets the invariant for all capacities R7 allows (R45). -/
theorem State.resetWith_inv {c : Capacities} (h : c.legal = true) : (State.resetWith c).Inv where
  caps_legal := h
  mem_wf := Memory.wf_empty c
  wt_ok := trivial
  tree_ok := trivial
  ct_ok := trivial
  status_ok := statusOk_succeed (s := State.resetWith c) (BitVec.zero_and ..)
  reading_idle := rfl

theorem hostReset_inv {s : State} (h : s.Inv) : (hostReset s).Inv := (State.resetWith_inv h.caps_legal).hostSide ..

theorem hostClear_inv (id : Nat) {s : State} (h : s.Inv) : (hostClear id s).Inv := by
  rw [hostClear]
  split
  · exact h.respond _
  · exact (h.setBuf (Nat.zero_le _)).respond _

theorem hostPush_inv (id v : Nat) {s : State} (h : s.Inv) : (hostPush id v s).Inv := by
  rcases hostPush_cases id v s with ⟨b, _, _, room, e⟩ | e <;> rw [e]
  · have hlen : (s.buf b ++ [BitVec.ofNat 8 v]).length ≤ capOf s.caps b := by
      rwa [List.length_append, List.length_singleton]
    exact (h.setBuf hlen).respond _
  · exact h.respond _

theorem hostWrReg_goesOnInv (r v : Nat) {s : State} (h : s.Inv) : goesOnInv (hostWrReg r v s) := by
  rcases hostWrReg_cases r v s with ⟨_, _, e⟩ | ⟨_, _, e⟩ | ⟨_, e⟩ <;> rw [e]
  · exact ⟨_, rfl, h.hostSide ..⟩
  · obtain ⟨t, ht, hinv⟩ := issueCommand_goesOnInv (BitVec.ofNat 32 v) h
    rw [ht]
    exact ⟨_, rfl, hinv.respond _⟩
  · exact ⟨_, rfl, h.respond _⟩

theorem hostRead_goesOnInv {op : HostOp} {s : State} (h : s.Inv) (hop : ∃ r, hostOp op s = .next (s.respond r)) :
    goesOnInv (hostOp op s) := by
  obtain ⟨r, e⟩ := hop
  exact ⟨_, e, h.respond r⟩

theorem hostOp_goesOnInv (op : HostOp) {s : State} (h : s.Inv) : goesOnInv (hostOp op s) := by
  cases op with
  | reset => exact ⟨_, rfl, hostReset_inv h⟩
  | clear b => exact ⟨_, rfl, hostClear_inv b h⟩
  | push b v => exact ⟨_, rfl, hostPush_inv b v h⟩
  | wrreg r v => exact hostWrReg_goesOnInv r v h
  | rdbyte b i => exact hostRead_goesOnInv h (hostRead_respond _ s trivial)
  | rdreg r => exact hostRead_goesOnInv h (hostRead_respond _ s trivial)
  | rdwt x => exact hostRead_goesOnInv h (hostRead_respond _ s trivial)
  | rdct x => exact hostRead_goesOnInv h (hostRead_respond _ s trivial)
  | rdnode i => exact hostRead_goesOnInv h (hostRead_respond _ s trivial)

/-- From a state that meets the invariant a step takes the next host operation, or none (R39, R254). -/
theorem State.Inv.step_eq {s : State} (h : s.Inv) : step s = hostTurn s := by
  rw [step, turn, h.reading_idle]
  exact if_pos rfl

theorem step_goesOnInv {s : State} (h : s.Inv) : goesOnInv (step s) := by
  rw [h.step_eq, hostTurn]
  split
  · exact ⟨s, rfl, h⟩
  · exact hostOp_goesOnInv _ (h.hostSide ..)

end Sys2Proof.Machine

/-! ### The statements -/

namespace Sys2Proof.Proofs

open Sys2Proof.Machine

/-- Settles O12: `step_goesOnInv` gives a next state that meets the invariant, and a step has only one outcome. -/
theorem stepKeepsInv : Obligations.StepKeepsInv := by
  intro s t h hstep
  obtain ⟨u, hu, hinv⟩ := step_goesOnInv h
  rw [hstep] at hu
  cases hu
  exact hinv

/-- Settles O13: the fault brokenNodeStore needs a store that the invariant excludes (R33), and nothing else stops. -/
theorem blockNeverStops : Obligations.BlockNeverStops := by
  intro s h
  obtain ⟨t, ht, _⟩ := step_goesOnInv h
  exact ⟨t, ht⟩

/-- Settles O11: the reset state holds no object and reports no error. -/
theorem resetMeetsInv : Obligations.ResetMeetsInv :=
  ⟨fun _ => State.resetWith_inv, State.resetWith_inv (by decide)⟩

end Sys2Proof.Proofs

/-! SUPPORT. What BUILD and GEN leave, as equations, and the properties of the tree and of the codes they make
(41_tree_builder.md rules R115, R117; 42_code_table_generator.md rule R135). -/

namespace Sys2Proof.Machine

/-! ### BUILD -/

/-- BUILD of a table that is not empty (R112). -/
theorem exec_build {s : State} {W : WeightTable} (hw : s.wt = some W) (hp : presentSyms W ≠ []) :
    exec .build s = .next ({ s with tree := some (buildStore W) }.after 0x02) := by
  have hb : buildStep (openFrame .build 0x02 s) = .done { openFrame .build 0x02 s with tree := some (buildStore W) } := by
    rcases buildStep_cases (openFrame .build 0x02 s) with ⟨hn, _⟩ | ⟨W', hs, he, _⟩ | ⟨W', hs, _, e⟩
    · exact absurd (hw.symm.trans hn) (by simp)
    · obtain rfl := Option.some.inj (hw.symm.trans hs)
      exact absurd he hp
    · obtain rfl := Option.some.inj (hw.symm.trans hs)
      exact e
  rw [exec, execBuild, frame, hb]
  rfl

/-- A sum of words that fits a word does not wrap. -/
theorem toNat_sum_words {l : List Word} (h : (l.map BitVec.toNat).sum < 2 ^ 32) : l.sum.toNat = (l.map BitVec.toNat).sum := by
  induction l with
  | nil => rfl
  | cons w l ih =>
    rw [List.map_cons, List.sum_cons] at h
    rw [List.sum_cons, List.map_cons, List.sum_cons, BitVec.toNat_add, ih (by omega), Nat.mod_eq_of_lt h]

/-- The bytes that are not present add nothing to the total (R102). -/
theorem total_eq_presentSyms (W : WeightTable) : W.total = (((presentSyms W).map W.get).map BitVec.toNat).sum := by
  rw [WeightTable.total_eq, presentSyms, List.map_map]
  induction allBytes with
  | nil => rfl
  | cons b l ih =>
    rw [List.map_cons, List.sum_cons, ih, List.filter_cons]
    by_cases hb : W.get b = 0
    · rw [if_neg (by simpa using hb), hb]
      exact Nat.zero_add _
    · rw [if_pos (by simpa using hb), List.map_cons, List.sum_cons]
      rfl

theorem toNat_sum_presentSyms {W : WeightTable} (h : W.total < 2 ^ 32) : ((presentSyms W).map W.get).sum.toNat = W.total := by
  rw [total_eq_presentSyms] at h ⊢
  exact toNat_sum_words h

/-- The children of every record stand before it (R115). -/
def ChildrenBefore (nodes : List Node) : Prop :=
  ∀ (m : Nat) (w : Word) (l r : NodeIndex), nodes[m]? = some (.internal w l r) → l.toNat < m ∧ r.toNat < m

/-- A merge takes its children from the records before it. -/
theorem mergesTwoLeast.children {nodes : List Node} {m : Nat} (h : mergesTwoLeast nodes m) {w : Word} {l r : NodeIndex}
    (hm : nodes[m]? = some (.internal w l r)) : l.toNat < m ∧ r.toNat < m := by
  obtain ⟨a, b, l', r', hm', rfl, rfl, ⟨hl, _⟩, ⟨hr, _⟩, _⟩ := h
  obtain ⟨_, rfl, rfl⟩ := Node.internal.inj (Option.some.inj (hm.symm.trans hm'))
  exact ⟨hl, hr⟩

/-- The records BUILD starts from are leaves. -/
theorem leafNodes_getElem?_ne_internal {W : WeightTable} {m : Nat} {w : Word} {l r : NodeIndex} :
    (leafNodes W)[m]? ≠ some (.internal w l r) := by
  rw [leafNodes_getElem?, Ne, Option.map_eq_some_iff]
  rintro ⟨_, _, h⟩
  cases h

/-- What is no leaf BUILD started from is a merge. -/
theorem Merged.childrenBefore {W : WeightTable} {live : List Nat} {ps : List Part} {k root : Nat} {nodes : List Node}
    {T : CodeTree} {is : List Nat} (h : Merged (leafNodes W) live ps k nodes root T is) : ChildrenBefore nodes := by
  intro m w l r hm
  by_cases hleaf : m < (leafNodes W).length
  · obtain ⟨more, rfl⟩ := h.kept
    rw [List.getElem?_append_left hleaf] at hm
    exact absurd hm leafNodes_getElem?_ne_internal
  · have hlt : m < nodes.length := (List.getElem?_eq_some_iff.1 hm).1
    exact (h.greedy m (Nat.le_of_not_lt hleaf) hlt).children hm

/-- The sentinel tree: the parent stands behind its two leaves (R116). -/
theorem buildNodes_single_childrenBefore {W : WeightTable} {v : Byte} (h : presentSyms W = [v]) :
    ChildrenBefore (buildNodes W) := by
  intro m w l r hm
  rw [buildNodes_single h] at hm
  match m with
  | 0 => cases hm
  | 1 => cases hm
  | 2 =>
    cases hm
    decide
  | m + 3 => cases hm

theorem presentSyms_eq_singleton {W : WeightTable} {v : Byte} (h : presentSyms W = [v]) (u : Byte) :
    W.get u ≠ 0 ↔ u = v := by
  rw [← mem_presentSyms, h, List.mem_singleton]

/-- The leaf values of the tree BUILD makes are the present ones, with the sentinel's when only one is present (R116,
R117). -/
theorem buildStore_leafValues {W : WeightTable} {T : CodeTree} (hp : presentSyms W ≠ [])
    (hT : (buildStore W).tree? = some T) {b : Byte} (hb : b ∈ T.leafValues) :
    W.get b ≠ 0 ∨ ∃ v : Byte, (∀ u, W.get u ≠ 0 ↔ u = v) ∧ b = v + 1 := by
  rcases presentSyms_cases W with h0 | ⟨v, hv⟩ | h2
  · exact absurd h0 hp
  · obtain ⟨_, hT'⟩ := buildStore_single hv
    obtain rfl := Option.some.inj (hT.symm.trans hT')
    rcases List.mem_cons.1 hb with rfl | hb
    · exact .inl ((presentSyms_eq_singleton hv b).2 rfl)
    · exact .inr ⟨v, presentSyms_eq_singleton hv, List.mem_singleton.1 hb⟩
  · obtain ⟨T', _, _, _, _, _, hT', hperm, _⟩ := buildStore_merged h2
    obtain rfl := Option.some.inj (hT.symm.trans hT')
    exact .inl (mem_presentSyms.1 (hperm.mem_iff.1 hb))

/-- The root of the tree BUILD makes weighs the sum of all counters (R117). -/
theorem buildStore_weight {W : WeightTable} {T : CodeTree} (hp : presentSyms W ≠ [])
    (hT : (buildStore W).tree? = some T) (htotal : W.total < 2 ^ 32) : T.weight.toNat = W.total := by
  have hsum : T.weight = ((presentSyms W).map W.get).sum := by
    rcases presentSyms_cases W with h0 | ⟨v, hv⟩ | h2
    · exact absurd h0 hp
    · obtain ⟨_, hT'⟩ := buildStore_single hv
      obtain rfl := Option.some.inj (hT.symm.trans hT')
      simp [hv, CodeTree.weight]
    · obtain ⟨T', _, _, _, _, _, hT', _, hweight⟩ := buildStore_merged h2
      obtain rfl := Option.some.inj (hT.symm.trans hT')
      exact hweight
  rw [hsum, toNat_sum_presentSyms htotal]

theorem buildStore_childrenBefore {W : WeightTable} (hp : presentSyms W ≠ []) : ChildrenBefore (buildStore W).nodes := by
  rcases presentSyms_cases W with h0 | ⟨v, hv⟩ | h2
  · exact absurd h0 hp
  · exact buildNodes_single_childrenBefore hv
  · obtain ⟨_, _, hmerged, _⟩ := buildStore_merged h2
    exact hmerged.childrenBefore

/-! ### GEN -/

/-- GEN of a tree (R131). -/
theorem exec_gen {s : State} {st : NodeStore} {T : CodeTree} (hs : s.tree = some st) (hT : st.tree? = some T) :
    exec .gen s = .next ({ s with ct := some (genTable T) }.after 0x03) := by
  have hg : genStep (openFrame .gen 0x03 s) = .done { openFrame .gen 0x03 s with ct := some (genTable T) } := by
    rw [genStep, needTree_some (s := openFrame .gen 0x03 s) hs hT]
  rw [exec, execGen, frame, hg]
  rfl

/-- A code of the table made from a valid tree has 1 to 255 bits (R34, R135). -/
theorem genTable_code_length {st : NodeStore} {T : CodeTree} (hv : st.valid) (hT : st.tree? = some T) {v : Byte} {c : Bits}
    (hc : (genTable T).get v = some c) : 1 ≤ c.length ∧ c.length ≤ 255 := by
  obtain ⟨_, hheight, _⟩ := hv.bounds hT
  obtain ⟨hpos, hle⟩ := codes_length (mem_codes_of_genTable hc)
  exact ⟨hpos, hle.trans (max_le (by decide) hheight)⟩

/-- The code of a byte value never begins the code of another one (R135). -/
theorem genTable_prefix_free {T : CodeTree} {u v : Byte} {c d : Bits} (hc : (genTable T).get u = some c)
    (hd : (genTable T).get v = some d) (hne : u ≠ v) : ¬ c <+: d := fun hpre =>
  hne (codes_prefix_free (mem_codes_of_genTable hc) (mem_codes_of_genTable hd) hpre).1

end Sys2Proof.Machine

namespace Sys2Proof.Proofs

open Sys2Proof.Machine

/-- Settles O19: the store is the one of the merge loop, or the sentinel tree when one byte value is present. -/
theorem buildTreeProperties : Obligations.BuildTreeProperties := by
  rintro s W hw htotal ⟨b, hb⟩
  have hp : presentSyms W ≠ [] := List.ne_nil_of_mem (mem_presentSyms.2 hb)
  obtain ⟨T, hT, hnodup, htwo, hpresent⟩ := buildStore_tree hp
  exact ⟨buildStore W, T, exec_build hw hp, buildStore_valid hp, hT, hnodup, htwo, buildStore_weight hp hT htotal, hpresent,
    fun _ => buildStore_leafValues hp hT, buildStore_childrenBefore hp⟩

/-- Settles O21: a code of the table is the path of a leaf, and the tree of a valid store is at most 255 edges high. -/
theorem genTableIsPrefixFree : Obligations.GenTableIsPrefixFree := by
  intro s st hs hv
  obtain ⟨T, _, hT, _⟩ := hv.tree
  exact ⟨genTable T, exec_gen hs hT, fun _ _ => genTable_code_length hv hT, fun _ _ _ _ => genTable_prefix_free⟩

end Sys2Proof.Proofs

/-! SUPPORT. What an instruction, a host operation and a step leave unchanged (10_state.md rules R42, R44, R47;
47_host_access.md rule R219; 60_exceptions.md rule R238; 70_reset_and_hazards.md rule R260). -/

namespace Sys2Proof.Machine

/-! ### Instructions -/

/-- From s to t an instruction changed nothing outside a list of objects but STATUS, ERRINFO, the reading of a tree, and at
most one more bit of ERRLOG (R42, R47). -/
structure Framed (objs : List Obj) (s t : State) : Prop where
  obj : ∀ o, o ∉ objs → sameObj s t o
  caps : t.caps = s.caps
  host : t.host = s.host
  response : t.response = s.response
  errlog : t.errlog = s.errlog ∨ ∃ code, t.errlog = logError s.errlog code

/-- What an instruction can change by itself: TAG_INTERNAL opens two subtrees, so no tree is complete behind it, and the
destinations of the DESER it belongs to are committed by a later record (R86, R163). -/
def changes : Instr → List Obj
  | .tagInternal => []
  | i => destinations i

/-- An instruction is a command word or one of the two tree records (R80, R85). -/
theorem command_or_record (i : Instr) : (∃ w, encode i = .command w) ∨ i = .tagInternal ∨ ∃ v, i = .tagLeaf v := by
  cases i with
  | tagInternal => exact .inr (.inl rfl)
  | tagLeaf v => exact .inr (.inr ⟨v, rfl⟩)
  | _ => exact .inl ⟨_, rfl⟩

theorem changes_of_command {i : Instr} {w : Word} (hw : encode i = .command w) : changes i = destinations i := by
  cases i with
  | tagInternal => cases hw
  | _ => rfl

theorem command_framed {i : Instr} {w : Word} {s t : State} (hw : encode i = .command w) (h : exec i s = .next t) :
    Framed (changes i) s t := by
  obtain ⟨body, hexec, hkeeps⟩ := exec_frame hw
  rw [hexec] at h
  obtain ⟨hobj, hcaps, hhost, hresponse, _, _, hok, herr⟩ := frame_keeps hkeeps h
  rw [changes_of_command hw]
  refine ⟨hobj, hcaps, hhost, hresponse, ?_⟩
  by_cases h0 : t.err = 0
  · exact .inl (hok h0).2.2
  · exact .inr ⟨t.err, herr h0⟩

/-- A record is not read, or its error ends the reading, or the reading advances (R163, R165). -/
theorem acceptRecord_next {next : Except CmdError TreeReading} {s t : State} (h : acceptRecord next s = .next t) :
    t = s ∨ (∃ e, t = s.failReading e) ∨ s.reading.todo ≠ [] ∧ ∃ r, next = .ok r ∧ t = s.advanceReading r := by
  by_cases hdue : s.reading.todo = []
  · rw [acceptRecord.eq_def, if_pos hdue] at h
    cases h
    exact .inl rfl
  · rw [acceptRecord.eq_def, if_neg hdue] at h
    cases next with
    | error e =>
      cases h
      exact .inr (.inl ⟨e, rfl⟩)
    | ok r =>
      cases h
      exact .inr (.inr ⟨hdue, r, rfl, rfl⟩)

theorem Framed.refl (objs : List Obj) (s : State) : Framed objs s s :=
  ⟨fun o _ => sameObj_refl s o, rfl, rfl, rfl, .inl rfl⟩

theorem failReading_framed (objs : List Obj) (s : State) (e : CmdError) : Framed objs s (s.failReading e) :=
  ⟨fun o _ => sameObj_refl s o, rfl, rfl, rfl, .inr ⟨_, rfl⟩⟩

/-- While nodes are due nothing is committed. -/
theorem advanceReading_framed_of_due {s : State} {r : TreeReading} (hr : r.todo ≠ []) (objs : List Obj) :
    Framed objs s (s.advanceReading r) := by
  rw [State.advanceReading, if_neg hr]
  exact ⟨fun o _ => sameObj_refl s o, rfl, rfl, rfl, .inl rfl⟩

theorem advanceReading_framed (s : State) (r : TreeReading) : Framed [.tree, .consumed] s (s.advanceReading r) := by
  by_cases hr : r.todo = []
  · rw [State.advanceReading, if_pos hr]
    exact ⟨(keeps_commitTree s r).obj, rfl, rfl, rfl, .inl rfl⟩
  · exact advanceReading_framed_of_due hr _

/-- Two subtrees are due behind an internal marker (R84, R163). -/
theorem TreeReading.internal_todo {r r' : TreeReading} (hr : r.todo ≠ []) (h : r.internal = .ok r') : r'.todo ≠ [] := by
  obtain ⟨slot, more, htodo⟩ := List.exists_cons_of_ne_nil hr
  rw [internal, alloc, htodo] at h
  dsimp only at h
  split at h
  · cases h
  · cases h
    exact List.cons_ne_nil _ _

theorem tagInternal_framed {s t : State} (h : exec .tagInternal s = .next t) : Framed (changes .tagInternal) s t := by
  rcases acceptRecord_next h with rfl | ⟨e, rfl⟩ | ⟨hdue, r, hr, rfl⟩
  · exact .refl _ _
  · exact failReading_framed _ _ _
  · exact advanceReading_framed_of_due (TreeReading.internal_todo hdue hr) _

theorem tagLeaf_framed {v : Byte} {s t : State} (h : exec (.tagLeaf v) s = .next t) : Framed (changes (.tagLeaf v)) s t := by
  rcases acceptRecord_next h with rfl | ⟨e, rfl⟩ | ⟨_, r, _, rfl⟩
  · exact .refl _ _
  · exact failReading_framed _ _ _
  · exact advanceReading_framed _ _

theorem exec_framed {i : Instr} {s t : State} (h : exec i s = .next t) : Framed (changes i) s t := by
  rcases command_or_record i with ⟨w, hw⟩ | rfl | ⟨v, rfl⟩
  · exact command_framed hw h
  · exact tagInternal_framed h
  · exact tagLeaf_framed h

/-- A command is atomic: it leaves no reading of a tree behind (R15, R39). -/
theorem exec_reading {i : Instr} {s t : State} (hi : i ≠ .tagInternal) (hv : ∀ v, i ≠ .tagLeaf v) (h : exec i s = .next t) :
    t.reading = s.reading := by
  rcases command_or_record i with ⟨w, hw⟩ | rfl | ⟨v, rfl⟩
  · obtain ⟨body, hexec, hkeeps⟩ := exec_frame hw
    rw [hexec] at h
    obtain ⟨_, _, _, _, hreading, _⟩ := frame_keeps hkeeps h
    exact hreading
  · exact absurd rfl hi
  · exact absurd rfl (hv v)

/-! ### The table of R47, read by object: which instructions change it -/

theorem dbuf_mem_changes {i : Instr} : .buf .dbuf ∈ changes i ↔ i = .decode ∨ i = .decompress := by
  cases i <;> simp [changes, destinations]

theorem tbuf_mem_changes {i : Instr} :
    .buf .tbuf ∈ changes i ↔ i = .ser ∨ i = .asm ∨ i = .parse ∨ i = .compress ∨ i = .decompress := by
  cases i <;> simp [changes, destinations]

theorem pbuf_mem_changes {i : Instr} :
    .buf .pbuf ∈ changes i ↔ i = .encode ∨ i = .parse ∨ i = .compress ∨ i = .decompress := by
  cases i <;> simp [changes, destinations]

theorem fbuf_mem_changes {i : Instr} : .buf .fbuf ∈ changes i ↔ i = .asm ∨ i = .compress := by
  cases i <;> simp [changes, destinations]

theorem wt_mem_changes {i : Instr} : .wt ∈ changes i ↔ i = .count ∨ i = .compress := by
  cases i <;> simp [changes, destinations]

theorem tree_mem_changes {i : Instr} :
    .tree ∈ changes i ↔ i = .build ∨ i = .deser ∨ i = .parse ∨ i = .compress ∨ i = .decompress ∨ ∃ v, i = .tagLeaf v := by
  cases i <;> simp [changes, destinations]

theorem ct_mem_changes {i : Instr} : .ct ∈ changes i ↔ i = .gen ∨ i = .compress := by
  cases i <;> simp [changes, destinations]

theorem contentLen_mem_changes {i : Instr} :
    .contentLen ∈ changes i ↔ i = .encode ∨ i = .parse ∨ i = .compress ∨ i = .decompress := by
  cases i <;> simp [changes, destinations]

theorem consumed_mem_changes {i : Instr} :
    .consumed ∈ changes i ↔ i = .deser ∨ i = .parse ∨ i = .decompress ∨ ∃ v, i = .tagLeaf v := by
  cases i <;> simp [changes, destinations]

/-- ROOT and NODE_CNT are views of the tree object (R29, R31). -/
theorem sameTree_views {s t : State} (h : t.tree = s.tree) : t.tree = s.tree ∧ t.root = s.root ∧ t.nodeCnt = s.nodeCnt := by
  simp only [State.root, State.nodeCnt, h, and_self]

/-! ### Host operations -/

/-- A host operation is H.RESET, or a write of CMD, or touches only the buffers, CONTENT_LEN and the response (R28, R66). -/
theorem hostOp_cases (op : HostOp) (s : State) :
    op = .reset ∨
      (∃ v, op = .wrreg 0x00 v ∧ hostOp op s = respondOk (issueCommand (BitVec.ofNat 32 v) s)) ∨
      ∃ mem contentLen response, hostOp op s = .next { s with mem, contentLen, response } := by
  have read : (∃ r, hostOp op s = .next (s.respond r)) →
      ∃ mem contentLen response, hostOp op s = .next { s with mem, contentLen, response } :=
    fun ⟨r, h⟩ => ⟨_, _, _, h⟩
  cases op with
  | reset => exact .inl rfl
  | clear b =>
    refine .inr (.inr ?_)
    rw [hostOp, hostClear]
    split <;> exact ⟨_, _, _, rfl⟩
  | push b v =>
    refine .inr (.inr ?_)
    rw [hostOp]
    rcases hostPush_cases b v s with ⟨_, _, _, _, h⟩ | h <;> rw [h] <;> exact ⟨_, _, _, rfl⟩
  | wrreg r v =>
    rcases hostWrReg_cases r v s with ⟨_, _, h⟩ | ⟨rfl, _, h⟩ | ⟨_, h⟩
    · exact .inr (.inr ⟨_, _, _, h⟩)
    · exact .inr (.inl ⟨v, rfl, h⟩)
    · exact .inr (.inr ⟨_, _, _, h⟩)
  | rdbyte b i => exact .inr (.inr (read (hostRead_respond _ s trivial)))
  | rdreg r => exact .inr (.inr (read (hostRead_respond _ s trivial)))
  | rdwt x => exact .inr (.inr (read (hostRead_respond _ s trivial)))
  | rdct x => exact .inr (.inr (read (hostRead_respond _ s trivial)))
  | rdnode i => exact .inr (.inr (read (hostRead_respond _ s trivial)))

/-- A command word is illegal or runs an instruction (R81). -/
theorem issueCommand_cases (w : Word) (s : State) :
    issueCommand w s = .next (illegalCommand w s) ∨ ∃ i, issueCommand w s = exec i s := by
  rw [issueCommand]
  cases decodeCommand w with
  | error e => exact .inl rfl
  | ok i => exact .inr ⟨i, rfl⟩

/-- A write of CMD keeps the capacities, and sets at most one more bit of ERRLOG (R42, R44). -/
theorem issueCommand_next {w : Word} {s t : State} (h : issueCommand w s = .next t) :
    t.caps = s.caps ∧ (t.errlog = s.errlog ∨ ∃ code, t.errlog = logError s.errlog code) := by
  rcases issueCommand_cases w s with e | ⟨i, e⟩ <;> rw [e] at h
  · cases h
    exact ⟨rfl, .inr ⟨_, rfl⟩⟩
  · exact ⟨(exec_framed h).caps, (exec_framed h).errlog⟩

/-- Setting a bit clears none (R42). -/
theorem and_logError (log : Word) (code : BitVec 4) : log &&& logError log code = log := by
  ext k hk
  rw [logError, BitVec.getElem_and, BitVec.getElem_or]
  exact inf_sup_self

theorem hostOp_caps {op : HostOp} {s t : State} (h : hostOp op s = .next t) : t.caps = s.caps := by
  rcases hostOp_cases op s with rfl | ⟨v, _, e⟩ | ⟨_, _, _, e⟩
  · cases h
    rfl
  · obtain ⟨u, hu, rfl⟩ := respondOk_next (e.symm.trans h)
    exact (issueCommand_next hu).1
  · cases e.symm.trans h
    rfl

/-! ### Steps -/

theorem hostTurn_caps {s t : State} (h : hostTurn s = .next t) : t.caps = s.caps := by
  rw [hostTurn] at h
  split at h
  · cases h
    rfl
  · have hcaps := hostOp_caps h
    exact hcaps

theorem recordTurn_caps {s t : State} (h : recordTurn s = .next t) : t.caps = s.caps := by
  rw [recordTurn] at h
  split at h
  · exact (exec_framed h).caps
  · cases h
    rfl
  · cases h
    rfl

end Sys2Proof.Machine

namespace Sys2Proof.Proofs

open Sys2Proof.Machine

/-- Settles O46: `exec_framed`, with the table of R47 read by object. -/
theorem onlyDestinationsChange : Obligations.OnlyDestinationsChange := by
  intro i s t h
  have hf := exec_framed h
  refine ⟨fun _ _ => hf.obj (.buf .dbuf) ?_, fun _ _ _ _ _ => hf.obj (.buf .tbuf) ?_, fun _ _ _ _ => hf.obj (.buf .pbuf) ?_,
    fun _ _ => hf.obj (.buf .fbuf) ?_, fun _ _ => hf.obj .wt ?_, fun _ _ _ _ _ _ => sameTree_views (hf.obj .tree ?_),
    fun _ _ => hf.obj .ct ?_, fun _ _ _ _ => hf.obj .contentLen ?_, fun _ _ _ _ => hf.obj .consumed ?_,
    fun hi hv => exec_reading hi hv h, hf.caps, hf.host, hf.response⟩
  · simp [dbuf_mem_changes, *]
  · simp [tbuf_mem_changes, *]
  · simp [pbuf_mem_changes, *]
  · simp [fbuf_mem_changes, *]
  · simp [wt_mem_changes, *]
  · simp [tree_mem_changes, *]
  · simp [ct_mem_changes, *]
  · simp [contentLen_mem_changes, *]
  · simp [consumed_mem_changes, *]

/-- Settles O48: the frame of R235 writes the report. -/
theorem everyCommandReports : Obligations.EveryCommandReports := by
  intro i w s t hw h
  obtain ⟨body, hexec, hkeeps⟩ := exec_frame hw
  rw [hexec] at h
  obtain ⟨_, _, _, _, _, hlastop, hcompleted, hfaulted⟩ := frame_keeps hkeeps h
  exact ⟨hlastop, hcompleted, hfaulted⟩

/-- Settles O56: without H.RESET and CMD, `hostOp_cases` leaves the buffers, CONTENT_LEN and the response. -/
theorem hostCannotWriteResults : Obligations.HostCannotWriteResults := by
  intro op s t hreset hcmd h
  rcases hostOp_cases op s with e | ⟨v, e, _⟩ | ⟨_, _, _, e⟩
  · exact absurd e hreset
  · exact absurd e (hcmd v)
  · cases e.symm.trans h
    exact ⟨rfl, rfl, rfl, rfl, rfl, rfl, rfl, rfl, rfl, rfl, rfl, rfl, rfl⟩

/-- Settles O10: only a command writes ERRLOG, and it only adds a bit. -/
theorem resetOperation : Obligations.ResetOperation := by
  refine fun s => ⟨rfl, fun op t hop h => ?_⟩
  rcases hostOp_cases op s with e | ⟨v, _, e⟩ | ⟨_, _, _, e⟩
  · exact absurd e hop
  · obtain ⟨u, hu, rfl⟩ := respondOk_next (e.symm.trans h)
    rw [State.respond_errlog]
    rcases (issueCommand_next hu).2 with hlog | ⟨code, hlog⟩ <;> rw [hlog]
    · exact BitVec.and_self
    · exact and_logError _ _
  · cases e.symm.trans h
    exact BitVec.and_self

/-- Settles O14: neither a record of a tree nor a host operation writes the capacities. -/
theorem capacitiesAreConstant : Obligations.CapacitiesAreConstant := by
  intro s t h
  rw [step, turn] at h
  split at h
  · exact hostTurn_caps h
  · exact recordTurn_caps h

end Sys2Proof.Proofs

/-! SUPPORT. A command computes from its source objects and the capacities (10_state.md rules R39, R47): two runs whose states
agree on these stay in agreement, body by body, and so do the destinations, which the frame clears in both. -/

namespace Sys2Proof.Machine

theorem sameObj_symm {s t : State} {o : Obj} (h : sameObj s t o) : sameObj t s o := by
  cases o with
  | buf b => exact fun a => (h a).symm
  | _ => exact Eq.symm h

/-- Two states have the same capacities and hold the same in the objects of a list. -/
structure Agree (objs : List Obj) (s t : State) : Prop where
  caps : t.caps = s.caps
  obj : ∀ o ∈ objs, sameObj s t o

namespace Agree

variable {objs : List Obj} {s t : State}

theorem mono {more : List Obj} (h : Agree more s t) (hsub : ∀ o ∈ objs, o ∈ more) : Agree objs s t :=
  ⟨h.caps, fun o ho => h.obj o (hsub o ho)⟩

/-! ### Reading an object gives the same -/

theorem buf_eq (h : Agree objs s t) {b : Buf} (hb : .buf b ∈ objs) : t.buf b = s.buf b := sameObj_buf.1 (h.obj _ hb)

theorem wt_eq (h : Agree objs s t) (hw : .wt ∈ objs) : t.wt = s.wt := h.obj _ hw

theorem tree_eq (h : Agree objs s t) (ht : .tree ∈ objs) : t.tree = s.tree := h.obj _ ht

theorem ct_eq (h : Agree objs s t) (hc : .ct ∈ objs) : t.ct = s.ct := h.obj _ hc

theorem contentLen_eq (h : Agree objs s t) (hl : .contentLen ∈ objs) : t.contentLen = s.contentLen := h.obj _ hl

/-! ### Writing the same keeps the agreement, and extends it to the object written -/

/-- Two writes that leave every object but one alone and make that one the same. -/
theorem write {o : Obj} {s' t' : State} (h : Agree objs s t) (hs : Keeps [o] s s') (ht : Keeps [o] t t')
    (ho : sameObj s' t' o) : Agree (o :: objs) s' t' := by
  refine ⟨ht.caps.trans (h.caps.trans hs.caps.symm), fun p hp => ?_⟩
  by_cases hpo : p = o
  · rw [hpo]; exact ho
  · have hp' : p ∉ [o] := fun hm => hpo (List.mem_singleton.1 hm)
    have hst := h.obj p ((List.mem_cons.1 hp).resolve_left hpo)
    exact sameObj_trans (sameObj_trans (sameObj_symm (hs.obj p hp')) hst) (ht.obj p hp')

theorem tail {o : Obj} (h : Agree (o :: objs) s t) : Agree objs s t := h.mono fun _ => List.mem_cons_of_mem o

theorem setBuf (h : Agree objs s t) (b : Buf) (X : List Byte) : Agree objs (s.setBuf b X) (t.setBuf b X) :=
  (h.write (keeps_setBuf s b X) (keeps_setBuf t b X) (sameObj_buf.2 (by simp))).tail

theorem setTree (h : Agree objs s t) (x : Option NodeStore) : Agree objs { s with tree := x } { t with tree := x } :=
  (h.write (keeps_tree s x) (keeps_tree t x) rfl).tail

theorem setContentLen (h : Agree objs s t) (x : Word) : Agree objs { s with contentLen := x } { t with contentLen := x } :=
  (h.write (keeps_contentLen s x) (keeps_contentLen t x) rfl).tail

theorem commitTree (h : Agree objs s t) (r : TreeReading) : Agree objs (s.commitTree r) (t.commitTree r) :=
  ((h.setTree (some ⟨r.nodes, 0⟩)).write (keeps_consumed _ (wordOfNat r.cur)) (keeps_consumed _ (wordOfNat r.cur)) rfl).tail

theorem commitParsed (h : Agree objs s t) (p : Parsed) : Agree objs (s.commitParsed p) (t.commitParsed p) :=
  (((h.setBuf .tbuf _).setBuf .pbuf _).commitTree _).setContentLen _

theorem clearObj (h : Agree objs s t) (o : Obj) : Agree (o :: objs) (clearObj s o) (clearObj t o) := by
  refine h.write (keeps_clearObj s o) (keeps_clearObj t o) ?_
  cases o with
  | buf b => exact sameObj_buf.2 (by simp)
  | _ => rfl

theorem clearObjs (cleared : List Obj) :
    ∀ {objs : List Obj} {s t : State}, Agree objs s t → Agree (objs ++ cleared) (clearObjs cleared s) (clearObjs cleared t) := by
  induction cleared with
  | nil =>
    intro objs s t h
    rwa [List.append_nil]
  | cons o rest ih =>
    intro objs s t h
    exact (ih (h.clearObj o)).mono fun p hp => List.perm_middle.mem_iff.1 hp

/-- The destinations are cleared in both states, so with the sources they agree (R235 step 3). -/
theorem openFrame {i : Instr} (h : Agree (sources i) s t) (op : Byte) :
    Agree (sources i ++ destinations i) (openFrame i op s) (openFrame i op t) :=
  clearObjs (destinations i) (s := { s with lastop := op }) (t := { t with lastop := op }) ⟨h.caps, h.obj⟩

end Agree

/-! ### The bodies -/

/-- Two bodies ended in the same way, an error being the same error, and left states that agree. -/
inductive StepResult.Alike (objs : List Obj) : StepResult → StepResult → Prop where
  | done {s t : State} : Agree objs s t → Alike objs (.done s) (.done t)
  | raised {s t : State} (e : CmdError) : Agree objs s t → Alike objs (.raised s e) (.raised t e)
  | stuck (x : Fault) : Alike objs (.stuck x) (.stuck x)

theorem StepResult.Alike.andThen {objs : List Obj} {r r' : StepResult} {g : State → StepResult} (h : r.Alike objs r')
    (hg : ∀ u v, Agree objs u v → (g u).Alike objs (g v)) : (r.andThen g).Alike objs (r'.andThen g) := by
  cases h with
  | done h => exact hg _ _ h
  | raised e h => exact .raised e h
  | stuck x => exact .stuck x

/-- A body computes from the objects of a list: it ends alike in states that agree on these, whatever else they agree on. -/
def Determined (srcs : List Obj) (body : State → StepResult) : Prop :=
  ∀ (objs : List Obj) (s t : State), (∀ o ∈ srcs, o ∈ objs) → Agree objs s t → (body s).Alike objs (body t)

theorem Determined.mono {srcs more : List Obj} {body : State → StepResult} (h : Determined srcs body)
    (hsub : ∀ o ∈ srcs, o ∈ more) : Determined more body :=
  fun objs s t hmore => h objs s t fun o ho => hmore o (hsub o ho)

theorem Determined.andThen {srcs : List Obj} {f g : State → StepResult} (hf : Determined srcs f) (hg : Determined srcs g) :
    Determined srcs fun s => (f s).andThen g :=
  fun objs s t hsrc h => (hf objs s t hsrc h).andThen fun u v => hg objs u v hsrc

theorem needWt_alike {objs : List Obj} {s t : State} (h : Agree objs s t) (hw : .wt ∈ objs) {f g : WeightTable → StepResult}
    (hfg : ∀ W, (f W).Alike objs (g W)) : (needWt s f).Alike objs (needWt t g) := by
  rw [needWt, needWt, h.wt_eq hw]
  cases s.wt with
  | none => exact .raised _ h
  | some W => exact hfg W

theorem needCt_alike {objs : List Obj} {s t : State} (h : Agree objs s t) (hc : .ct ∈ objs) {f g : CodeTable → StepResult}
    (hfg : ∀ C, (f C).Alike objs (g C)) : (needCt s f).Alike objs (needCt t g) := by
  rw [needCt, needCt, h.ct_eq hc]
  cases s.ct with
  | none => exact .raised _ h
  | some C => exact hfg C

theorem needTree_alike {objs : List Obj} {s t : State} (h : Agree objs s t) (ht : .tree ∈ objs) {f g : CodeTree → StepResult}
    (hfg : ∀ T, (f T).Alike objs (g T)) : (needTree s f).Alike objs (needTree t g) := by
  rw [needTree, needTree, h.tree_eq ht]
  cases s.tree with
  | none => exact .raised _ h
  | some st =>
    cases hT : st.tree? with
    | none =>
      simp only [hT]
      exact .stuck _
    | some T =>
      simp only [hT]
      exact hfg T

theorem countStep_determined : Determined (sources .count) countStep := by
  intro objs s t hsrc h
  rw [countStep_eq, countStep_eq, h.buf_eq (hsrc _ (by decide))]
  exact .done (h.write (keeps_wt s _) (keeps_wt t _) rfl).tail

theorem buildStep_determined : Determined (sources .build) buildStep := by
  intro objs s t hsrc h
  refine needWt_alike h (hsrc _ (by decide)) fun W => ?_
  split
  · exact .raised _ h
  · exact .done (h.setTree _)

theorem genStep_determined : Determined (sources .gen) genStep := by
  intro objs s t hsrc h
  exact needTree_alike h (hsrc _ (by decide)) fun T =>
    .done (h.write (keeps_ct s _) (keeps_ct t (some (genTable T))) rfl).tail

theorem encodeStep_determined : Determined (sources .encode) encodeStep := by
  intro objs s t hsrc h
  refine needCt_alike h (hsrc _ (by decide)) fun C => ?_
  rw [h.buf_eq (hsrc _ (by decide)), h.caps]
  cases encodeBits C 0 (s.buf .dbuf) [] with
  | error e => exact .raised _ h
  | ok bits =>
    dsimp only
    split
    · exact .raised _ h
    · exact .done ((h.setBuf _ _).setContentLen _)

theorem serStep_determined : Determined (sources .ser) serStep := by
  intro objs s t hsrc h
  exact needTree_alike h (hsrc _ (by decide)) fun T => .done (h.setBuf _ _)

theorem asmStep_determined : Determined (sources .asm) asmStep := by
  intro objs s t hsrc h
  refine needTree_alike h (hsrc _ (by decide)) fun T => ?_
  rw [h.buf_eq (hsrc _ (by decide)), h.contentLen_eq (hsrc _ (by decide)), h.caps]
  split
  · exact .raised _ h
  · exact .done ((h.setBuf _ _).setBuf _ _)

theorem deserStep_determined : Determined (sources .deser) deserStep := by
  intro objs s t hsrc h
  rw [deserStep, deserStep, h.buf_eq (hsrc _ (by decide))]
  cases readTree (s.buf .tbuf) with
  | error e => exact .raised _ h
  | ok r => exact .done (h.commitTree r)

theorem parseStep_determined : Determined (sources .parse) parseStep := by
  intro objs s t hsrc h
  rw [parseStep, parseStep, h.buf_eq (hsrc _ (by decide)), h.caps]
  cases parseContainer s.caps (s.buf .fbuf) with
  | error e => exact .raised _ h
  | ok p => exact .done (h.commitParsed p)

theorem decodeStep_determined : Determined (sources .decode) decodeStep := by
  intro objs s t hsrc h
  refine needTree_alike h (hsrc _ (by decide)) fun T => ?_
  rw [h.buf_eq (hsrc _ (by decide)), h.contentLen_eq (hsrc _ (by decide)), h.caps]
  split
  · exact .raised _ h
  · cases decodeBytes (s.buf .pbuf) T s.contentLen.toNat with
    | error e => exact .raised _ h
    | ok D => exact .done (h.setBuf _ _)

/-- The later steps of COMPRESS read what the earlier ones wrote, which is among its destinations (R200). -/
theorem compressStep_determined : Determined (sources .compress ++ destinations .compress) compressStep := by
  intro objs s t hsrc h
  have hcount := countStep_determined.mono (more := sources .compress ++ destinations .compress) (by decide)
  have hbuild := buildStep_determined.mono (more := sources .compress ++ destinations .compress) (by decide)
  have hgen := genStep_determined.mono (more := sources .compress ++ destinations .compress) (by decide)
  have hencode := encodeStep_determined.mono (more := sources .compress ++ destinations .compress) (by decide)
  have hasm := asmStep_determined.mono (more := sources .compress ++ destinations .compress) (by decide)
  rw [compressStep, compressStep, h.buf_eq (hsrc _ (by decide))]
  split
  · exact .raised _ h
  · exact ((hcount.andThen hbuild).andThen hgen).andThen (hencode.andThen hasm) objs s t hsrc h

/-- DECODE runs on what PARSE wrote (R202). -/
theorem decompressStep_determined : Determined (sources .decompress ++ destinations .decompress) decompressStep :=
  have hparse := parseStep_determined.mono (more := sources .decompress ++ destinations .decompress) (by decide)
  have hdecode := decodeStep_determined.mono (more := sources .decompress ++ destinations .decompress) (by decide)
  hparse.andThen hdecode

/-! ### The commands -/

/-- Every command is the frame of R235 around a body that computes from its sources and from what it has itself written. -/
theorem exec_frame_determined {i : Instr} {w : Word} (h : encode i = .command w) :
    ∃ op body, (∀ s, exec i s = frame i op body s) ∧ Determined (sources i ++ destinations i) body := by
  have primitive : ∀ {body : State → StepResult}, Determined (sources i) body →
      Determined (sources i ++ destinations i) body := fun hb => hb.mono fun _ => List.mem_append_left _
  cases i with
  | count => exact ⟨_, _, fun _ => rfl, primitive countStep_determined⟩
  | build => exact ⟨_, _, fun _ => rfl, primitive buildStep_determined⟩
  | gen => exact ⟨_, _, fun _ => rfl, primitive genStep_determined⟩
  | encode => exact ⟨_, _, fun _ => rfl, primitive encodeStep_determined⟩
  | ser => exact ⟨_, _, fun _ => rfl, primitive serStep_determined⟩
  | asm => exact ⟨_, _, fun _ => rfl, primitive asmStep_determined⟩
  | parse => exact ⟨_, _, fun _ => rfl, primitive parseStep_determined⟩
  | deser => exact ⟨_, _, fun _ => rfl, primitive deserStep_determined⟩
  | decode => exact ⟨_, _, fun _ => rfl, primitive decodeStep_determined⟩
  | compress => exact ⟨_, _, fun _ => rfl, compressStep_determined⟩
  | decompress => exact ⟨_, _, fun _ => rfl, decompressStep_determined⟩
  | tagInternal => cases h
  | tagLeaf v => cases h

/-- The error reports are alike too; LASTOP is the frame's and not the body's (R235 step 6). -/
theorem StepResult.Alike.finish {objs : List Obj} {r r' : StepResult} {t : State} (h : r.Alike objs r')
    (hr : finish r = .next t) :
    ∃ t', finish r' = .next t' ∧ t'.err = t.err ∧ t'.sub = t.sub ∧ t'.errinfo = t.errinfo ∧ Agree objs t t' := by
  cases h with
  | done h =>
    cases hr
    exact ⟨_, rfl, rfl, rfl, rfl, h.caps, h.obj⟩
  | raised e h =>
    cases hr
    exact ⟨_, rfl, rfl, rfl, rfl, h.caps, h.obj⟩
  | stuck x => cases hr

end Sys2Proof.Machine

namespace Sys2Proof.Proofs

open Sys2Proof.Machine

/-- Settles O47: the body ends alike in two frames opened on the same sources, and step 6 of the frame reports that. -/
theorem onlySourcesMatter : Obligations.OnlySourcesMatter := by
  intro i w s s' t hw hcaps hsources hexec
  obtain ⟨op, body, hframe, hbody⟩ := exec_frame_determined hw
  have hopen := Agree.openFrame (i := i) ⟨hcaps, hsources⟩ op
  have hfinish : finish (body (openFrame i op s)) = .next t := (hframe s).symm.trans hexec
  obtain ⟨t', ht', herr, hsub, hinfo, hagree⟩ := (hbody _ _ _ (fun _ ho => ho) hopen).finish hfinish
  have hexec' : exec i s' = .next t' := (hframe s').trans ht'
  have hlastop : t'.lastop = t.lastop :=
    (everyCommandReports i w s' t' hw hexec').1.trans (everyCommandReports i w s t hw hexec).1.symm
  exact ⟨t', hexec', herr, hsub, hinfo, hlastop, fun o ho => hagree.obj o (List.mem_append_right _ ho)⟩

end Sys2Proof.Proofs

/-! SUPPORT. How an instruction comes to the next step, and what the host reads: STATUS, the registers and the code field
(10_state.md rules R38, R40, R43 to R45; 47_host_access.md rules R214, R215, R217). -/

namespace Sys2Proof.Machine

/-! ### The next instruction -/

/-- A write of CMD with a legal word runs the command (R43, R215). -/
theorem hostOp_command {v : Nat} (hv : v < 2 ^ 32) {i : Instr} (hi : decodeCommand (BitVec.ofNat 32 v) = .ok i) (s : State) :
    hostOp (.wrreg 0x00 v) s = respondOk (exec i s) := by
  have hissue : issueCommand (BitVec.ofNat 32 v) s = exec i s := by rw [issueCommand, hi]
  rw [← hissue]
  exact if_pos hv

/-- With no tree being read a step takes the next host operation (R15). -/
theorem step_hostOp {s : State} (hr : s.reading.todo = []) {op : HostOp} {rest : List HostOp} (hs : s.host = op :: rest) :
    step s = hostOp op { s with host := rest } := by
  rw [step, turn, if_pos hr, hostTurn, hs]

/-- While a tree is being read a step runs the record at the cursor (R163). -/
theorem step_record {s : State} (hr : s.reading.todo ≠ []) {i : Instr} {n : Nat}
    (hi : decodeRecord ((s.buf .tbuf).drop s.reading.cur) = .ok (i, n)) : step s = exec i s := by
  rw [step, turn, if_neg hr, recordTurn, hi]

/-- A table word of fewer than 32 bits is a record, and every other one a command word. -/
theorem decodeTableWord_record {nbits w : Nat} {i : Instr} (h : decodeTableWord nbits w = some i) (hn : nbits < 32) :
    ∃ n, decodeRecord (recordBytes w) = .ok (i, n) := by
  rw [decodeTableWord, if_pos hn] at h
  split at h
  · cases h
    exact ⟨_, by assumption⟩
  · cases h

theorem decodeTableWord_command {nbits w : Nat} {i : Instr} (h : decodeTableWord nbits w = some i) (hn : 32 ≤ nbits) :
    w < 2 ^ 32 ∧ decodeCommand (BitVec.ofNat 32 w) = .ok i := by
  rw [decodeTableWord, if_neg (Nat.not_lt.2 hn)] at h
  split at h
  · split at h
    · cases h
      exact ⟨by assumption, by assumption⟩
    · cases h
  · cases h

/-! ### Registers -/

/-- H.RDREG of a register that can be read (R214). -/
theorem hostOp_rdreg {r : Nat} {reg : Reg} {w : Word} {s : State} (hr : regOfNumber r = some reg) (hw : s.readReg reg = some w) :
    hostOp (.rdreg r) s = .next { s with response := some (.okWord w) } := by
  rw [hostOp, hostRdReg, hr]
  simp only [hw]
  rfl

/-- A number that names no register is refused (R219). -/
theorem hostOp_rdreg_unknown {r : Nat} (hr : 0x10 ≤ r) (s : State) :
    hostOp (.rdreg r) s = .next { s with response := some .refused } := by
  rw [hostOp, hostRdReg, regOfNumber_eq_none.2 hr]
  rfl

/-- The register of the length of a buffer (R25). -/
theorem regOfNumber_length (b : Buf) : ∃ reg, regOfNumber (0x08 + bufId b) = some reg ∧
    ∀ s : State, s.readReg reg = some (wordOfNat (s.buf b).length) := by
  cases b <;> exact ⟨_, rfl, fun _ => rfl⟩

/-- The register of the capacity of a buffer (R44). -/
theorem regOfNumber_capacity (b : Buf) : ∃ reg, regOfNumber (0x0C + bufId b) = some reg ∧
    ∀ s : State, ∃ w, s.readReg reg = some w ∧ w.toNat = capOf s.caps b := by
  cases b <;> exact ⟨_, rfl, fun _ => ⟨_, rfl, rfl⟩⟩

/-- The list of buffers in order of their ids (R24). -/
theorem buffers_getElem? {s : State} {k : Nat} {b : Buf} {X : List Byte} {cap : Nat} (h : s.buffers[k]? = some (b, X, cap)) :
    k = bufId b ∧ X = s.buf b ∧ cap = capOf s.caps b := by
  match k with
  | 0 | 1 | 2 | 3 =>
    cases h
    exact ⟨rfl, rfl, rfl⟩
  | k + 4 => cases h

/-- The fields of STATUS by position (R40). -/
theorem status_fields (s : State) :
    s.status.extractLsb' 0 4 = s.err ∧ s.status.extractLsb' 4 4 = s.sub ∧ s.status.extractLsb' 8 8 = s.lastop ∧
      s.status.getLsbD 16 = s.wt.isSome ∧ s.status.getLsbD 17 = s.tree.isSome ∧ s.status.getLsbD 18 = s.ct.isSome ∧
      s.status.extractLsb' 19 13 = 0 := by
  rw [State.status]
  refine ⟨?_, ?_, ?_, ?_, ?_, ?_, ?_⟩
  · exact BitVec.extractLsb'_append_eq_right
  · rw [BitVec.extractLsb'_append_eq_of_le (by decide)]
    exact BitVec.extractLsb'_append_eq_right
  · rw [BitVec.extractLsb'_append_eq_of_le (by decide), BitVec.extractLsb'_append_eq_of_le (by decide)]
    exact BitVec.extractLsb'_append_eq_right
  · simp only [BitVec.getLsbD_append]
    exact BitVec.getLsbD_ofBool _ _
  · simp only [BitVec.getLsbD_append]
    exact BitVec.getLsbD_ofBool _ _
  · simp only [BitVec.getLsbD_append]
    exact BitVec.getLsbD_ofBool _ _
  · iterate 6 rw [BitVec.extractLsb'_append_eq_of_le (by decide)]
    exact BitVec.extractLsb'_eq_self

theorem resetWith_status (caps : Capacities) : (State.resetWith caps).status = 0 := by
  show (0 : BitVec 13) ++ 0#1 ++ 0#1 ++ 0#1 ++ 0#8 ++ 0#4 ++ 0#4 = 0#32
  decide

/-! ### The code field -/

theorem bitsToNat_append_singleton (c : Bits) (b : Bool) : bitsToNat (c ++ [b]) = Nat.bit b (bitsToNat c) := by
  rw [bitsToNat, List.foldl_append, Nat.bit_val]
  cases b <;> rfl

/-- Bit i of a code read as a number is its element i from the end, and 0 beyond its length. -/
theorem bitsToNat_testBit (c : Bits) : ∀ i, (bitsToNat c).testBit i = c.reverse[i]?.getD false := by
  induction c using List.reverseRecOn with
  | nil => simp [bitsToNat]
  | append_singleton c b ih =>
    intro i
    rw [bitsToNat_append_singleton, List.reverse_append, List.reverse_singleton, List.singleton_append]
    cases i with
    | zero => simp
    | succ i => rw [Nat.testBit_bit_succ, ih, List.getElem?_cons_succ]

/-- Bit k of the code field is bit k - (255 - length) of the code (R217). -/
theorem codeField_getLsbD (c : Bits) (k : Nat) :
    (codeField c).getLsbD k =
      (decide (k < 255) && (decide (255 - c.length ≤ k) && c.reverse[k - (255 - c.length)]?.getD false)) := by
  rw [codeField, BitVec.getLsbD_ofNat, Nat.testBit_mul_two_pow, bitsToNat_testBit]
  rfl

theorem codeField_getLsbD_element {code : Bits} (hcode : code.length ≤ 255) {j : Nat} {b : Bool}
    (hj : code[j]? = some b) : (codeField code).getLsbD (254 - j) = b := by
  have hlt : j < code.length := (List.getElem?_eq_some_iff.1 hj).1
  have hpos : 254 - j - (255 - code.length) = code.length - 1 - j := by omega
  have hrev : code.reverse[code.length - 1 - j]? = some b := by
    rw [List.getElem?_reverse (by omega), ← hj]
    congr 1
    omega
  rw [codeField_getLsbD, hpos, hrev, decide_eq_true (by omega), decide_eq_true (by omega)]
  rfl

theorem codeField_getLsbD_below {c : Bits} {k : Nat} (hk : k + c.length < 255) : (codeField c).getLsbD k = false := by
  rw [codeField_getLsbD, decide_eq_false (p := 255 - c.length ≤ k) (by omega), Bool.false_and, Bool.and_false]

/-- H.RDCT of a valid code entry (R217). -/
theorem hostOp_rdct {s : State} {C : CodeTable} {x : Nat} {c : Bits} (hs : s.ct = some C) (hx : x < 256)
    (hc : C.get (BitVec.ofNat 8 x) = some c) :
    hostOp (.rdct x) s = .next { s with response := some (.okCode 1 (BitVec.ofNat 8 c.length) (codeField c)) } := by
  have hread : hostRdCt x s = s.respond (codeResponse (C.get (BitVec.ofNat 8 x))) := by
    rw [hostRdCt, if_pos hx]
    simp only [hs]
  rw [hostOp, hread, hc]
  rfl

end Sys2Proof.Machine

namespace Sys2Proof.Proofs

open Sys2Proof.Machine

/-- Settles O5: a step takes the operation, and a write of CMD runs the command. -/
theorem stepRunsIssuedCommand : Obligations.StepRunsIssuedCommand := by
  intro s w i rest hr hs hi
  have hi' : decodeCommand (BitVec.ofNat 32 w.toNat) = .ok i := by rwa [BitVec.ofNat_toNat, BitVec.setWidth_eq]
  rw [step_hostOp hr hs, hostOp_command w.isLt hi']
  cases exec i { s with host := rest } <;> rfl

/-- Settles O7: a record is at the cursor of the reading it opens, a command word at the head of the queue. -/
theorem placedWordRuns : Obligations.PlacedWordRuns := by
  intro s nbits w i h
  refine ⟨fun hn => ?_, fun hn => ?_⟩
  · obtain ⟨n, hi⟩ := decodeTableWord_record h hn
    rw [State.withFetchWord, if_pos hn]
    exact step_record (List.cons_ne_nil _ _) hi
  · obtain ⟨hw, hi⟩ := decodeTableWord_command h hn
    rw [State.withFetchWord, if_neg (Nat.not_lt.2 hn), State.withCommand, step_hostOp rfl rfl, hostOp_command hw hi]
    cases exec i { s with reading := TreeReading.idle } <;> rfl

/-- Settles O9: field by field. -/
theorem resetStateIsAsListed : Obligations.ResetStateIsAsListed := fun caps =>
  ⟨rfl, rfl, rfl, rfl, rfl, rfl, rfl, rfl, rfl, rfl, rfl, rfl, rfl, rfl, resetWith_status caps, rfl, rfl, rfl, rfl, rfl, rfl⟩

/-- Settles O49: H.RDREG delivers STATUS, and its fields stand where R40 puts them. -/
theorem statusFields : Obligations.StatusFields := fun s => ⟨s.status, hostOp_rdreg rfl rfl, status_fields s⟩

/-- Settles O50: each number by the register it names; a length and a node count fit the word that delivers them. -/
theorem registerReads : Obligations.RegisterReads := by
  intro s hwf
  refine ⟨rfl, rfl, rfl, rfl, rfl, fun hn => ?_, fun st hst => ?_, fun st hst hle => ?_, fun k b X cap hk => ?_,
    fun r hr => hostOp_rdreg_unknown hr s⟩
  · have hroot : s.readReg .root = some 0 := by rw [State.readReg, State.root, hn]; rfl
    have hcnt : s.readReg .nodeCnt = some 0 := by rw [State.readReg, State.nodeCnt, hn]; rfl
    exact ⟨hostOp_rdreg rfl hroot, hostOp_rdreg rfl hcnt⟩
  · have hroot : s.readReg .root = some (st.root.setWidth 32) := by rw [State.readReg, State.root, hst]
    exact ⟨_, hostOp_rdreg rfl hroot, BitVec.toNat_setWidth_of_le (by decide)⟩
  · have hcnt : s.readReg .nodeCnt = some (wordOfNat st.nodes.length) := by rw [State.readReg, State.nodeCnt, hst]
    exact ⟨_, hostOp_rdreg rfl hcnt, toNat_wordOfNat (by omega)⟩
  · obtain ⟨rfl, rfl, rfl⟩ := buffers_getElem? hk
    obtain ⟨reg, hreg, hlen⟩ := regOfNumber_length b
    obtain ⟨reg', hreg', hcap⟩ := regOfNumber_capacity b
    obtain ⟨w, hw, hval⟩ := hcap s
    exact ⟨⟨_, hostOp_rdreg hreg (hlen s), toNat_wordOfNat (Memory.length_lt hwf b)⟩, w, hostOp_rdreg hreg' hw, hval⟩

/-- Settles O53: the field is the code read as a number, moved up to the top of the 255 bits. -/
theorem codeFieldLayout : Obligations.CodeFieldLayout := by
  intro s C x code hs hx hcode hlen
  exact ⟨_, _, hostOp_rdct hs hx hcode, fun _ _ => codeField_getLsbD_element hlen, fun _ => codeField_getLsbD_below⟩

end Sys2Proof.Proofs

/-! SUPPORT. What the decoder answers, word by word and record by record, and that only an instruction's own encoding decodes
to it (30_encoding.md rules R80, R81, R85). -/

namespace Sys2Proof.Machine

/-! ### Commands -/

/-- A command word is its reserved bits followed by its opcode (R80). -/
theorem zeroField_append_opField (w : Word) : zeroField w ++ opField w = w :=
  (BitVec.extractLsb'_append_extractLsb'_eq_extractLsb' (start₁ := 0) (len₁ := 8) (len₂ := 24) rfl).trans
    BitVec.extractLsb'_eq_self

/-- An opcode that is no row of the table is illegal (R81). -/
theorem decodeOpcode_illegal {op : Byte} (h : op = 0 ∨ 0x0C ≤ op.toNat) : decodeOpcode op = .error .illegalCommand := by
  have hrange : op.toNat = 0 ∨ 0x0C ≤ op.toNat := h.imp_left (congrArg BitVec.toNat)
  rw [decodeOpcode]
  split
  case h_12 => rfl
  all_goals omega

/-- An opcode of the table decodes to the instruction whose word carries it (R80). -/
theorem decodeOpcode_legal {op : Byte} (h0 : op ≠ 0) (h : op.toNat < 0x0C) :
    ∃ i, decodeOpcode op = .ok i ∧ encode i = .command ((0 : BitVec 24) ++ op) := by
  obtain ⟨n, rfl⟩ : ∃ n : Fin 12, op = BitVec.ofNat 8 n := ⟨⟨op.toNat, h⟩, by simp⟩
  fin_cases n
  · exact absurd rfl h0
  all_goals exact ⟨_, rfl, rfl⟩

theorem decodeCommand_illegal {w : Word} (h : zeroField w ≠ 0 ∨ opField w = 0 ∨ 0x0C ≤ (opField w).toNat) :
    decodeCommand w = .error .illegalCommand := by
  by_cases hz : zeroField w = 0
  · exact (if_pos hz).trans (decodeOpcode_illegal (h.resolve_left (not_not_intro hz)))
  · exact if_neg hz

theorem decodeCommand_legal {w : Word} (hz : zeroField w = 0) (h0 : opField w ≠ 0) (h : (opField w).toNat < 0x0C) :
    ∃ i, decodeCommand w = .ok i ∧ encode i = .command w := by
  obtain ⟨i, hi, he⟩ := decodeOpcode_legal h0 h
  have hw : (0 : BitVec 24) ++ opField w = w := by rw [← hz, zeroField_append_opField]
  exact ⟨i, (if_pos hz).trans hi, hw ▸ he⟩

/-- Only the word of an instruction decodes to it (R80, R81). -/
theorem encode_of_decodeCommand {w : Word} {i : Instr} (h : decodeCommand w = .ok i) : encode i = .command w := by
  by_cases hw : zeroField w ≠ 0 ∨ opField w = 0 ∨ 0x0C ≤ (opField w).toNat
  · cases (decodeCommand_illegal hw).symm.trans h
  · push Not at hw
    obtain ⟨hz, h0, hlt⟩ := hw
    obtain ⟨j, hj, he⟩ := decodeCommand_legal hz h0 hlt
    cases hj.symm.trans h
    exact he

/-- What an illegal word leaves (R81, R247). -/
theorem illegalCommand_eq (w : Word) (s : State) :
    illegalCommand w s = { s with lastop := opField w, err := 8, sub := 0, errinfo := w, errlog := s.errlog ||| 0x100 } := by
  rw [illegalCommand, State.takeError, illegalCmdError, wordOfNat_toNat]
  rfl

/-! ### Records -/

/-- The front of a byte sequence is one of the two records, or ends too early, or is an unknown marker (R85, R163). -/
theorem decodeRecord_cases (X : List Byte) :
    (∃ Y, X = 0x00 :: Y ∧ decodeRecord X = .ok (.tagInternal, 1)) ∨
      (∃ v Y, X = 0x01 :: v :: Y ∧ decodeRecord X = .ok (.tagLeaf v, 2)) ∨
      decodeRecord X = .error .truncatedRecord ∨ decodeRecord X = .error .unknownTag := by
  match X with
  | [] => exact .inr (.inr (.inl rfl))
  | tag :: rest =>
    by_cases h0 : tag = 0x00
    · subst h0
      exact .inl ⟨rest, rfl, rfl⟩
    · by_cases h1 : tag = 0x01
      · subst h1
        match rest with
        | [] => exact .inr (.inr (.inl rfl))
        | v :: Y => exact .inr (.inl ⟨v, Y, rfl, rfl⟩)
      · exact .inr (.inr (.inr ((if_neg h0).trans (if_neg h1))))

/-- A record that takes all the bytes is the encoding of its instruction (R85). -/
theorem encode_of_decodeRecord {X : List Byte} {i : Instr} {size : Nat} (h : decodeRecord X = .ok (i, size))
    (hsize : X.length = size) : encode i = .record X := by
  rcases decodeRecord_cases X with ⟨Y, rfl, e⟩ | ⟨v, Y, rfl, e⟩ | e | e <;> cases e.symm.trans h
  · obtain rfl : Y = [] := List.length_eq_zero_iff.1 (Nat.succ.inj hsize)
    rfl
  · obtain rfl : Y = [] := List.length_eq_zero_iff.1 (Nat.succ.inj (Nat.succ.inj hsize))
    rfl

/-! ### Both -/

/-- The encoding of an instruction decodes to it (R80, R85). -/
theorem decode_encode_instr (i : Instr) : Laws.Encoding.Statement i := by
  cases i with
  | count => exact Laws.Encoding.count
  | build => exact Laws.Encoding.build
  | gen => exact Laws.Encoding.gen
  | encode => exact Laws.Encoding.encode
  | ser => exact Laws.Encoding.ser
  | asm => exact Laws.Encoding.asm
  | parse => exact Laws.Encoding.parse
  | deser => exact Laws.Encoding.deser
  | decode => exact Laws.Encoding.decode
  | compress => exact Laws.Encoding.compress
  | decompress => exact Laws.Encoding.decompress
  | tagInternal => exact Laws.Encoding.tagInternal
  | tagLeaf v => exact Laws.Encoding.tagLeaf v

/-- What decodes to an instruction is its encoding (R80, R81, R85). -/
theorem encode_of_decode {e : Encoded} {i : Instr} (h : decode e = .ok i) : encode i = e := by
  cases e with
  | command w => exact encode_of_decodeCommand h
  | record X =>
    rw [decode] at h
    split at h
    case h_1 => cases h
    case h_2 j size hj =>
      split at h
      case isTrue hsize =>
        cases h
        exact encode_of_decodeRecord hj hsize
      case isFalse => cases h

end Sys2Proof.Machine

namespace Sys2Proof.Proofs

open Sys2Proof.Machine

/-- Settles O3: an encoding decodes to its instruction, and `encode_of_decode` leaves no second one. -/
theorem oneEncodingPerInstruction : Obligations.OneEncodingPerInstruction :=
  ⟨fun i _ => (decode_encode_instr i).2, fun _ i h => ⟨(decode_encode_instr i).1, (encode_of_decode h).symm⟩⟩

/-- Settles O2: the word decodes to nothing, or to the command whose encoding it is. -/
theorem illegalWordsFault : Obligations.IllegalWordsFault := by
  intro w s
  refine ⟨fun h => ?_, fun hz h0 hlt => ?_⟩
  · have hfault : issueCommand w s = .next (illegalCommand w s) := by rw [issueCommand, decodeCommand_illegal h]
    rw [hfault, illegalCommand_eq]
    rfl
  · obtain ⟨i, hi, he⟩ := decodeCommand_legal hz h0 hlt
    exact ⟨i, he, by rw [issueCommand, hi]⟩

/-- Settles O1: the decoder computes. -/
theorem listedWordsDecode : Obligations.ListedWordsDecode :=
  ⟨rfl, rfl, rfl, rfl, rfl, rfl, rfl, rfl, rfl, rfl, rfl, rfl, rfl, rfl, rfl, rfl, rfl, rfl, rfl⟩

end Sys2Proof.Proofs

/-! SUPPORT. A DESER watched record by record (44_tree_codec.md rules R163, R165, R168): what each record does to the reading,
what a step does, and that the steps together are the loop of DESER. -/

namespace Sys2Proof.Machine

/-! ### One record -/

/-- A record for which a node is due is allocated while the store is not full (R163). -/
theorem TreeReading.alloc_room {r : TreeReading} {slot : Slot} {more : List Slot} (hr : r.todo = slot :: more)
    (room : r.nodes.length ≠ 511) (size : Nat) (node : Node) (due : List Slot) :
    r.alloc size node due
      = .ok { cur := r.cur + size, nodes := slot.fill r.nodes.length r.nodes ++ [node], todo := due ++ more } := by
  rw [TreeReading.alloc, hr]
  exact if_neg room

/-- An accepted record moves the cursor behind itself. -/
theorem TreeReading.alloc_cur {r r' : TreeReading} {size : Nat} {node : Node} {due : List Slot} (hr : r.todo ≠ [])
    (h : r.alloc size node due = .ok r') : r'.cur = r.cur + size := by
  obtain ⟨slot, more, hr⟩ := List.exists_cons_of_ne_nil hr
  by_cases full : r.nodes.length = Config.nodeCap
  · cases (TreeReading.alloc_full hr full size node due).symm.trans h
  · cases (TreeReading.alloc_room hr full size node due).symm.trans h
    rfl

/-- With no node due a record is not read (R165). -/
theorem acceptRecord_none_due {s : State} (h : s.reading.todo = []) (next : Except CmdError TreeReading) :
    acceptRecord next s = .next s :=
  if_pos h

theorem acceptRecord_error {s : State} (h : s.reading.todo ≠ []) {next : Except CmdError TreeReading} {e : CmdError}
    (hnext : next = .error e) : acceptRecord next s = .next (s.failReading e) := by
  subst hnext
  exact if_neg h

theorem acceptRecord_ok {s : State} (h : s.reading.todo ≠ []) {next : Except CmdError TreeReading} {r : TreeReading}
    (hnext : next = .ok r) : acceptRecord next s = .next (s.advanceReading r) := by
  subst hnext
  exact if_neg h

theorem acceptRecord_full {s : State} (h : s.reading.todo ≠ []) (full : s.reading.nodes.length = 511) (size : Nat)
    (node : Node) (due : List Slot) :
    acceptRecord (s.reading.alloc size node due) s
      = .next ({ s with reading := TreeReading.idle }.afterError s.lastop 7 5 0) := by
  obtain ⟨slot, more, hr⟩ := List.exists_cons_of_ne_nil h
  exact acceptRecord_error h (TreeReading.alloc_full hr full size node due)

theorem acceptRecord_room {s : State} {slot : Slot} {more : List Slot} (hr : s.reading.todo = slot :: more)
    (room : s.reading.nodes.length ≠ 511) (size : Nat) (node : Node) (due : List Slot) :
    acceptRecord (s.reading.alloc size node due) s
      = .next (s.advanceReading { cur := s.reading.cur + size,
                                  nodes := slot.fill s.reading.nodes.length s.reading.nodes ++ [node],
                                  todo := due ++ more }) :=
  acceptRecord_ok (hr ▸ List.cons_ne_nil _ _) (TreeReading.alloc_room hr room size node due)

/-- While nodes are due the reading goes on. -/
theorem State.advanceReading_due (s : State) {r : TreeReading} (h : r.todo ≠ []) :
    s.advanceReading r = { s with reading := r } :=
  if_neg h

/-! ### One step -/

/-- Bytes that end where a marker or a value is due end the DESER (R163). -/
theorem step_truncatedRecord {s : State} (hr : s.reading.todo ≠ [])
    (h : decodeRecord ((s.buf .tbuf).drop s.reading.cur) = .error .truncatedRecord) :
    step s = .next (s.failReading (malformedTreeError 2 (s.buf .tbuf).length)) := by
  rw [step, turn, if_neg hr, recordTurn, h]

/-- An unknown marker ends the DESER (R163). -/
theorem step_unknownTag {s : State} (hr : s.reading.todo ≠ [])
    (h : decodeRecord ((s.buf .tbuf).drop s.reading.cur) = .error .unknownTag) :
    step s = .next (s.failReading (malformedTreeError 1 s.reading.cur)) := by
  rw [step, turn, if_neg hr, recordTurn, h]

/-! ### The run -/

/-- The state a reading ends in, given the result of the loop of DESER (R163, R235 step 6). -/
def State.endReading (s : State) : Except CmdError TreeReading → State
  | .error e => s.failReading e
  | .ok r => ({ s with reading := TreeReading.idle }.commitTree r).succeed

/-- The local values of the reading do not outlive it (R39). -/
theorem State.endReading_reading (s : State) (r : TreeReading) (result : Except CmdError TreeReading) :
    State.endReading { s with reading := r } result = s.endReading result := by
  cases result <;> rfl

theorem State.advanceReading_done (s : State) {r : TreeReading} (h : r.todo = []) :
    s.advanceReading r = s.endReading (.ok r) :=
  if_pos h

/-- A run goes on from the next state. -/
theorem run_succ {s t : State} (h : step s = .next t) (k : Nat) :
    Host.Core.run Sys2Proof.core (k + 1) s = Host.Core.run Sys2Proof.core k t := by
  have hcore : Sys2Proof.core.step s = .next t := h
  simp only [Host.Core.run, hcore]

/-- Some steps, at least one, lead from s to t. -/
def Leads (s t : State) : Prop := ∃ k, 1 ≤ k ∧ Host.Core.run Sys2Proof.core k s = .next t

theorem Leads.single {s t : State} (h : step s = .next t) : Leads s t := ⟨1, le_rfl, run_succ h 0⟩

theorem Leads.cons {s t u : State} (h : step s = .next t) (htu : Leads t u) : Leads s u := by
  obtain ⟨k, _, hk⟩ := htu
  exact ⟨k + 1, Nat.succ_pos k, (run_succ h k).trans hk⟩

/-- A step that runs a record, and then the steps for the bytes behind it, end as the record and the loop on those bytes
do. -/
theorem leads_record {s : State} {next : Except CmdError TreeReading} {rest : List Byte} (hr : s.reading.todo ≠ [])
    (hstep : step s = acceptRecord next s)
    (hrest : ∀ r, next = .ok r → r.todo ≠ [] → Leads { s with reading := r } (s.endReading (readRecords rest r))) :
    Leads s (s.endReading (next.bind (readRecords rest))) := by
  cases hn : next with
  | error e => exact Leads.single (hstep.trans (acceptRecord_error hr hn))
  | ok r =>
    have hnext : step s = .next (s.advanceReading r) := hstep.trans (acceptRecord_ok hr hn)
    show Leads s (s.endReading (readRecords rest r))
    by_cases hdone : r.todo = []
    · rw [readRecords_done rest hdone, ← s.advanceReading_done hdone]
      exact Leads.single hnext
    · rw [s.advanceReading_due hdone] at hnext
      exact Leads.cons hnext (hrest r hn hdone)

/-- The loop of DESER at a record: it runs the record and goes on behind it. -/
theorem readRecords_tagInternal (Y : List Byte) {r : TreeReading} (h : r.todo ≠ []) :
    readRecords (0x00 :: Y) r = r.internal.bind (readRecords Y) := by
  rw [readRecords_internal Y h]
  cases r.internal <;> rfl

theorem readRecords_tagLeaf (v : Byte) (Y : List Byte) {r : TreeReading} (h : r.todo ≠ []) :
    readRecords (0x01 :: v :: Y) r = (r.leaf v).bind (readRecords Y) := by
  rw [readRecords_leaf v Y h]
  cases r.leaf v <;> rfl

/-- The steps from inside a reading end as the loop of DESER does on the bytes from the cursor on (R86, R163). The induction
is over the number of these bytes. -/
theorem leads_readRecords (n : Nat) : ∀ s : State, s.reading.todo ≠ [] → s.reading.cur + n = (s.buf .tbuf).length →
    Leads s (s.endReading (readRecords ((s.buf .tbuf).drop s.reading.cur) s.reading)) := by
  induction n using Nat.strong_induction_on with
  | _ n ih =>
    intro s hr hn
    have hlen : ((s.buf .tbuf).drop s.reading.cur).length = n := by
      rw [List.length_drop, ← hn, Nat.add_sub_cancel_left]
    have hrest : ∀ {size : Nat} {node : Node} {due : List Slot} {Y : List Byte}, Y.length + size = n → 1 ≤ size →
        ((s.buf .tbuf).drop s.reading.cur).drop size = Y →
        ∀ r, s.reading.alloc size node due = .ok r → r.todo ≠ [] →
          Leads { s with reading := r } (s.endReading (readRecords Y r)) := by
      intro size node due Y hsize hpos hY r hnext hdue
      have hcur := TreeReading.alloc_cur hr hnext
      have hend : r.cur + Y.length = (s.buf .tbuf).length := by omega
      have hih := ih Y.length (by omega) { s with reading := r } hdue hend
      rw [State.endReading_reading] at hih
      rw [List.drop_drop, ← hcur] at hY
      exact hY ▸ hih
    rcases decodeRecord_cases ((s.buf .tbuf).drop s.reading.cur) with ⟨Y, hX, hi⟩ | ⟨v, Y, hX, hi⟩ | hi | hi
    · rw [hX, List.length_cons] at hlen
      rw [hX, readRecords_tagInternal Y hr]
      exact leads_record hr (step_record hr hi) (hrest hlen le_rfl (congrArg (List.drop 1) hX))
    · rw [hX, List.length_cons, List.length_cons] at hlen
      rw [hX, readRecords_tagLeaf v Y hr]
      exact leads_record hr (step_record hr hi) (hrest hlen one_le_two (congrArg (List.drop 2) hX))
    · rw [readRecords_decode _ hr, hi, hlen, hn]
      exact Leads.single (step_truncatedRecord hr hi)
    · rw [readRecords_decode _ hr, hi]
      exact Leads.single (step_unknownTag hr hi)

/-- From the opening of a DESER the steps end as its loop does on all of TBUF. -/
theorem leads_openDeser (s : State) : Leads s.openDeser (s.openDeser.endReading (readTree s.mem.tbuf)) :=
  leads_readRecords _ s.openDeser (List.cons_ne_nil _ _) (Nat.zero_add _)

/-- DESER ends in the state in which the reading opened by it ends (R163, R235). -/
theorem exec_deser_endReading {s : State} (h : s.reading = TreeReading.idle) :
    exec .deser s = .next (s.openDeser.endReading (readTree s.mem.tbuf)) := by
  rw [exec_deser]
  cases readTree s.mem.tbuf with
  | error e =>
    rw [State.endReading, State.failReading, ← h]
    rfl
  | ok r =>
    rw [State.endReading, ← h]
    rfl

end Sys2Proof.Machine

namespace Sys2Proof.Proofs

open Sys2Proof.Machine

/-- Settles O31: by `leads_readRecords`, an induction over the bytes of TBUF that are still to be read. -/
theorem deserRunsRecordByRecord : Obligations.DeserRunsRecordByRecord := by
  intro s h
  obtain ⟨k, hk, hrun⟩ := leads_openDeser s
  exact ⟨k, hk, hrun.trans (exec_deser_endReading h).symm⟩

/-- Settles O6: by what the decoder answers for the bytes at the cursor. -/
theorem stepRunsTreeRecord : Obligations.StepRunsTreeRecord :=
  fun _ hr => ⟨fun _ _ => step_record hr, fun _ => step_truncatedRecord hr, step_unknownTag hr⟩

/-- Settles O32: by whether the store has room; two subtrees are due after the marker, so the reading goes on. -/
theorem internalRecordOpensTwoSubtrees : Obligations.InternalRecordOpensTwoSubtrees := by
  intro s
  refine ⟨fun slot more hr room => ?_, fun hr full => acceptRecord_full hr full _ _ _, fun h => acceptRecord_none_due h _⟩
  rw [← State.advanceReading_due s (List.cons_ne_nil _ _)]
  exact acceptRecord_room hr room _ _ _

/-- Settles O33: by whether the store has room and whether a node is due after the leaf. -/
theorem leafRecordClosesASubtree : Obligations.LeafRecordClosesASubtree := by
  intro s v
  refine ⟨fun slot next more hr room => ?_, fun slot hr room => acceptRecord_room hr room _ _ _,
    fun hr full => acceptRecord_full hr full _ _ _, fun h => acceptRecord_none_due h _⟩
  rw [← State.advanceReading_due s (List.cons_ne_nil _ _)]
  exact acceptRecord_room hr room _ _ _

end Sys2Proof.Proofs

/-! SUPPORT. The records of a serialized tree: the counter `need` over them, and what SER writes (30_encoding.md rules R84 to
R87; 44_tree_codec.md rule R161). -/

namespace Sys2Proof.Machine

/-- The number of leaf records in a list of tree records. -/
def leafCount (is : List Instr) : Nat := is.countP fun i => decide (i ≠ .tagInternal)

/-- The number of internal markers in a list of tree records. -/
def markerCount (is : List Instr) : Nat := is.countP fun i => decide (i = .tagInternal)

@[simp] theorem leafCount_nil : leafCount [] = 0 := rfl
@[simp] theorem markerCount_nil : markerCount [] = 0 := rfl

@[simp] theorem leafCount_tagInternal (is : List Instr) : leafCount (.tagInternal :: is) = leafCount is := by
  simp [leafCount]

@[simp] theorem markerCount_tagInternal (is : List Instr) : markerCount (.tagInternal :: is) = markerCount is + 1 := by
  simp [markerCount]

@[simp] theorem leafCount_append (is js : List Instr) : leafCount (is ++ js) = leafCount is + leafCount js :=
  List.countP_append

@[simp] theorem markerCount_append (is js : List Instr) : markerCount (is ++ js) = markerCount is + markerCount js :=
  List.countP_append

/-- Over a whole tree the counter `need` goes down from 1 to 0 (R86). -/
theorem leafCount_records (T : CodeTree) : leafCount T.records = markerCount T.records + 1 := by
  induction T with
  | leaf v w => rfl
  | internal w L R hL hR =>
    rw [CodeTree.records, leafCount_tagInternal, markerCount_tagInternal, leafCount_append, markerCount_append, hL, hR]
    omega

/-- Before the last record of a tree the counter `need` is above 0 (R86): inside the left subtree, and then inside the right
one, when the left subtree as a whole has taken back the 1 that the marker added. -/
theorem leafCount_take_records (T : CodeTree) :
    ∀ k < T.records.length, leafCount (T.records.take k) ≤ markerCount (T.records.take k) := by
  induction T with
  | leaf v w =>
    intro k hk
    obtain rfl : k = 0 := Nat.lt_one_iff.1 hk
    exact le_rfl
  | internal w L R hL hR =>
    intro k hk
    cases k with
    | zero => exact le_rfl
    | succ k =>
      rw [CodeTree.records, List.length_cons, List.length_append] at hk
      rw [CodeTree.records, List.take_succ_cons, leafCount_tagInternal, markerCount_tagInternal, List.take_append,
        leafCount_append, markerCount_append]
      by_cases hleft : k < L.records.length
      · have hneed := hL k hleft
        rw [Nat.sub_eq_zero_of_le hleft.le, List.take_zero, leafCount_nil, markerCount_nil]
        omega
      · have hneed := hR (k - L.records.length) (by omega)
        rw [List.take_of_length_le (Nat.le_of_not_lt hleft), leafCount_records]
        omega

end Sys2Proof.Machine

namespace Sys2Proof.Proofs

open Sys2Proof.Machine

/-- Settles O4: `leafCount_take_records` before the last record, `leafCount_records` after it. -/
theorem needCounterEndsTheTree : Obligations.NeedCounterEndsTheTree := by
  intro T k hk
  refine ⟨⟨fun hneed => ?_, leafCount_take_records T k⟩, leafCount_records T⟩
  refine lt_of_le_of_ne hk fun hall => ?_
  have hdone : leafCount T.records ≤ markerCount T.records := by
    rwa [hall, List.take_length] at hneed
  rw [leafCount_records] at hdone
  exact Nat.not_succ_le_self _ hdone

/-- Settles O26: the serialized form is the records, and a valid tree has at most 256 leaves. -/
theorem serWritesTheRecords : Obligations.SerWritesTheRecords := by
  intro s st T hs hv hT
  obtain ⟨_, _, hmax⟩ := hv.bounds hT
  rw [recordsBytes_records]
  exact ⟨exec_ser hs hT, T.ser_length, hmax⟩

end Sys2Proof.Proofs

/-! SUPPORT. The operations of H.LOAD run one after the other (30_encoding.md rule R92; 47_host_access.md rules R211, R212). -/

namespace Sys2Proof.Machine

/-- Of two writes of a buffer the second remains. -/
theorem Memory.put_put (m : Memory) (b : Buf) (X Y : List Byte) : (m.put b X).put b Y = m.put b Y := by
  cases b <;> rfl

/-- A write leaves the bytes of every other buffer (R47). -/
theorem Memory.readByte_put_other (m : Memory) {b c : Buf} (h : c ≠ b) (X : List Byte) (i : Nat) :
    (m.put b X).readByte c i = m.readByte c i := by
  rw [Memory.readByte, Memory.get_put_other m h.symm, Memory.readByte]

theorem Memory.readByte_put_self (m : Memory) (b : Buf) (X : List Byte) (i : Nat) : (m.put b X).readByte b i = X[i]? := by
  rw [Memory.readByte, Memory.get_put_self]

/-- The state inside an H.LOAD: the buffer b holds X, and the operations `host` are still to be issued (R92). -/
def State.loading (s : State) (b : Buf) (X : List Byte) (host : List HostOp) : State :=
  { s with mem := s.mem.put b X, host := host, response := some .ok }

theorem State.loading_setBuf (s : State) (b : Buf) (X Y : List Byte) (host : List HostOp) :
    ((s.loading b X host).setBuf b Y).respond .ok = s.loading b Y host := by
  rw [State.setBuf, State.loading, State.loading, Memory.put_put]
  rfl

/-- H.CLEAR opens the H.LOAD (R211). -/
theorem step_clear {s : State} (hr : s.reading.todo = []) {b : Buf} {rest : List HostOp}
    (hs : s.host = .clear (bufId b) :: rest) : step s = .next (s.loading b [] rest) := by
  rw [step_hostOp hr hs, hostOp, hostClear_id]
  rfl

/-- H.PUSH appends its byte to a buffer that is not full (R212). -/
theorem step_push {s : State} (hr : s.reading.todo = []) {b : Buf} {X : List Byte} (v : Byte) (rest : List HostOp)
    (room : X.length < capOf s.caps b) :
    step (s.loading b X (.push (bufId b) v.toNat :: rest)) = .next (s.loading b (X ++ [v]) rest) := by
  have hbuf : (s.loading b X rest).buf b = X := s.mem.get_put_self b X
  have hpush := hostPush_room (b := b) (s := s.loading b X rest) v.isLt (hbuf.symm ▸ room)
  rw [BitVec.ofNat_toNat, BitVec.setWidth_eq, hbuf] at hpush
  have hstep : step (s.loading b X (.push (bufId b) v.toNat :: rest))
      = hostOp (.push (bufId b) v.toNat) (s.loading b X rest) :=
    step_hostOp (s := s.loading b X (_ :: rest)) hr rfl
  rw [hstep, hostOp, hpush, State.loading_setBuf]

/-- The pushes of H.LOAD append their bytes to the buffer (R92). -/
theorem run_pushes {s : State} (hr : s.reading.todo = []) {b : Buf} {rest : List HostOp} (bytes : List Byte) :
    ∀ X : List Byte, X.length + bytes.length ≤ capOf s.caps b →
      Host.Core.run Sys2Proof.core bytes.length (s.loading b X (bytes.map (fun v => .push (bufId b) v.toNat) ++ rest))
        = .next (s.loading b (X ++ bytes) rest) := by
  induction bytes with
  | nil =>
    intro X _
    rw [List.append_nil]
    rfl
  | cons v bytes ih =>
    intro X room
    rw [List.length_cons] at room
    rw [List.length_cons, List.map_cons, List.cons_append, run_succ (step_push hr v _ (by omega))]
    have hrest := ih (X ++ [v]) (by rw [List.length_append, List.length_singleton]; omega)
    rwa [List.append_assoc] at hrest

/-- H.LOAD leaves the given bytes in the buffer (R92). -/
theorem run_load {s : State} {b : Buf} {bytes : List Byte} {rest : List HostOp} (hr : s.reading.todo = [])
    (hs : s.host = hostLoad (bufId b) bytes ++ rest) (room : bytes.length ≤ capOf s.caps b) :
    Host.Core.run Sys2Proof.core (bytes.length + 1) s = .next (s.loading b bytes rest) := by
  rw [run_succ (step_clear hr hs)]
  exact run_pushes hr bytes [] (by rwa [List.length_nil, Nat.zero_add])

end Sys2Proof.Machine

namespace Sys2Proof.Proofs

open Sys2Proof.Machine

/-- Settles O57: by `run_load`. -/
theorem loadFillsTheBuffer : Obligations.LoadFillsTheBuffer := by
  intro s k b X cap bytes rest hidle hk room hs
  obtain ⟨rfl, rfl, rfl⟩ := buffers_getElem? hk
  have hr : s.reading.todo = [] := by rw [hidle]; rfl
  exact ⟨s.mem.put b bytes, run_load hr hs room, s.mem.readByte_put_self b bytes, fun _ i hc => s.mem.readByte_put_other hc bytes i⟩

end Sys2Proof.Proofs

/-! SUPPORT. COMPRESS step by step: after COUNT, BUILD and GEN, which complete on a non-empty DBUF, it ends with ENCODE's
error, with ASM's error, or with the container (46_composite.md rules R200, R201). -/

namespace Sys2Proof.Machine

/-- A state inside COMPRESS, T being the tree BUILD made of DBUF: the tables are committed, and the other destinations hold what
is given (R200). -/
def State.compressing (s : State) (T : CodeTree) (tbuf pbuf fbuf : List Byte) (contentLen : Word) : State :=
  { s with lastop := 0x0A, mem := { dbuf := s.mem.dbuf, tbuf, pbuf, fbuf }, wt := some (countTable s.mem.dbuf),
           tree := some (buildStore (countTable s.mem.dbuf)), ct := some (genTable T), contentLen }

/-- The frame of COMPRESS has cleared what COUNT, BUILD and GEN do not write (R235). -/
theorem openFrame_withTables (s : State) (T : CodeTree) :
    (openFrame .compress 0x0A s).withTables T = s.compressing T [] [] [] 0 := rfl

theorem compressing_commitPayload (s : State) (T : CodeTree) (tbuf pbuf fbuf : List Byte) (contentLen : Word) (bits : Bits) :
    (s.compressing T tbuf pbuf fbuf contentLen).commitPayload bits
      = s.compressing T tbuf (pack (padded bits)) fbuf (wordOfNat s.mem.dbuf.length) := rfl

theorem compressing_setBuf_tbuf (s : State) (T : CodeTree) (tbuf pbuf fbuf X : List Byte) (contentLen : Word) :
    (s.compressing T tbuf pbuf fbuf contentLen).setBuf .tbuf X = s.compressing T X pbuf fbuf contentLen := rfl

theorem compressing_setBuf_fbuf (s : State) (T : CodeTree) (tbuf pbuf fbuf X : List Byte) (contentLen : Word) :
    (s.compressing T tbuf pbuf fbuf contentLen).setBuf .fbuf X = s.compressing T tbuf pbuf X contentLen := rfl

/-- The bits of DBUF in the codes of the tree T (R83, R141). -/
def State.codedBits (s : State) (T : CodeTree) : Bits := s.mem.dbuf.flatMap (codeOf (genTable T))

theorem openFrame_compress_wf {s : State} (h : s.mem.wf s.caps = true) :
    (openFrame .compress 0x0A s).mem.wf (openFrame .compress 0x0A s).caps = true := by
  rw [openFrame_compress]
  exact Memory.wf_put (Memory.wf_put (Memory.wf_put h (Nat.zero_le _)) (Nat.zero_le _)) (Nat.zero_le _)

section

variable {s : State} {T : CodeTree} (hwf : s.mem.wf s.caps = true) (hne : s.mem.dbuf ≠ [])
  (hT : (buildStore (countTable s.mem.dbuf)).tree? = some T)

include hwf hne hT

/-- The first three steps of COMPRESS complete; ENCODE and ASM decide how it ends. -/
theorem exec_compress :
    exec .compress s = finish ((encodeStep (s.compressing T [] [] [] 0)).andThen asmStep) := by
  obtain ⟨T', hT', _, hstep⟩ := compressStep_eq (openFrame_compress_wf hwf) hne
  obtain rfl : T = T' := Option.some.inj (hT.symm.trans hT')
  rw [exec, execCompress, frame, hstep, openFrame_withTables]

/-- ENCODE inside COMPRESS finds a code for every byte; only its payload may not fit (R201). -/
theorem compressing_encodeStep :
    (s.caps.pbuf.toNat < ((s.codedBits T).length + 7) / 8 ∧
        encodeStep (s.compressing T [] [] [] 0) = .raised (s.compressing T [] [] [] 0) (capacityError 3)) ∨
      (((s.codedBits T).length + 7) / 8 ≤ s.caps.pbuf.toNat ∧
        encodeStep (s.compressing T [] [] [] 0)
          = .done (s.compressing T [] (pack (padded (s.codedBits T))) [] (wordOfNat s.mem.dbuf.length))) :=
  encodeStep_some (s := s.compressing T [] [] [] 0) rfl (genTable_covers (Memory.length_lt hwf .dbuf) hne hT)

/-- The payload does not fit: what COUNT, BUILD and GEN made stays (R201, R237). -/
theorem exec_compress_payload_too_long (h : s.caps.pbuf.toNat < ((s.codedBits T).length + 7) / 8) :
    exec .compress s = .next ((s.compressing T [] [] [] 0).takeError (capacityError 3)) := by
  rcases compressing_encodeStep hwf hne hT with ⟨_, e⟩ | ⟨hle, _⟩
  · rw [exec_compress hwf hne hT, e, andThen_raised, finish]
  · exact absurd h (Nat.not_lt.2 hle)

/-- The payload fits: ASM decides how COMPRESS ends. -/
theorem exec_compress_payload_fits (h : ((s.codedBits T).length + 7) / 8 ≤ s.caps.pbuf.toNat) :
    exec .compress s
      = finish (asmStep (s.compressing T [] (pack (padded (s.codedBits T))) [] (wordOfNat s.mem.dbuf.length))) := by
  rcases compressing_encodeStep hwf hne hT with ⟨hlt, _⟩ | ⟨_, e⟩
  · exact absurd h (Nat.not_le.2 hlt)
  · rw [exec_compress hwf hne hT, e, andThen_done]

end

/-- ASM inside COMPRESS: the container may not fit (R181, R201). -/
theorem compressing_asmStep (s : State) {T : CodeTree} (hT : (buildStore (countTable s.mem.dbuf)).tree? = some T)
    (P : List Byte) (C : Word) :
    (s.caps.fbuf.toNat < 8 + T.ser.length + P.length ∧
        asmStep (s.compressing T [] P [] C) = .raised (s.compressing T [] P [] C) (capacityError 4)) ∨
      (8 + T.ser.length + P.length ≤ s.caps.fbuf.toNat ∧
        asmStep (s.compressing T [] P [] C) = .done (s.compressing T T.ser P (containerBytes T.ser C P) C)) := by
  have hasm := asmStep_some (s := s.compressing T [] P [] C) rfl hT
  rw [compressing_setBuf_tbuf, compressing_setBuf_fbuf] at hasm
  exact hasm

/-- The container COMPRESS makes, its length fields as R62 writes them (R88, R201). -/
theorem compress_containerBytes {s : State} (h : s.mem.wf s.caps = true) (X P : List Byte) :
    containerBytes X (wordOfNat s.mem.dbuf.length) P = fourBytes X.length ++ X ++ fourBytes s.mem.dbuf.length ++ P := by
  have hlen : s.mem.dbuf.length < 2 ^ 32 := Memory.length_lt h .dbuf
  rw [containerBytes_eq, toNat_wordOfNat hlen]

end Sys2Proof.Machine

namespace Sys2Proof.Proofs

open Sys2Proof.Machine

/-- Settles O37: by whether the payload fits PBUF, and then whether the container fits FBUF. -/
theorem compressRule : Obligations.CompressRule := by
  intro s T bits X hwf hne hT hX hbits
  obtain rfl : bits = s.codedBits T := hbits
  obtain rfl : X = T.ser := hX.trans (recordsBytes_records T)
  refine ⟨exec_compress_payload_too_long hwf hne hT,
    fun h => ⟨pack (padded (s.codedBits T)), pack_padded_length _, ?_, fun hfull => ?_, fun hroom => ?_⟩⟩
  · rw [bitStream_eq_unpack, unpack_pack_padded]
    rfl
  · rcases compressing_asmStep s hT (pack (padded (s.codedBits T))) (wordOfNat s.mem.dbuf.length) with ⟨_, e⟩ | ⟨hle, _⟩
    · rw [exec_compress_payload_fits hwf hne hT h, e]
      rfl
    · exact absurd hfull (Nat.not_lt.2 hle)
  · rcases compressing_asmStep s hT (pack (padded (s.codedBits T))) (wordOfNat s.mem.dbuf.length) with ⟨hlt, _⟩ | ⟨_, e⟩
    · exact absurd hroom (Nat.not_le.2 hlt)
    · rw [exec_compress_payload_fits hwf hne hT h, e, compress_containerBytes hwf]
      rfl

end Sys2Proof.Proofs

/-! SUPPORT. COUNT as one equation (40_frequency_analyzer.md rule R100). -/

namespace Sys2Proof.Machine

/-- COUNT completes in every state: it has no source that can be invalid and raises no error (R100). -/
theorem exec_count (s : State) : exec .count s = .next ({ s with wt := some (countTable s.mem.dbuf) }.after 0x01) := by
  rw [exec, execCount, frame, openFrame_count, countStep_eq]
  rfl

end Sys2Proof.Machine

namespace Sys2Proof.Proofs

open Sys2Proof.Machine

/-- Settles O15: a buffer within its capacity is shorter than 2^32 bytes, so no counter of `countTable` wraps (R102). -/
theorem countCounts : Obligations.CountCounts := by
  intro s hwf
  have hlen : s.mem.dbuf.length < 2 ^ 32 := Memory.length_lt hwf .dbuf
  exact ⟨countTable s.mem.dbuf, exec_count s, countTable_toNat hlen, total_countTable hlen⟩

end Sys2Proof.Proofs

/-! SUPPORT. The store BUILD makes, over the present byte values given as an ascending list (41_tree_builder.md rules R112 to
R116). -/

namespace Sys2Proof.Machine

/-- The present byte values in ascending order are one list (R112). -/
theorem presentSyms_eq_of_sorted {W : WeightTable} {syms : List Byte} (hsorted : syms.Pairwise fun a b => a.toNat < b.toNat)
    (hmem : ∀ b, b ∈ syms ↔ W.get b ≠ 0) : presentSyms W = syms := by
  have hnodup : syms.Nodup := hsorted.imp fun hlt e => hlt.ne (congrArg BitVec.toNat e)
  have hperm : (presentSyms W).Perm syms :=
    (List.perm_ext_iff_of_nodup (presentSyms_nodup W) hnodup).2 fun b => mem_presentSyms.trans (hmem b).symm
  exact hperm.eq_of_pairwise (fun _ _ _ _ hab hba => absurd hab hba.asymm) (presentSyms_sorted W) hsorted

theorem presentSyms_eq_singleton_of_only {W : WeightTable} {v : Byte} (hv : W.get v ≠ 0) (hother : ∀ b, b ≠ v → W.get b = 0) :
    presentSyms W = [v] :=
  presentSyms_eq_of_sorted (List.pairwise_singleton _ _) fun b => by
    rw [List.mem_singleton]
    exact ⟨fun e => e ▸ hv, fun hb => by_contra fun hne => hb (hother b hne)⟩

/-- The sentinel store (R116). -/
theorem buildStore_eq_single {W : WeightTable} {v : Byte} (h : presentSyms W = [v]) :
    buildStore W = { nodes := [.leaf v (W.get v), .leaf (v + 1) 0, .internal (W.get v) 0 1], root := 2 } := by
  rw [buildStore, buildNodes_single h]
  rfl

/-- The records the merge loop starts from stay in front (R115). -/
theorem Merged.getElem?_leaf {W : WeightTable} {live : List Nat} {ps : List Part} {k root : Nat} {nodes : List Node}
    {T : CodeTree} {is : List Nat} (h : Merged (leafNodes W) live ps k nodes root T is) {i : Nat} {b : Byte}
    (hi : (presentSyms W)[i]? = some b) : nodes[i]? = some (.leaf b (W.get b)) := by
  have hleaf : (leafNodes W)[i]? = some (.leaf b (W.get b)) := by rw [leafNodes_getElem?, hi, Option.map_some]
  obtain ⟨more, rfl⟩ := h.kept
  rwa [List.getElem?_append_left (List.getElem?_eq_some_iff.1 hleaf).1]

end Sys2Proof.Machine

namespace Sys2Proof.Proofs

open Sys2Proof.Machine

/-- Settles O18: what the merge loop leaves (`Merged`) keeps the leaves in front, and each of its rounds is greedy. -/
theorem buildMergesTheTwoLeast : Obligations.BuildMergesTheTwoLeast := by
  intro s W syms hw hsorted hmem htwo
  obtain rfl : presentSyms W = syms := presentSyms_eq_of_sorted hsorted hmem
  have hp : presentSyms W ≠ [] := List.ne_nil_of_length_pos (by omega)
  obtain ⟨_, _, hmerged, hlen, _⟩ := buildStore_merged htwo
  refine ⟨buildNodes W, ?_, hlen, fun _ _ => hmerged.getElem?_leaf, fun m hm hlt => ?_⟩
  · rw [exec_build hw hp, buildStore, hlen]
    rfl
  · exact hmerged.greedy m (by rwa [leafNodes_length]) (by rwa [hlen])

/-- Settles O17: the one present byte value makes the sentinel store. -/
theorem buildPairsSingleSymbolWithSentinel : Obligations.BuildPairsSingleSymbolWithSentinel := by
  intro s W v hw hv hother
  have hsyms : presentSyms W = [v] := presentSyms_eq_singleton_of_only hv hother
  rw [exec_build hw (by rw [hsyms]; exact List.cons_ne_nil v []), buildStore_eq_single hsyms]

end Sys2Proof.Proofs

/-! SUPPORT. What completed GEN and ENCODE leave, DECODE as one equation, and how DECODE's loop ends on bits that are no whole
codes (42_code_table_generator.md rule R131; 43_bit_packer.md rules R141, R145 to R150). -/

namespace Sys2Proof.Machine

/-! ### Commands that completed -/

theorem ErrorKind.code_ne_zero (k : ErrorKind) : k.code ≠ 0 := by cases k <;> decide

/-- A command that completed: its body reached its end (R235 step 6). -/
theorem frame_completed {i : Instr} {op : Byte} {body : State → StepResult} {s t : State} (h : frame i op body s = .next t)
    (he : t.err = 0) : ∃ u, body (openFrame i op s) = .done u ∧ t = u.succeed := by
  rcases finish_next h with hdone | ⟨u, e, _, rfl⟩
  · exact hdone
  · exact absurd he e.kind.code_ne_zero

/-- A body that needs the tree reaches its end only on a tree (R244). -/
theorem needTree_done {s u : State} {body : CodeTree → StepResult} (h : needTree s body = .done u) :
    ∃ st T, s.tree = some st ∧ st.tree? = some T := by
  rcases needTree_three s body with ⟨_, e⟩ | ⟨st, T, hs, hT, _⟩ | e
  · cases e.symm.trans h
  · exact ⟨st, T, hs, hT⟩
  · cases e.symm.trans h

/-- GEN completes only on a tree, and then makes the table of that tree (R131, R244). -/
theorem exec_gen_completed {s t : State} (h : exec .gen s = .next t) (he : t.err = 0) :
    ∃ st T, s.tree = some st ∧ st.tree? = some T ∧ t = { s with ct := some (genTable T) }.after 0x03 := by
  obtain ⟨u, hu, _⟩ := frame_completed (body := genStep) h he
  obtain ⟨st, T, hs, hT⟩ : ∃ st T, s.tree = some st ∧ st.tree? = some T := needTree_done (s := openFrame .gen 0x03 s) hu
  exact ⟨st, T, hs, hT, Host.Outcome.next.inj (h.symm.trans (exec_gen hs hT))⟩

/-- ENCODE completes only when every byte of DBUF has a code; it then commits the codes in input order (R141). -/
theorem exec_encode_completed {s t : State} (h : exec .encode s = .next t) (he : t.err = 0) :
    ∃ C, s.ct = some C ∧ (∀ b ∈ s.mem.dbuf, (C.get b).isSome) ∧
      t = { s with mem := { s.mem with pbuf := pack (padded (s.mem.dbuf.flatMap (codeOf C))) },
                   contentLen := wordOfNat s.mem.dbuf.length }.after 0x04 := by
  obtain ⟨u, hu, rfl⟩ := frame_completed (body := encodeStep) h he
  rcases encodeStep_cases (openFrame .encode 0x04 s) with
    ⟨_, e⟩ | ⟨C, hC, ⟨_, _, _, _, _, _, e⟩ | ⟨hall, ⟨_, e⟩ | ⟨_, e⟩⟩⟩ <;> cases hu.symm.trans e
  exact ⟨C, hC, hall, rfl⟩

/-! ### DECODE -/

/-- DECODE of a tree, by what its loop makes of the payload (R145, R146). -/
theorem exec_decode {s : State} {st : NodeStore} {T : CodeTree} (hs : s.tree = some st) (hT : st.tree? = some T) :
    exec .decode s =
      if s.caps.dbuf.toNat < s.contentLen.toNat then
        .next ({ s with mem := { s.mem with dbuf := [] } }.afterError 0x09 7 1 0)
      else
        match decodeBytes s.mem.pbuf T s.contentLen.toNat with
        | .ok D => .next ({ s with mem := { s.mem with dbuf := D } }.after 0x09)
        | .error e => .next ({ s with mem := { s.mem with dbuf := [] } }.afterError 0x09 e.kind.code e.sub e.info) := by
  rw [exec, execDecode, frame]
  have hb : (openFrame .decode 0x09 s).buf .pbuf = s.mem.pbuf := rfl
  have hn : (openFrame .decode 0x09 s).contentLen = s.contentLen := rfl
  rcases decodeStep_some (s := openFrame .decode 0x09 s) hs hT with ⟨hfull, e⟩ | ⟨hroom, hloop⟩
  · rw [e, if_pos (show s.caps.dbuf.toNat < s.contentLen.toNat from hfull)]
    rfl
  · rw [if_neg (show ¬ s.caps.dbuf.toNat < s.contentLen.toNat from Nat.not_lt.2 hroom)]
    rw [hb, hn] at hloop
    rcases hloop with ⟨_, hd, e⟩ | ⟨_, hd, _, e⟩ <;> rw [e, hd] <;> rfl

/-- DECODE completes with what its loop decodes (R145, R150). -/
theorem exec_decode_ok {s : State} {st : NodeStore} {T : CodeTree} {D : List Byte} (hs : s.tree = some st)
    (hT : st.tree? = some T) (hroom : s.contentLen.toNat ≤ s.caps.dbuf.toNat)
    (hd : decodeBytes s.mem.pbuf T s.contentLen.toNat = .ok D) :
    exec .decode s = .next ({ s with mem := { s.mem with dbuf := D } }.after 0x09) := by
  rw [exec_decode hs hT, if_neg (Nat.not_lt.2 hroom), hd]

/-- The bits of an inner node's path begin with the turn to the child that holds the leaf (R134). -/
theorem mem_codesAt_child {w : Word} {l r : CodeTree} {p q : Bits} {b : Bool} {v : Byte}
    (h : (v, p ++ b :: q) ∈ (CodeTree.internal w l r).codesAt p) :
    (v, p ++ [b] ++ q) ∈ ((CodeTree.internal w l r).child b).codesAt (p ++ [b]) := by
  have same_turn : ∀ {b' : Bool} {N : CodeTree}, (v, p ++ b :: q) ∈ N.codesAt (p ++ [b']) → b = b' := by
    intro b' N hN
    obtain ⟨q', hq, _⟩ := codesAt_path hN
    rw [List.append_assoc, List.append_cancel_left_eq] at hq
    exact (List.cons.inj hq).1
  rw [List.append_assoc, List.singleton_append]
  rcases List.mem_append.1 h with hl | hr
  · obtain rfl := same_turn hl
    exact hl
  · obtain rfl := same_turn hr
    exact hr

/-- At a leaf the path is complete (R134). -/
theorem path_ends_at_leaf {x v : Byte} {w : Word} {p q : Bits} (h : (v, p ++ q) ∈ (CodeTree.leaf x w).codesAt p) : q = [] :=
  List.append_right_eq_self.1 (Prod.mk.inj (List.mem_singleton.1 h)).2

/-- Bits that end inside the path from a node to a leaf are used up before a byte is complete (R149). -/
theorem decodeLoop_path_cut {w₀ : Word} {l₀ r₀ : CodeTree} {want : Nat} {out : List Byte} (hout : out.length < want)
    {v : Byte} {more : Bits} (hmore : more ≠ []) (q : Bits) :
    ∀ {N : CodeTree} {p : Bits}, (v, p ++ (q ++ more)) ∈ N.codesAt p →
      decodeLoop (.internal w₀ l₀ r₀) want N q out = .error (corruptStreamError 1 out.length) := by
  induction q with
  | nil => exact fun _ => decodeLoop_nil hout
  | cons b q ih =>
    intro N p h
    cases N with
    | leaf x y => exact absurd (path_ends_at_leaf h) (List.cons_ne_nil _ _)
    | internal w l r =>
      have hchild := mem_codesAt_child h
      rw [decodeLoop, if_pos hout]
      cases hc : (CodeTree.internal w l r).child b with
      | leaf x y =>
        rw [hc] at hchild
        exact absurd (List.append_eq_nil_iff.1 (path_ends_at_leaf hchild)).2 hmore
      | internal w' l' r' =>
        rw [hc] at hchild
        exact ih hchild

/-- A proper beginning of a code, where a code is due, is CORRUPT_STREAM sub 1 (R149). -/
theorem decodeLoop_code_cut {T : CodeTree} {want : Nat} {v : Byte} {c q : Bits} {out : List Byte} (h : (v, c) ∈ T.codes)
    (hpre : q <+: c) (hne : q ≠ c) (hout : out.length < want) :
    decodeLoop T want T q out = .error (corruptStreamError 1 out.length) := by
  obtain ⟨more, rfl⟩ := hpre
  have hmore : more ≠ [] := fun hnil => hne (by rw [hnil, List.append_nil])
  cases T with
  | leaf x w =>
    have hcode : q ++ more = [false] := (Prod.mk.inj (List.mem_singleton.1 h)).2
    obtain ⟨rfl, _⟩ := (List.append_eq_singleton_iff.1 hcode).resolve_right fun hright => hmore hright.2
    exact decodeLoop_nil hout
  | internal w l r => exact decodeLoop_path_cut (p := []) hout hmore q h

/-- A 1 bit where the code of a lone leaf is due is CORRUPT_STREAM sub 2 (R148). -/
theorem decodeLoop_lone_one {v : Byte} {w : Word} {want : Nat} {node : CodeTree} {bits : Bits} {out : List Byte}
    (hout : out.length < want) :
    decodeLoop (.leaf v w) want node (true :: bits) out = .error (corruptStreamError 2 out.length) := by
  simp [decodeLoop, hout]

/-- A payload that begins with codes of the tree: their byte values are decoded, and the loop stands at the root before the
bits that follow (R146). -/
theorem decodeBytes_codedAs {T : CodeTree} {D P : List Byte} {cs : List Bits} {rest : Bits} {n : Nat} (h : codedAs T D cs)
    (hP : bitStream P = cs.flatten ++ rest) (hn : D.length ≤ n) : decodeBytes P T n = decodeLoop T n T rest D := by
  rw [decodeBytes, ← bitStream_eq_unpack, hP, decodeLoop_codedAs h (by simpa using hn), List.nil_append]

theorem codedAs_replicate {T : CodeTree} {v : Byte} {c : Bits} (h : (v, c) ∈ T.codes) (m : Nat) :
    codedAs T (List.replicate m v) (List.replicate m c) := by
  induction m with
  | zero => exact .nil
  | succ m ih => exact .cons h ih

end Sys2Proof.Machine

namespace Sys2Proof.Proofs

open Sys2Proof.Machine

/-- Settles O23: whole codes decode one by one to the byte values they stand for, and what follows them decides how the loop
ends: the count is reached, the bits end inside a code, or a lone leaf meets a 1 bit. -/
theorem decodeRule : Obligations.DecodeRule := by
  intro s st T hs hT
  rw [exec_decode hs hT]
  refine ⟨fun hfull => if_pos hfull, fun hroom => ?_⟩
  rw [if_neg (Nat.not_lt.2 hroom)]
  refine ⟨fun D cs rest hcoded hbits hlen => ?_, fun D cs q v c hcoded hbits hlt hvc hpre hne => ?_, ?_⟩
  · rw [decodeBytes_codedAs hcoded hbits hlen.le, decodeLoop_enough hlen.not_lt]
  · rw [decodeBytes_codedAs hcoded hbits hlt.le, decodeLoop_code_cut hvc hpre hne hlt]
    rfl
  · rintro v w m rest rfl hbits hm
    have hzeros : codedAs (.leaf v w) (List.replicate m v) (List.replicate m [false]) :=
      codedAs_replicate (List.mem_singleton_self _) m
    rw [← List.flatten_replicate_singleton] at hbits
    rw [decodeBytes_codedAs hzeros hbits (by simpa using hm.le), decodeLoop_lone_one (by simpa using hm),
      List.length_replicate]
    rfl

/-- Settles O25: GEN and ENCODE completed, so every byte of DBUF has a code of the tree and PBUF begins with these codes. -/
theorem decodeUndoesEncode : Obligations.DecodeUndoesEncode := by
  intro s a b hinv hgen ha hencode hb
  obtain ⟨st, T, hs, hT, rfl⟩ := exec_gen_completed hgen ha
  obtain ⟨C, hC, hall, rfl⟩ := exec_encode_completed hencode hb
  obtain rfl : genTable T = C := Option.some.inj hC
  have hlen : (wordOfNat s.mem.dbuf.length).toNat = s.mem.dbuf.length :=
    toNat_wordOfNat (Memory.length_lt hinv.mem_wf .dbuf)
  have hroom : s.mem.dbuf.length ≤ s.caps.dbuf.toNat := (Memory.wf_iff _ _).1 hinv.mem_wf .dbuf
  refine ⟨exec_decode_ok hs hT (hlen.trans_le hroom) ?_, rfl⟩
  show decodeBytes _ T (wordOfNat s.mem.dbuf.length).toNat = .ok s.mem.dbuf
  rw [hlen]
  exact decode_encode hall

/-- Settles O20: the walk of GEN leaves the last visit of each byte value; with distinct leaf values there is only one. -/
theorem genAssignsPaths : Obligations.GenAssignsPaths := by
  intro s st T hs hT
  refine ⟨genTable T, exec_gen hs hT, fun v => ?_, fun hnodup v c => ?_⟩
  · rw [genTable_get, lastCode_eq_find]
  · rw [genTable_get, lastCode_eq_iff (by rwa [codes_values])]

end Sys2Proof.Proofs

/-! SUPPORT. ENCODE as one equation, and the loop of DECODE on node indices and bit positions beside the model's loop on the
tree and the bits still unread (43_bit_packer.md rules R141, R142, R146 to R149). -/

namespace Sys2Proof.Machine

/-! ### ENCODE -/

theorem needCt_none {s : State} (h : s.ct = none) (body : CodeTable → StepResult) :
    needCt s body = .raised s (sequenceError 3) := by
  rw [needCt, h]

theorem needCt_some {s : State} {C : CodeTable} (h : s.ct = some C) (body : CodeTable → StepResult) :
    needCt s body = body C := by
  rw [needCt, h]

/-- The padded bits fill as many whole bytes as the bits need (R83). -/
theorem padded_length_div (bits : Bits) : (padded bits).length / 8 = (bits.length + 7) / 8 := by
  rw [← pack_length, pack_padded_length]

/-- ENCODE without CT (R244). -/
theorem exec_encode_noTable {s : State} (hs : s.ct = none) :
    exec .encode s =
      .next ({ s with mem := { s.mem with pbuf := [] }, contentLen := 0 }.afterError 0x04 5 3 0) := by
  rw [exec, execEncode, frame, encodeStep, needCt_none (s := openFrame .encode 0x04 s) hs]
  rfl

/-- ENCODE with a table, by the bits it gathers (R141). -/
theorem exec_encode {s : State} {C : CodeTable} (hs : s.ct = some C) :
    exec .encode s =
      match encodeBits C 0 s.mem.dbuf [] with
      | .error e =>
        .next ({ s with mem := { s.mem with pbuf := [] }, contentLen := 0 }.afterError 0x04 e.kind.code e.sub e.info)
      | .ok bits =>
        if s.caps.pbuf.toNat < (bits.length + 7) / 8 then
          .next ({ s with mem := { s.mem with pbuf := [] }, contentLen := 0 }.afterError 0x04 7 3 0)
        else
          .next ({ s with mem := { s.mem with pbuf := pack (padded bits) },
                          contentLen := wordOfNat s.mem.dbuf.length }.after 0x04) := by
  have hb : (openFrame .encode 0x04 s).buf .dbuf = s.mem.dbuf := rfl
  have hcap : capOf (openFrame .encode 0x04 s).caps .pbuf = s.caps.pbuf.toNat := rfl
  rw [exec, execEncode, frame, encodeStep, needCt_some (s := openFrame .encode 0x04 s) hs, hb, hcap]
  cases encodeBits C 0 s.mem.dbuf [] with
  | error e => rfl
  | ok bits =>
    simp only [padded_length_div]
    by_cases hfull : s.caps.pbuf.toNat < (bits.length + 7) / 8
    · rw [if_pos hfull, if_pos hfull]; rfl
    · rw [if_neg hfull, if_neg hfull]; rfl

/-- ENCODE of an input with a byte without a code (R142). -/
theorem exec_encode_uncoded {s : State} {C : CodeTable} {A B : List Byte} {b : Byte} (hs : s.ct = some C)
    (hD : s.mem.dbuf = A ++ b :: B) (hA : ∀ a ∈ A, (C.get a).isSome) (hb : C.get b = none) :
    exec .encode s =
      .next ({ s with mem := { s.mem with pbuf := [] }, contentLen := 0 }.afterError 0x04 6 0 A.length) := by
  rw [exec_encode hs, hD, encodeBits_error hA hb, Nat.zero_add]
  rfl

/-- ENCODE of an input whose bytes all have codes (R141). -/
theorem exec_encode_coded {s : State} {C : CodeTable} (hs : s.ct = some C) (hall : ∀ b ∈ s.mem.dbuf, (C.get b).isSome) :
    exec .encode s =
      if s.caps.pbuf.toNat < ((s.mem.dbuf.flatMap (codeOf C)).length + 7) / 8 then
        .next ({ s with mem := { s.mem with pbuf := [] }, contentLen := 0 }.afterError 0x04 7 3 0)
      else
        .next ({ s with mem := { s.mem with pbuf := pack (padded (s.mem.dbuf.flatMap (codeOf C))) },
                        contentLen := wordOfNat s.mem.dbuf.length }.after 0x04) := by
  rw [exec_encode hs, encodeBits_ok hall, List.nil_append]

/-! ### One round of DECODE's loop -/

/-- Before the end of the payload there is a next bit: the unread bits begin with bit 7 - (k mod 8) of byte k div 8 (R63). -/
theorem unpack_drop_eq_cons {P : List Byte} {k : Nat} (hk : k < 8 * P.length) :
    ∃ byte, P[k / 8]? = some byte ∧ (unpack P).drop k = byte.getLsbD (7 - k % 8) :: (unpack P).drop (k + 1) := by
  have hbyte : P[k / 8]? = some (P[k / 8]'(by omega)) := List.getElem?_eq_getElem _
  refine ⟨_, hbyte, ?_⟩
  rw [List.drop_eq_getElem_cons (by simpa using hk)]
  simp [← bitStream_eq_unpack, bitStream, hbyte]

section

variable {P : List Byte} {st : NodeStore} {want turns i k : Nat} {out : List Byte}

/-- With the counter at the content length the loop ends (R147). -/
theorem decodeWalk_enough (hout : ¬ out.length < want) : decodeWalk P st want (turns + 1) i k out = some (.ok out) := by
  rw [decodeWalk, if_neg hout]

variable (hout : out.length < want)
include hout

/-- At the end of the payload with bytes still to produce (R149). -/
theorem decodeWalk_exhausted :
    decodeWalk P st want (turns + 1) i (8 * P.length) out = some (.error (corruptStreamError 1 out.length)) := by
  rw [decodeWalk, if_pos hout, if_pos rfl]

variable {byte : Byte} (hk : k < 8 * P.length) (hbyte : P[k / 8]? = some byte)
include hk hbyte

/-- A round on a lone-leaf tree (R148). -/
theorem decodeWalk_lone {v : Byte} {w : Word} (hroot : st.nodes[st.root.toNat]? = some (.leaf v w)) :
    decodeWalk P st want (turns + 1) i k out =
      if byte.getLsbD (7 - k % 8) then some (.error (corruptStreamError 2 out.length))
      else decodeWalk P st want turns i (k + 1) (out ++ [v]) := by
  rw [decodeWalk, if_pos hout, if_neg hk.ne, hbyte, hroot]

variable {w₀ w : Word} {l₀ r₀ l r : NodeIndex} (hroot : st.nodes[st.root.toNat]? = some (.internal w₀ l₀ r₀))
  (hi : st.nodes[i]? = some (.internal w l r)) {next : Nat}
  (hnext : next = if byte.getLsbD (7 - k % 8) then r.toNat else l.toNat)
include hroot hi hnext

/-- A round that reaches a leaf emits its byte value and goes back to the root (R146). -/
theorem decodeWalk_to_leaf {v : Byte} {w' : Word} (hleaf : st.nodes[next]? = some (.leaf v w')) :
    decodeWalk P st want (turns + 1) i k out = decodeWalk P st want turns st.root.toNat (k + 1) (out ++ [v]) := by
  subst hnext
  rw [decodeWalk, if_pos hout, if_neg hk.ne, hbyte, hroot, hi]
  simp only [hleaf]

/-- A round that reaches an internal node goes on from it (R146). -/
theorem decodeWalk_to_internal {w' : Word} {l' r' : NodeIndex} (hinner : st.nodes[next]? = some (.internal w' l' r')) :
    decodeWalk P st want (turns + 1) i k out = decodeWalk P st want turns next (k + 1) out := by
  subst hnext
  rw [decodeWalk, if_pos hout, if_neg hk.ne, hbyte, hroot, hi]
  simp only [hinner]

end

/-! ### The two loops side by side -/

theorem Rep.leaf_record {nodes : List Node} {i : Nat} {v : Byte} {w : Word} {is : List Nat}
    (h : Rep nodes i (.leaf v w) is) : nodes[i]? = some (.leaf v w) := by
  cases h with
  | leaf hi => exact hi

/-- An internal node's record leads to its two children (R11). -/
theorem Rep.internal_record {nodes : List Node} {i : Nat} {w : Word} {L R : CodeTree} {is : List Nat}
    (h : Rep nodes i (.internal w L R) is) :
    ∃ l r : NodeIndex, nodes[i]? = some (.internal w l r) ∧
      ∀ bit : Bool, ∃ js, Rep nodes (if bit then r.toNat else l.toNat) ((CodeTree.internal w L R).child bit) js := by
  cases h with
  | node hi hl hr => exact ⟨_, _, hi, fun bit => by cases bit <;> exact ⟨_, ‹_›⟩⟩

/-- Node index i stands where the model's loop stands at the subtree N of T; the loop stands at a leaf only when that leaf is
the whole tree (R146, R148). -/
def StandsAt (st : NodeStore) (T : CodeTree) (i : Nat) (N : CodeTree) : Prop :=
  (∃ is, Rep st.nodes i N is) ∧ ∀ v w, N = .leaf v w → T = .leaf v w

/-- From an equal place the two loops end alike, when there are more turns than unread bits (R146). -/
theorem decodeWalk_eq_decodeLoop {P : List Byte} {st : NodeStore} {T : CodeTree} {want : Nat}
    (hT : StandsAt st T st.root.toNat T) (turns : Nat) :
    ∀ {i k : Nat} {N : CodeTree} {out : List Byte}, StandsAt st T i N → k ≤ 8 * P.length → 8 * P.length < k + turns →
      decodeWalk P st want turns i k out = some (decodeLoop T want N ((unpack P).drop k) out) := by
  induction turns with
  | zero => intro i k N out _ hk hturns; omega
  | succ turns ih =>
    intro i k N out hN hk hturns
    by_cases hout : out.length < want
    case neg => rw [decodeWalk_enough hout, decodeLoop_enough hout]
    rcases hk.eq_or_lt with rfl | hk
    · rw [decodeWalk_exhausted hout, List.drop_eq_nil_of_le (unpack_length P).le, decodeLoop_nil hout]
    obtain ⟨byte, hbyte, hbits⟩ := unpack_drop_eq_cons hk
    obtain ⟨is, hroot⟩ := hT.1
    rw [hbits]
    cases T with
    | leaf v w =>
      rw [decodeWalk_lone hout hk hbyte hroot.leaf_record, decodeLoop, if_pos hout]
      split
      · rfl
      · exact ih hN hk (by omega)
    | internal w₀ L₀ R₀ =>
      obtain ⟨l₀, r₀, hroot, _⟩ := hroot.internal_record
      obtain ⟨⟨js, hrep⟩, hleaf⟩ := hN
      cases N with
      | leaf v w => cases hleaf v w rfl
      | internal w L R =>
        obtain ⟨l, r, hi, hchild⟩ := hrep.internal_record
        obtain ⟨ks, hnext⟩ := hchild (byte.getLsbD (7 - k % 8))
        rw [decodeLoop, if_pos hout]
        cases hc : (CodeTree.internal w L R).child (byte.getLsbD (7 - k % 8)) with
        | leaf v w' =>
          rw [hc] at hnext
          rw [decodeWalk_to_leaf hout hk hbyte hroot hi rfl hnext.leaf_record]
          exact ih hT hk (by omega)
        | internal w' L' R' =>
          rw [hc] at hnext
          obtain ⟨_, _, hinner, _⟩ := hnext.internal_record
          rw [decodeWalk_to_internal hout hk hbyte hroot hi rfl hinner]
          exact ih ⟨⟨ks, hnext⟩, fun _ _ h => by cases h⟩ hk (by omega)

/-- The loop on node indices, from the root of a store that holds T, computes `decode(P, T, n)` (R146, R150). -/
theorem decodeWalk_eq_decodeBytes {st : NodeStore} {T : CodeTree} {is : List Nat} (h : Rep st.nodes st.root.toNat T is)
    (P : List Byte) (n : Nat) :
    decodeWalk P st n (8 * P.length + 1) st.root.toNat 0 [] = some (decodeBytes P T n) := by
  have hT : StandsAt st T st.root.toNat T := ⟨⟨is, h⟩, fun _ _ hleaf => hleaf⟩
  exact decodeWalk_eq_decodeLoop hT _ hT (Nat.zero_le _) (by omega)

/-- DECODE without a tree (R244). -/
theorem exec_decode_noTree {s : State} (hs : s.tree = none) :
    exec .decode s = .next ({ s with mem := { s.mem with dbuf := [] } }.afterError 0x09 5 2 0) := by
  rw [exec, execDecode, frame, decodeStep, needTree_none (s := openFrame .decode 0x09 s) hs]
  rfl

end Sys2Proof.Machine

namespace Sys2Proof.Proofs

open Sys2Proof.Machine

/-- Settles O24: a valid store represents its tree, and on a represented tree the loop on node indices ends as the model's. -/
theorem decodeIsTheWalk : Obligations.DecodeIsTheWalk := by
  intro s
  refine ⟨exec_decode_noTree, fun st hs hvalid => ?_⟩
  obtain ⟨T, is, hT, hrep, _⟩ := hvalid.tree
  refine ⟨fun hfull => (exec_decode hs hT).trans (if_pos hfull), fun hroom => ?_⟩
  exact ⟨_, decodeWalk_eq_decodeBytes hrep _ _, (exec_decode hs hT).trans (if_neg (Nat.not_lt.2 hroom))⟩

/-- Settles O22: the first byte without a code decides, then the room for the padded bits. -/
theorem encodeRule : Obligations.EncodeRule := by
  refine ⟨fun s => exec_encode_noTable, fun s C hC => ⟨fun A b B hD hA hb => ?_, ?_⟩⟩
  · exact exec_encode_uncoded hC hD (fun a ha => Option.isSome_iff_ne_none.2 (hA a ha)) hb
  · rintro bits hall rfl
    have hexec := exec_encode_coded hC fun b hb => Option.isSome_iff_ne_none.2 (hall b hb)
    refine ⟨fun hfull => hexec.trans (if_pos hfull), fun hroom => ?_⟩
    refine ⟨_, hexec.trans (if_neg (Nat.not_lt.2 hroom)), pack_padded_length _, ?_⟩
    rw [bitStream_eq_unpack, unpack_pack_padded]
    rfl

end Sys2Proof.Proofs

/-! SUPPORT. DESER as a function of the serialized tree in front of TBUF: what it accepts, the store it makes, and where each
record of that store stands (44_tree_codec.md rules R163 to R166). -/

namespace Sys2Proof.Machine

/-! ### The store of a deserialized tree -/

/-- The node store DESER and PARSE make of a tree: its records in preorder from index 0, with weights 0 (R164). -/
def CodeTree.preorderStore (T : CodeTree) : NodeStore := { nodes := preorderNodes 0 T, root := 0 }

theorem weight_of_mem_preorderNodes (T : CodeTree) : ∀ (n : Nat), ∀ x ∈ preorderNodes n T, x.weight = 0 := by
  induction T with
  | leaf v w =>
    intro n x hx
    rw [List.mem_singleton.1 hx]
    rfl
  | internal w L R hL hR =>
    intro n x hx
    rcases List.mem_cons.1 hx with rfl | hx
    · rfl
    · exact (List.mem_append.1 hx).elim (hL _ x) (hR _ x)

/-- A record of a tree is its root, or a record of the left subtree, which begins at the next index, or one of the right
subtree behind it. -/
theorem preorderNodes_getElem?_internal {n k : Nat} {w : Word} {L R : CodeTree} {x : Node}
    (h : (preorderNodes n (.internal w L R))[k]? = some x) :
    k = 0 ∧ x = .internal 0 (BitVec.ofNat 9 (n + 1)) (BitVec.ofNat 9 (n + 1 + L.size)) ∨
      (∃ j, k = 1 + j ∧ (preorderNodes (n + 1) L)[j]? = some x) ∨
      ∃ j, k = 1 + L.size + j ∧ (preorderNodes (n + 1 + L.size) R)[j]? = some x := by
  rw [preorderNodes] at h
  cases k with
  | zero => exact .inl ⟨rfl, (Option.some.inj h).symm⟩
  | succ j =>
    rw [List.getElem?_cons_succ] at h
    by_cases hj : j < L.size
    · rw [List.getElem?_append_left (by simpa using hj)] at h
      exact .inr (.inl ⟨j, Nat.add_comm j 1, h⟩)
    · rw [List.getElem?_append_right (by simpa using hj), preorderNodes_length] at h
      exact .inr (.inr ⟨j - L.size, by omega, h⟩)

/-- The left child of an internal record is the next record, and the right child stands behind it, inside the tree
(R164). -/
theorem children_of_preorderNodes (T : CodeTree) :
    ∀ {n k : Nat} {w : Word} {l r : NodeIndex}, n + T.size ≤ Config.nodeCap →
      (preorderNodes n T)[k]? = some (.internal w l r) →
      l.toNat = n + k + 1 ∧ n + k + 1 < r.toNat ∧ r.toNat < n + T.size := by
  induction T with
  | leaf v w₀ =>
    intro n k w l r _ h
    cases List.mem_singleton.1 (List.mem_of_getElem? h)
  | internal w₀ L R hL hR =>
    intro n k w l r room h
    rw [CodeTree.size] at room ⊢
    rcases preorderNodes_getElem?_internal h with ⟨rfl, hx⟩ | ⟨j, rfl, hj⟩ | ⟨j, rfl, hj⟩
    · cases hx
      have hLpos : 1 ≤ L.size := le_of_add_le_right L.height_le
      have hRpos : 1 ≤ R.size := le_of_add_le_right R.height_le
      rw [Config.nodeCap] at room
      rw [BitVec.toNat_ofNat, BitVec.toNat_ofNat]
      omega
    · have hchildren := hL (by omega) hj
      omega
    · have hchildren := hR (by omega) hj
      omega

/-- The serialized form of a tree that fits the store has a length that fits a register (R87). -/
theorem toNat_wordOfNat_ser_length {T : CodeTree} (room : T.size ≤ Config.nodeCap) :
    (wordOfNat T.ser.length).toNat = T.ser.length := by
  have hser := T.ser_length
  have hsize := T.size_eq
  rw [Config.nodeCap] at room
  exact toNat_wordOfNat (by omega)

/-! ### DESER and PARSE -/

/-- DESER of a buffer that begins with a serialized tree (R165). -/
theorem exec_deser_ser {s : State} {T : CodeTree} {Y : List Byte} (hX : s.mem.tbuf = T.ser ++ Y)
    (room : T.size ≤ Config.nodeCap) :
    exec .deser s =
      .next ({ s with tree := some T.preorderStore, consumed := wordOfNat T.ser.length }.after 0x08) := by
  rw [exec_deser, hX, readTree_ser T Y room]
  rfl

/-- DESER leaves no tree and an error, or TBUF begins with a serialized tree and DESER has read it (R163, R165). -/
theorem exec_deser_cases {s t : State} (h : exec .deser s = .next t) :
    (t.tree = none ∧ t.err ≠ 0) ∨
      ∃ (T : CodeTree) (Y : List Byte), T.unweighted = T ∧ s.mem.tbuf = T.ser ++ Y ∧ T.size ≤ Config.nodeCap ∧
        t = { s with tree := some T.preorderStore, consumed := wordOfNat T.ser.length }.after 0x08 := by
  cases hread : readTree s.mem.tbuf with
  | error e =>
    rw [exec_deser, hread] at h
    cases h
    exact .inl ⟨rfl, e.kind.code_ne_zero⟩
  | ok r =>
    obtain ⟨T, Y, hu, hX, room, _⟩ := readTree_ok hread
    cases (exec_deser_ser hX room).symm.trans h
    exact .inr ⟨T, Y, hu, hX, room, rfl⟩

/-- A DESER that completed has read a serialized tree at the beginning of TBUF (R165). -/
theorem exec_deser_completed {s t : State} (h : exec .deser s = .next t) (ht : t.err = 0) :
    ∃ (T : CodeTree) (Y : List Byte), T.unweighted = T ∧ s.mem.tbuf = T.ser ++ Y ∧ T.size ≤ Config.nodeCap ∧
      t = { s with tree := some T.preorderStore, consumed := wordOfNat T.ser.length }.after 0x08 :=
  (exec_deser_cases h).resolve_left fun hfault => hfault.2 ht

/-- The tree PARSE leaves is the store of a tree that fits it (R164, R184). -/
theorem exec_parse_tree {s t : State} {st : NodeStore} (h : exec .parse s = .next t) (ht : t.tree = some st) :
    ∃ T : CodeTree, T.size ≤ Config.nodeCap ∧ st = T.preorderStore := by
  cases hparse : parseContainer s.caps s.mem.fbuf with
  | error e =>
    rw [exec_parse, hparse] at h
    cases h
    cases ht
  | ok p =>
    obtain ⟨T, _, room, _, _, hreading, _⟩ := parseContainer_ok hparse
    rw [exec_parse, hparse] at h
    cases h
    cases ht
    exact ⟨T, room, by rw [hreading]; rfl⟩

/-- The tree DESER leaves is the store of a tree that fits it (R163, R164). -/
theorem exec_deser_tree {s t : State} {st : NodeStore} (h : exec .deser s = .next t) (ht : t.tree = some st) :
    ∃ T : CodeTree, T.size ≤ Config.nodeCap ∧ st = T.preorderStore := by
  rcases exec_deser_cases h with ⟨hnone, _⟩ | ⟨T, _, _, _, room, rfl⟩
  · cases hnone.symm.trans ht
  · exact ⟨T, room, (Option.some.inj ht).symm⟩

end Sys2Proof.Machine

namespace Sys2Proof.Proofs

open Sys2Proof.Machine

/-- Settles O27: `parseNode_spec` puts the recursion of R163 beside the loop over the records; with 512 levels for 511
records its bound is not reached. -/
theorem deserIsParseNode : Obligations.DeserIsParseNode := by
  intro s
  rw [exec_deser]
  cases hparse : parseNode s.mem.tbuf 512 0 [] with
  | error e => rw [readTree_of_parseNode_error hparse]
  | ok result =>
    obtain ⟨r, cur, nodes⟩ := result
    obtain ⟨rfl, hread⟩ := readTree_of_parseNode_ok hparse
    rw [hread]
    rfl

/-- Settles O28: the loop reads back what SER writes (`readTree_ser`) and accepts nothing else (`readTree_ok`). -/
theorem deserAcceptsExactlyTheTrees : Obligations.DeserAcceptsExactlyTheTrees := by
  intro s
  refine ⟨fun T Y room hX => ?_, fun t h ht => ?_⟩
  · rw [recordsBytes_records] at hX ⊢
    obtain ⟨hvalid, htree⟩ := preorder_store_valid T room
    exact ⟨T.preorderStore, T.unweighted, exec_deser_ser hX room, hvalid, htree, T.shape_unweighted⟩
  · obtain ⟨T, Y, _, hX, room, _⟩ := exec_deser_completed h ht
    exact ⟨T, Y, room, by rw [recordsBytes_records, hX]⟩

/-- Settles O29: SER leaves TBUF as the serialized tree with nothing behind it; a deserialized tree has no weights, so it is
the very tree whose serialized form was read. -/
theorem serDeserRoundTrip : Obligations.SerDeserRoundTrip := by
  refine ⟨fun s a st hinv hs hser => ?_, fun s b hdeser hb => ?_⟩
  · have hvalid : st.valid := by simpa only [treeOk, hs] using hinv.tree_ok
    obtain ⟨T, _, hT, _, _, _, hsize, hcap⟩ := hvalid.tree
    have room : T.size ≤ Config.nodeCap := hsize.trans_le hcap
    cases (exec_ser hs hT).symm.trans hser
    exact ⟨_, T.preorderStore, T, T.unweighted, exec_deser_ser (List.append_nil _).symm room, rfl, rfl, hT,
      (preorder_store_valid T room).2, T.shape_unweighted, toNat_wordOfNat_ser_length room, T.ser_length⟩
  · obtain ⟨T, Y, hu, hX, room, hbeq⟩ := exec_deser_completed hdeser hb
    have hs : b.tree = some T.preorderStore := congrArg State.tree hbeq
    have hT : T.preorderStore.tree? = some T := (preorder_store_valid T room).2.trans (congrArg some hu)
    have htake : s.mem.tbuf.take b.consumed.toNat = T.ser := by
      have hconsumed : b.consumed = wordOfNat T.ser.length := congrArg State.consumed hbeq
      rw [hconsumed, toNat_wordOfNat_ser_length room, hX, List.take_left]
    rw [exec_ser hs hT, htake]

/-- Settles O30: DESER and PARSE leave a store whose records stand in preorder from index 0. -/
theorem deserNumbersInPreorder : Obligations.DeserNumbersInPreorder := by
  intro i s t st hi hexec htree
  obtain ⟨T, room, rfl⟩ : ∃ T : CodeTree, T.size ≤ Config.nodeCap ∧ st = T.preorderStore := by
    rcases hi with rfl | rfl
    · exact exec_deser_tree hexec htree
    · exact exec_parse_tree hexec htree
  have hlen : T.preorderStore.nodes.length = T.size := preorderNodes_length 0 T
  rw [hlen]
  refine ⟨rfl, ?_, fun k v w h => ?_, fun k w l r h => ?_⟩
  · have hsize := T.size_eq
    omega
  · exact weight_of_mem_preorderNodes T 0 _ (List.mem_of_getElem? h)
  · obtain ⟨hl, hlt, hr⟩ := children_of_preorderNodes T (by rwa [Nat.zero_add]) h
    rw [Nat.zero_add] at hl hlt hr
    exact ⟨weight_of_mem_preorderNodes T 0 _ (List.mem_of_getElem? h), hl, hlt, hr⟩

end Sys2Proof.Proofs

/-! SUPPORT. ASM as its outcomes, and the tests of PARSE one after the other over the fields of a container (45_container.md
rules R181, R184 to R186, R188; the layout is 30_encoding.md rule R88). -/

namespace Sys2Proof.Machine

/-! ### ASM -/

/-- ASM without a tree (R181, R244). -/
theorem exec_asm_noTree {s : State} (hs : s.tree = none) :
    exec .asm s = .next ({ s with mem := { s.mem with tbuf := [], fbuf := [] } }.afterError 0x06 5 2 0) := by
  rw [exec, execAsm, frame, asmStep, needTree_none (s := openFrame .asm 0x06 s) hs]
  rfl

/-- ASM completes only on a tree whose container fits FBUF (R181). -/
theorem exec_asm_completed {s t : State} (h : exec .asm s = .next t) (he : t.err = 0) :
    ∃ st T, s.tree = some st ∧ st.tree? = some T ∧
      t = { s with mem := { s.mem with tbuf := T.ser
                                       fbuf := containerBytes T.ser s.contentLen s.mem.pbuf } }.after 0x06 := by
  obtain ⟨u, hu, _⟩ := frame_completed (body := asmStep) h he
  obtain ⟨st, T, hs, hT⟩ : ∃ st T, s.tree = some st ∧ st.tree? = some T := needTree_done (s := openFrame .asm 0x06 s) hu
  refine ⟨st, T, hs, hT, ?_⟩
  rw [exec_asm hs hT] at h
  split at h <;> cases h
  · cases he
  · rfl

/-! ### PARSE -/

/-- PARSE when one of its tests fails: its destinations are cleared (R184, R237). -/
theorem exec_parse_error {s : State} {e : CmdError} (h : parseContainer s.caps s.mem.fbuf = .error e) :
    exec .parse s =
      .next ({ s with mem := { s.mem with tbuf := [], pbuf := [] }, tree := none, consumed := 0,
                      contentLen := 0 }.afterError 0x07 e.kind.code e.sub e.info) := by
  rw [exec_parse, h]

/-- PARSE when every test passes: the parts are delivered (R184, R186). -/
theorem exec_parse_ok {s : State} {p : Parsed} (h : parseContainer s.caps s.mem.fbuf = .ok p) :
    exec .parse s =
      .next ({ s with mem := { s.mem with tbuf := p.treeBytes, pbuf := p.payload }
                      tree := some { nodes := p.reading.nodes, root := 0 }
                      consumed := wordOfNat p.reading.cur
                      contentLen := p.contentLen }.after 0x07) := by
  rw [exec_parse, h]

/-- The length field is not complete (R184). -/
theorem parseContainer_noLength {c : Capacities} {F : List Byte} (h : F.length < 4) :
    parseContainer c F = .error (truncatedFileError 1 0) := by
  rw [parseContainer, if_pos h]

/-- A field that goes to the end of a byte sequence. -/
theorem memRead_rest (B : List Byte) (i : Nat) : memRead B i (B.length - i) = B.drop i :=
  List.take_of_length_le List.length_drop.le

section

/-! The container F is the length field f0 to f3, whose value is N, and then the bytes G. -/

variable {c : Capacities} {F : List Byte} {f0 f1 f2 f3 : Byte} {G : List Byte} {N : Nat}
  (hF : F = f0 :: f1 :: f2 :: f3 :: G) (hN : N = u32be [f0, f1, f2, f3])

include hF

theorem not_length_lt_of_lengthField : ¬ F.length < 4 := by
  rw [hF, List.length_cons, List.length_cons, List.length_cons, List.length_cons]
  omega

/-- What stands in F behind the length field. -/
theorem drop_lengthField (i : Nat) : F.drop (4 + i) = G.drop i := by
  rw [hF, ← List.drop_drop]
  rfl

theorem memRead_treeField (n : Nat) : memRead F 4 n = G.take n := by
  rw [memRead, drop_lengthField hF 0, List.drop_zero]

theorem length_sub_lengthField (i : Nat) : F.length - (4 + i) = (G.drop i).length := by
  rw [← List.length_drop, drop_lengthField hF]

include hN

theorem u32be_lengthField : u32be (memRead F 0 4) = N := by
  rw [hF, hN]
  rfl

/-- The tree field is not complete (R184). -/
theorem parseContainer_treeField_short (h : G.length < N) :
    parseContainer c F = .error (truncatedFileError 2 4) := by
  rw [parseContainer, if_neg (not_length_lt_of_lengthField hF), u32be_lengthField hF hN]
  exact if_pos (by rwa [length_sub_lengthField hF 0])

/-- The tree field does not fit TBUF (R184). -/
theorem parseContainer_treeField_large (hG : N ≤ G.length) (h : capOf c .tbuf < N) :
    parseContainer c F = .error (capacityError 2) := by
  rw [parseContainer, if_neg (not_length_lt_of_lengthField hF), u32be_lengthField hF hN]
  exact (if_neg (by rwa [length_sub_lengthField hF 0, Nat.not_lt])).trans (if_pos h)

/-- The tree field is no serialized tree: the error is that of reading it (R184). -/
theorem parseContainer_treeField_error (hG : N ≤ G.length) (hcap : N ≤ capOf c .tbuf) {e : CmdError}
    (h : readTree (G.take N) = .error e) : parseContainer c F = .error e := by
  rw [parseContainer, if_neg (not_length_lt_of_lengthField hF), u32be_lengthField hF hN]
  refine (if_neg (by rwa [length_sub_lengthField hF 0, Nat.not_lt])).trans ((if_neg (Nat.not_lt.2 hcap)).trans ?_)
  rw [memRead_treeField hF, h]

/-- The tree field begins with a serialized tree: the tests that are left (R184, R185). -/
theorem parseContainer_treeField_ok (hG : N ≤ G.length) (hcap : N ≤ capOf c .tbuf) {r : TreeReading}
    (h : readTree (G.take N) = .ok r) :
    parseContainer c F =
      if r.cur ≠ N then .error (malformedTreeError 3 r.cur)
      else if (G.drop N).length < 4 then .error (truncatedFileError 3 (4 + N))
      else if capOf c .pbuf < ((G.drop N).drop 4).length then .error (capacityError 3)
      else
        .ok { treeBytes := G.take N, reading := r, contentLen := wordOfNat (u32be ((G.drop N).take 4)),
              payload := (G.drop N).drop 4 } := by
  have hcontentLen : memRead F (4 + N) 4 = (G.drop N).take 4 := by rw [memRead, drop_lengthField hF]
  have hpayload : F.drop (8 + N) = (G.drop N).drop 4 := by
    rw [List.drop_drop, ← drop_lengthField hF, Nat.add_left_comm, Nat.add_comm N]
  rw [parseContainer, if_neg (not_length_lt_of_lengthField hF), u32be_lengthField hF hN]
  refine (if_neg (by rwa [length_sub_lengthField hF 0, Nat.not_lt])).trans ((if_neg (Nat.not_lt.2 hcap)).trans ?_)
  rw [memRead_treeField hF, h, length_sub_lengthField hF, memRead_rest, ← List.length_drop, hpayload, hcontentLen]

end

/-- PARSE of a container of a tree that fits the store, whose parts fit their buffers (R184, R186). -/
theorem exec_parse_container {s : State} {T : CodeTree} {C : Word} {P : List Byte}
    (hF : s.mem.fbuf = containerBytes T.ser C P) (room : T.size ≤ Config.nodeCap)
    (htbuf : T.ser.length ≤ s.caps.tbuf.toNat) (hpbuf : P.length ≤ s.caps.pbuf.toNat) :
    exec .parse s =
      .next ({ s with mem := { s.mem with tbuf := T.ser, pbuf := P }
                      tree := some T.preorderStore
                      consumed := wordOfNat T.ser.length
                      contentLen := C }.after 0x07) := by
  have hparts := parseContainer_containerBytes T C P room htbuf hpbuf
  rw [← hF] at hparts
  exact exec_parse_ok hparts

end Sys2Proof.Machine

namespace Sys2Proof.Proofs

open Sys2Proof.Machine

/-- Settles O34: ASM has no tree, or its container does not fit, or it fits. -/
theorem asmRule : Obligations.AsmRule := by
  intro s
  refine ⟨exec_asm_noTree, fun st T X hs hT hX => ?_⟩
  obtain rfl : X = T.ser := hX.trans (recordsBytes_records T)
  rw [exec_asm hs hT, containerBytes_eq]
  exact ⟨fun hfull => if_pos hfull, fun hroom => if_neg (Nat.not_lt.2 hroom)⟩

/-- Settles O36: the container ASM wrote holds a tree that fits the store, and its parts fit TBUF (at least 767 bytes, R7) and
PBUF, so PARSE reads them all back. -/
theorem parseUndoesAsm : Obligations.ParseUndoesAsm := by
  intro s a hinv hasm ha
  obtain ⟨st, T, hs, hT, rfl⟩ := exec_asm_completed hasm ha
  have hvalid : st.valid := by simpa only [treeOk, hs] using hinv.tree_ok
  obtain ⟨T', _, hT', _, _, _, hsize, hcap⟩ := hvalid.tree
  obtain rfl : T = T' := Option.some.inj (hT.symm.trans hT')
  have room : T.size ≤ Config.nodeCap := hsize.trans_le hcap
  obtain ⟨_, _, hser⟩ := hvalid.bounds hT
  have htbuf : T.ser.length ≤ s.caps.tbuf.toNat := hser.trans (of_decide_eq_true hinv.caps_legal)
  have hpbuf : s.mem.pbuf.length ≤ s.caps.pbuf.toNat := (Memory.wf_iff _ _).1 hinv.mem_wf .pbuf
  obtain ⟨hvalid', htree'⟩ := preorder_store_valid T room
  exact ⟨st, T.preorderStore, T, T.unweighted, exec_parse_container rfl room htbuf hpbuf, hs, hT, hvalid', htree',
    T.shape_unweighted⟩

/-- Settles O35: the tests of PARSE in order; what `parse_node` says of the tree field is what the loop over its records says. -/
theorem parseRule : Obligations.ParseRule := by
  rintro s _ rfl
  refine ⟨fun hshort => exec_parse_error (parseContainer_noLength hshort), fun f0 f1 f2 f3 G N hF hN => ?_⟩
  rw [← u32be_four] at hN
  refine ⟨fun hshort => exec_parse_error (parseContainer_treeField_short hF hN hshort),
    fun hG hlarge => exec_parse_error (parseContainer_treeField_large hF hN hG hlarge), fun hG hcap => ⟨fun e he => ?_, ?_⟩⟩
  · exact exec_parse_error (parseContainer_treeField_error hF hN hG hcap (readTree_of_parseNode_error he))
  · intro r cur nodes hparse
    obtain ⟨rfl, hread⟩ := readTree_of_parseNode_ok hparse
    have htests := parseContainer_treeField_ok hF hN hG hcap hread
    refine ⟨fun hcur => exec_parse_error (htests.trans (if_pos hcur)), fun hcur hshort => ?_,
      fun c0 c1 c2 c3 P hcur hrest => ?_⟩
    · rw [← List.length_drop] at hshort
      exact exec_parse_error (htests.trans ((if_neg (not_not.2 hcur)).trans (if_pos hshort)))
    · subst hcur
      rw [hrest, if_neg (not_not.2 rfl), if_neg (by simp)] at htests
      rw [← u32be_four]
      exact ⟨fun hlarge => exec_parse_error (htests.trans (if_pos hlarge)),
        fun hroom => exec_parse_ok (htests.trans (if_neg (Nat.not_lt.2 hroom)))⟩

end Sys2Proof.Proofs

/-! SUPPORT. The composites beside the commands they are made of: COMPRESS after COUNT, BUILD and GEN, DECOMPRESS as PARSE and
then DECODE, and DECOMPRESS of a container whose parts fit their buffers (46_composite.md rules R200 to R204). -/

namespace Sys2Proof.Machine

/-! ### The steps of COMPRESS as commands -/

/-- COUNT, BUILD and GEN one by one complete on a non-empty DBUF, and leave its tables (R201). -/
theorem exec_count_build_gen {s : State} {T : CodeTree} (hwf : s.mem.wf s.caps = true) (hne : s.mem.dbuf ≠ [])
    (hT : (buildStore (countTable s.mem.dbuf)).tree? = some T) :
    ∃ a b : State, exec .count s = .next a ∧ a.err = 0 ∧ exec .build a = .next b ∧ b.err = 0 ∧
      exec .gen b = .next ((s.withTables T).after 0x03) :=
  have hp := presentSyms_countTable (Memory.length_lt hwf .dbuf) hne
  ⟨_, _, exec_count s, rfl, exec_build rfl hp, rfl, exec_gen rfl hT⟩

/-! ### The steps of DECOMPRESS as commands -/

theorem parseStep_error {s : State} {e : CmdError} (h : parseContainer s.caps (s.buf .fbuf) = .error e) :
    parseStep s = .raised s e := by
  rw [parseStep, h]

theorem parseStep_ok {s : State} {p : Parsed} (h : parseContainer s.caps (s.buf .fbuf) = .ok p) :
    parseStep s = .done (s.commitParsed p) := by
  rw [parseStep, h]

/-- A PARSE that fails ends DECOMPRESS with its error; DECODE does not run (R202, R204). -/
theorem exec_decompress_parse_error {s : State} {e : CmdError} (h : parseContainer s.caps s.mem.fbuf = .error e) :
    exec .decompress s =
      .next ({ s with mem := { dbuf := [], tbuf := [], pbuf := [], fbuf := s.mem.fbuf }, tree := none, consumed := 0,
                      contentLen := 0 }.afterError 0x0B e.kind.code e.sub e.info) := by
  rw [exec, execDecompress, frame, decompressStep, parseStep_error (s := openFrame .decompress 0x0B s) h, andThen_raised]
  rfl

/-- A PARSE that completes leaves how DECOMPRESS ends to DECODE, which runs on the delivered parts (R202). -/
theorem exec_decompress_parsed {s : State} {p : Parsed} (h : parseContainer s.caps s.mem.fbuf = .ok p) :
    exec .decompress s = finish (decodeStep ((openFrame .decompress 0x0B s).commitParsed p)) := by
  rw [exec, execDecompress, frame, decompressStep, parseStep_ok (s := openFrame .decompress 0x0B s) h, andThen_done]

/-- The tree a container holds (R184, R186). -/
theorem parseContainer_tree {c : Capacities} {F : List Byte} {p : Parsed} (h : parseContainer c F = .ok p) :
    ∃ T, NodeStore.tree? { nodes := p.reading.nodes, root := 0 } = some T := by
  obtain ⟨T, _, room, _, _, hreading, _⟩ := parseContainer_ok h
  rw [hreading]
  exact ⟨T.unweighted, (preorder_store_valid T room).2⟩

/-- DECODE of a content longer than DBUF's capacity (R145). -/
theorem exec_decode_too_long {s : State} {st : NodeStore} {T : CodeTree} (hs : s.tree = some st) (hT : st.tree? = some T)
    (hlong : s.caps.dbuf.toNat < s.contentLen.toNat) :
    exec .decode s = .next ({ s with mem := { s.mem with dbuf := [] } }.afterError 0x09 7 1 0) := by
  rw [exec_decode hs hT, if_pos hlong]

/-- DECODE ends with the error of its loop (R145, R149). -/
theorem exec_decode_error {s : State} {st : NodeStore} {T : CodeTree} {e : CmdError} (hs : s.tree = some st)
    (hT : st.tree? = some T) (hroom : s.contentLen.toNat ≤ s.caps.dbuf.toNat)
    (hd : decodeBytes s.mem.pbuf T s.contentLen.toNat = .error e) :
    exec .decode s =
      .next ({ s with mem := { s.mem with dbuf := [] } }.afterError 0x09 e.kind.code e.sub e.info) := by
  rw [exec_decode hs hT, if_neg (Nat.not_lt.2 hroom), hd]

/-- An error of DECODE's loop is CORRUPT_STREAM (R234, R242). -/
theorem decodeBytes_error_code {P : List Byte} {T : CodeTree} {n : Nat} {e : CmdError} (h : decodeBytes P T n = .error e) :
    e.kind.code = 4 := by
  obtain ⟨k, rfl | rfl⟩ := decodeLoop_error h <;> rfl

/-! ### DECOMPRESS of a container -/

theorem codesAt_unweighted (T : CodeTree) : ∀ p, T.unweighted.codesAt p = T.codesAt p := by
  induction T with
  | leaf v w => exact fun _ => rfl
  | internal w l r hl hr =>
    intro p
    rw [CodeTree.unweighted, CodeTree.codesAt, CodeTree.codesAt, hl, hr]

/-- The codes of a tree do not depend on its weights (R134). -/
theorem codes_unweighted (T : CodeTree) : T.unweighted.codes = T.codes := by
  cases T with
  | leaf v w => rfl
  | internal w l r => exact codesAt_unweighted (.internal w l r) []

/-- DECOMPRESS of a container of a tree that fits the store, whose parts fit their buffers, and whose payload begins with codes
of the tree for as many byte values as the content length says (R202). -/
theorem exec_decompress_container {s : State} {T : CodeTree} {P D : List Byte} {cs : List Bits} {rest : Bits}
    (hF : s.mem.fbuf = containerBytes T.ser (wordOfNat D.length) P) (room : T.size ≤ Config.nodeCap)
    (htbuf : T.ser.length ≤ s.caps.tbuf.toNat) (hpbuf : P.length ≤ s.caps.pbuf.toNat) (hdbuf : D.length ≤ s.caps.dbuf.toNat)
    (hcoded : codedAs T D cs) (hP : bitStream P = cs.flatten ++ rest) :
    exec .decompress s =
      .next ({ s with mem := { dbuf := D, tbuf := T.ser, pbuf := P, fbuf := s.mem.fbuf }
                      tree := some T.preorderStore
                      contentLen := wordOfNat D.length
                      consumed := wordOfNat T.ser.length }.after 0x0B) := by
  have hparts := parseContainer_containerBytes T (wordOfNat D.length) P room htbuf hpbuf
  rw [← hF] at hparts
  have hlen : (wordOfNat D.length).toNat = D.length := toNat_wordOfNat (hdbuf.trans_lt s.caps.dbuf.isLt)
  have hcoded' : codedAs T.unweighted D cs := by rwa [codedAs, codes_unweighted]
  refine exec_decompress hparts (preorder_store_valid T room).2 (hlen.trans_le hdbuf) ?_
  rw [hlen, decodeBytes_codedAs hcoded' hP le_rfl, decodeLoop_enough (lt_irrefl _)]

/-! ### What COMPRESS leaves -/

/-- Bytes that have codes in the table made from a tree are coded as that table says (R133, R134). -/
theorem codedAs_codeOf {T : CodeTree} {D : List Byte} (h : ∀ b ∈ D, ((genTable T).get b).isSome) :
    codedAs T D (D.map (codeOf (genTable T))) := by
  rw [codedAs, List.forall₂_map_right_iff, List.forall₂_same]
  intro b hb
  obtain ⟨c, hc⟩ := Option.isSome_iff_exists.1 (h b hb)
  rw [codeOf, hc]
  exact mem_codes_of_genTable hc

/-- The payload of COMPRESS begins with the codes of the bytes of DBUF (R83, R141). -/
theorem bitStream_codedBits (s : State) (T : CodeTree) :
    bitStream (pack (padded (s.codedBits T))) =
      (s.mem.dbuf.map (codeOf (genTable T))).flatten ++ List.replicate (padCount (s.codedBits T).length) false := by
  rw [bitStream_eq_unpack, unpack_pack_padded, padded, State.codedBits, List.flatMap_def]

/-- How COMPRESS of a non-empty DBUF ends: with CAPACITY, or with the payload in PBUF and the container in FBUF (R201). -/
theorem exec_compress_cases {s t : State} {T : CodeTree} (hwf : s.mem.wf s.caps = true) (hne : s.mem.dbuf ≠ [])
    (hT : (buildStore (countTable s.mem.dbuf)).tree? = some T) (h : exec .compress s = .next t) :
    t.err = 7 ∨
      t.err = 0 ∧ (pack (padded (s.codedBits T))).length ≤ s.caps.pbuf.toNat ∧
        t.mem.fbuf = containerBytes T.ser (wordOfNat s.mem.dbuf.length) (pack (padded (s.codedBits T))) := by
  by_cases hfit : ((s.codedBits T).length + 7) / 8 ≤ s.caps.pbuf.toNat
  · rw [exec_compress_payload_fits hwf hne hT hfit] at h
    rcases compressing_asmStep s hT (pack (padded (s.codedBits T))) (wordOfNat s.mem.dbuf.length) with ⟨_, e⟩ | ⟨_, e⟩ <;>
      rw [e] at h <;> cases h
    · exact .inl rfl
    · exact .inr ⟨rfl, (pack_padded_length _).trans_le hfit, rfl⟩
  · cases (exec_compress_payload_too_long hwf hne hT (Nat.not_le.1 hfit)).symm.trans h
    exact .inl rfl

end Sys2Proof.Machine

namespace Sys2Proof.Proofs

open Sys2Proof.Machine

/-- Settles O38: by whether the payload fits PBUF, and then whether the container fits FBUF; the command ENCODE or ASM and the
step of COMPRESS end alike. -/
theorem compressEqualsItsSteps : Obligations.CompressEqualsItsSteps := by
  intro s hwf hne
  have hlen : s.mem.dbuf.length < 2 ^ 32 := Memory.length_lt hwf .dbuf
  obtain ⟨T, hT, _⟩ := buildStore_tree (presentSyms_countTable hlen hne)
  obtain ⟨a, b, hcount, ha, hbuild, hb, hgen⟩ := exec_count_build_gen hwf hne hT
  have hencode := exec_encode_coded (s := (s.withTables T).after 0x03) rfl (genTable_covers hlen hne hT)
  by_cases hlong : s.caps.pbuf.toNat < ((s.codedBits T).length + 7) / 8
  · refine ⟨a, b, _, _, hcount, ha, hbuild, hb, hgen, rfl, hencode.trans (if_pos hlong), fun _ => ⟨rfl, rfl, ?_⟩, ?_⟩
    · exact exec_compress_payload_too_long hwf hne hT hlong
    · exact nofun
  · refine ⟨a, b, _, _, hcount, ha, hbuild, hb, hgen, rfl, hencode.trans (if_neg hlong), fun h => absurd rfl h, fun _ => ?_⟩
    rw [exec_asm rfl hT, exec_compress_payload_fits hwf hne hT (Nat.not_lt.1 hlong)]
    rcases compressing_asmStep s hT (pack (padded (s.codedBits T))) (wordOfNat s.mem.dbuf.length) with ⟨hfull, e⟩ | ⟨hroom, e⟩
    · exact ⟨_, if_pos hfull, fun _ => ⟨rfl, rfl⟩, by rw [e]; rfl⟩
    · exact ⟨_, if_neg (Nat.not_lt.2 hroom), fun h => absurd rfl h, by rw [e]; rfl⟩

/-- Settles O40: PARSE fails in both or in neither; when it completes, the command DECODE and the step of DECOMPRESS end alike:
CONTENT_LEN is too large, the loop fails, or it decodes. -/
theorem decompressEqualsItsSteps : Obligations.DecompressEqualsItsSteps := by
  intro s
  cases hparts : parseContainer s.caps s.mem.fbuf with
  | error e =>
    exact ⟨_, exec_parse_error hparts, fun _ => exec_decompress_parse_error hparts, fun h => absurd h e.kind.code_ne_zero⟩
  | ok p =>
    refine ⟨_, exec_parse_ok hparts, fun h => absurd rfl h, fun _ => ?_⟩
    obtain ⟨T, hT⟩ := parseContainer_tree hparts
    rw [exec_decompress_parsed hparts]
    rcases decodeStep_some (s := (openFrame .decompress 0x0B s).commitParsed p) rfl hT with
      ⟨hlong, hstep⟩ | ⟨hroom, ⟨e, he, hstep⟩ | ⟨D, hD, _, hstep⟩⟩ <;> rw [hstep]
    · exact ⟨_, exec_decode_too_long rfl hT hlong, fun _ => .inr ⟨rfl, rfl⟩, rfl⟩
    · exact ⟨_, exec_decode_error rfl hT hroom he, fun _ => .inl (decodeBytes_error_code he), rfl⟩
    · exact ⟨_, exec_decode_ok rfl hT hroom hD, fun h => absurd rfl h, rfl⟩

/-- Settles O39: PARSE delivers the parts, and DECODE with the unweighted tree finds the same codes. -/
theorem decompressDeliversTheContent : Obligations.DecompressDeliversTheContent := by
  intro s T X P D cs rest room hX hF htbuf hpbuf hdbuf hcoded hP
  obtain rfl : X = T.ser := hX.trans (recordsBytes_records T)
  have hlen : (wordOfNat D.length).toNat = D.length := toNat_wordOfNat (hdbuf.trans_lt s.caps.dbuf.isLt)
  have hF' : s.mem.fbuf = containerBytes T.ser (wordOfNat D.length) P := by rw [containerBytes_eq, hlen, hF]
  obtain ⟨hvalid, htree⟩ := preorder_store_valid T room
  exact ⟨T.preorderStore, T.unweighted, exec_decompress_container hF' room htbuf hpbuf hdbuf hcoded hP, hvalid, htree,
    T.shape_unweighted⟩

/-- Settles O41: when COMPRESS completes, FBUF is a container of the tree of the input, which has at most 511 nodes and 767 bytes
(R87), and its payload begins with the codes of the input. -/
theorem decompressUndoesCompress : Obligations.DecompressUndoesCompress := by
  intro s a hinv hne hcompress
  have hlen : s.mem.dbuf.length < 2 ^ 32 := Memory.length_lt hinv.mem_wf .dbuf
  have hvalid : (buildStore (countTable s.mem.dbuf)).valid := buildStore_valid (presentSyms_countTable hlen hne)
  obtain ⟨T, _, hT, _, _, _, hsize, hcap⟩ := hvalid.tree
  rcases exec_compress_cases hinv.mem_wf hne hT hcompress with herr | ⟨herr, hpayload, hF⟩
  · exact ⟨.inr herr, fun h => absurd (herr.symm.trans h) (by decide)⟩
  · refine ⟨.inl herr, fun _ s' hsame hdbuf htbuf hpbuf => ?_⟩
    have hser : T.ser.length ≤ s.caps.tbuf.toNat := hinv.sound.ser_le_tbuf hvalid hT
    have hinput : s.mem.dbuf.length ≤ s.caps.dbuf.toNat := (Memory.wf_iff _ _).1 hinv.mem_wf .dbuf
    exact ⟨_, exec_decompress_container (hsame.trans hF) (hsize.trans_le hcap) (hser.trans htbuf) (hpayload.trans hpbuf)
      (hinput.trans hdbuf) (codedAs_codeOf (genTable_covers hlen hne hT)) (bitStream_codedBits s T), rfl, rfl⟩

end Sys2Proof.Proofs

/-! SUPPORT. The answers of the host operations one by one: which of them are refused, and what the others deliver
(47_host_access.md rules R211 to R219). -/

namespace Sys2Proof.Machine

/-! ### Buffers -/

/-- A number is the id of a buffer, or it names none (R24). -/
theorem four_le_or_eq_bufId (k : Nat) : 4 ≤ k ∨ ∃ b, k = bufId b := by
  cases hb : bufOfId k with
  | none => exact .inl (bufOfId_eq_none.1 hb)
  | some b => exact .inr ⟨b, bufOfId_eq_some.1 hb⟩

theorem bufId_lt (b : Buf) : bufId b < 4 := by cases b <;> decide

theorem buffers_bufId (s : State) (b : Buf) : s.buffers[bufId b]? = some (b, s.buf b, capOf s.caps b) := by
  cases b <;> rfl

/-- What holds of the listed buffer with the id of b holds of b (R24). -/
theorem exists_buffers_bufId {s : State} {b : Buf} {P : List Byte → Nat → Prop} :
    (∃ (B : Buf) (X : List Byte) (cap : Nat), s.buffers[bufId b]? = some (B, X, cap) ∧ P X cap) ↔
      P (s.buf b) (capOf s.caps b) := by
  simp [buffers_bufId]

theorem hostClear_unknown {k : Nat} (hk : 4 ≤ k) (s : State) : hostClear k s = s.refuse := by
  rw [hostClear, bufOfId_eq_none.2 hk]

theorem hostPush_unknown {k : Nat} (hk : 4 ≤ k) (v : Nat) (s : State) : hostPush k v s = s.refuse := by
  rw [hostPush, bufOfId_eq_none.2 hk]

/-- H.PUSH of a number that is no byte, or to a full buffer (R212). -/
theorem hostPush_refused {b : Buf} {v : Nat} {s : State} (h : 256 ≤ v ∨ capOf s.caps b ≤ (s.buf b).length) :
    hostPush (bufId b) v s = s.refuse := by
  rw [hostPush, bufOfId_bufId]
  exact if_neg (by omega)

theorem hostRdByte_unknown {k : Nat} (hk : 4 ≤ k) (i : Nat) (s : State) : hostRdByte k i s = s.refuse := by
  rw [hostRdByte, bufOfId_eq_none.2 hk]

/-- H.RDBYTE below the length of the buffer (R213). -/
theorem hostRdByte_byte {b : Buf} {i : Nat} {v : Byte} {s : State} (h : (s.buf b)[i]? = some v) :
    hostRdByte (bufId b) i s = s.respond (.okByte v) := by
  have hread : s.mem.readByte b i = some v := h
  simp only [hostRdByte, bufOfId_bufId, hread]

/-- H.RDBYTE at or beyond the length of the buffer (R213). -/
theorem hostRdByte_beyond {b : Buf} {i : Nat} {s : State} (h : (s.buf b).length ≤ i) :
    hostRdByte (bufId b) i s = s.refuse := by
  have hread : s.mem.readByte b i = none := List.getElem?_eq_none h
  simp only [hostRdByte, bufOfId_bufId, hread]

/-- A buffer to which one byte was appended holds that byte after the bytes it held; no other buffer has changed (R212). -/
theorem readByte_put_append (m : Memory) (b : Buf) (v : Byte) :
    (m.put b (m.get b ++ [v])).readByte b (m.get b).length = some v ∧
      (m.put b (m.get b ++ [v])).readByte b ((m.get b).length + 1) = none ∧
      ∀ c i, (c ≠ b ∨ i < (m.get b).length) → (m.put b (m.get b ++ [v])).readByte c i = m.readByte c i := by
  rw [Memory.readByte_put_self, Memory.readByte_put_self]
  refine ⟨List.getElem?_concat_length, List.getElem?_eq_none (by simp), fun c i h => ?_⟩
  by_cases hc : c = b
  · subst hc
    rw [Memory.readByte_put_self, List.getElem?_append_left (h.resolve_left (absurd rfl)), Memory.readByte]
  · exact m.readByte_put_other hc _ i

/-! ### Registers -/

/-- H.WRREG of a value that does not fit, or to a register the host cannot write (R215). -/
theorem hostWrReg_refused {r v : Nat} {s : State} (h : 2 ^ 32 ≤ v ∨ r ≠ 0x04 ∧ r ≠ 0x00) :
    hostWrReg r v s = .next s.refuse := by
  rcases hostWrReg_cases r v s with ⟨rfl, hv, _⟩ | ⟨rfl, hv, _⟩ | ⟨_, e⟩
  · exact absurd h (by omega)
  · exact absurd h (by omega)
  · exact e

/-! ### Tables -/

theorem hostRdWt_unknown {x : Nat} (hx : 256 ≤ x) (s : State) : hostRdWt x s = s.refuse := by
  rw [hostRdWt, if_neg (Nat.not_lt.2 hx)]

theorem hostRdWt_invalid {s : State} (hs : s.wt = none) (x : Nat) : hostRdWt x s = s.refuse := by
  simp only [hostRdWt, hs, ite_self]

/-- H.RDWT of a valid table (R216). -/
theorem hostRdWt_entry {s : State} {W : WeightTable} (hs : s.wt = some W) {x : Nat} (hx : x < 256) :
    hostRdWt x s = s.respond (.okWord (W.get (BitVec.ofNat 8 x))) := by
  simp only [hostRdWt, if_pos hx, hs]

theorem hostRdCt_unknown {x : Nat} (hx : 256 ≤ x) (s : State) : hostRdCt x s = s.refuse := by
  rw [hostRdCt, if_neg (Nat.not_lt.2 hx)]

theorem hostRdCt_invalid {s : State} (hs : s.ct = none) (x : Nat) : hostRdCt x s = s.refuse := by
  simp only [hostRdCt, hs, ite_self]

/-- H.RDCT of a valid table, whether or not the entry is valid (R217). -/
theorem hostRdCt_entry {s : State} {C : CodeTable} (hs : s.ct = some C) {x : Nat} (hx : x < 256) :
    hostRdCt x s = s.respond (codeResponse (C.get (BitVec.ofNat 8 x))) := by
  simp only [hostRdCt, if_pos hx, hs]

theorem codeResponse_ne_refused (c : Option Bits) : codeResponse c ≠ .refused := by
  cases c <;> exact nofun

theorem hostRdNode_invalid {s : State} (hs : s.tree = none) (i : Nat) : hostRdNode i s = s.refuse := by
  simp only [hostRdNode, hs]

/-- H.RDNODE at or beyond NODE_CNT (R218). -/
theorem hostRdNode_beyond {s : State} {st : NodeStore} (hs : s.tree = some st) {i : Nat} (hi : st.nodes.length ≤ i) :
    hostRdNode i s = s.refuse := by
  simp only [hostRdNode, hs, List.getElem?_eq_none hi]

/-- H.RDNODE below NODE_CNT (R218). -/
theorem hostRdNode_record {s : State} {st : NodeStore} (hs : s.tree = some st) {i : Nat} {n : Node}
    (hi : st.nodes[i]? = some n) : hostRdNode i s = s.respond (.okNode n.record) := by
  simp only [hostRdNode, hs, hi]

/-! ### Refusals -/

/-- The outcome o of an operation in the state s is REFUSED, with no other change, when P holds, and is not REFUSED
otherwise (R219). -/
def refusedIff (s : State) (o : Host.Outcome State Fault Refusal) (P : Prop) : Prop :=
  P ∧ o = .next s.refuse ∨ ¬ P ∧ ∀ t, o = .next t → t.response ≠ some .refused

theorem refusedIff_of_refuse {s u : State} {P : Prop} (hP : P) (h : u = s.refuse) : refusedIff s (.next u) P :=
  .inl ⟨hP, congrArg _ h⟩

theorem refusedIff_of_respond {s u u' : State} {P : Prop} {r : Response} (hP : ¬ P) (h : u = u'.respond r)
    (hr : r ≠ .refused) : refusedIff s (.next u) P := by
  refine .inr ⟨hP, fun t ht => ?_⟩
  cases ht
  rw [h, State.respond_response]
  exact fun e => hr (Option.some.inj e)

theorem refusedIff.next {s t : State} {o : Host.Outcome State Fault Refusal} {P : Prop} (h : refusedIff s o P)
    (ht : o = .next t) :
    (t.response = some .refused → t = { s with response := some .refused }) ∧ (t.response = some .refused ↔ P) := by
  rcases h with ⟨hP, e⟩ | ⟨hP, hne⟩
  · cases e.symm.trans ht
    exact ⟨fun _ => rfl, iff_of_true rfl hP⟩
  · exact ⟨fun e => absurd e (hne t ht), iff_of_false (hne t ht) hP⟩

theorem hostClear_refusedIff (k : Nat) (s : State) : refusedIff s (.next (hostClear k s)) (4 ≤ k) := by
  rcases four_le_or_eq_bufId k with hk | ⟨b, rfl⟩
  · exact refusedIff_of_refuse hk (hostClear_unknown hk s)
  · exact refusedIff_of_respond (Nat.not_le.2 (bufId_lt b)) (hostClear_id b s) nofun

theorem hostPush_refusedIff (k v : Nat) (s : State) :
    refusedIff s (.next (hostPush k v s)) (4 ≤ k ∨ 256 ≤ v ∨
      ∃ (B : Buf) (X : List Byte) (cap : Nat), s.buffers[k]? = some (B, X, cap) ∧ cap ≤ X.length) := by
  rcases four_le_or_eq_bufId k with hk | ⟨b, rfl⟩
  · exact refusedIff_of_refuse (.inl hk) (hostPush_unknown hk v s)
  · have hb := bufId_lt b
    rw [exists_buffers_bufId (P := fun X cap => cap ≤ X.length)]
    by_cases h : 256 ≤ v ∨ capOf s.caps b ≤ (s.buf b).length
    · exact refusedIff_of_refuse (.inr h) (hostPush_refused h)
    · exact refusedIff_of_respond (by omega) (hostPush_room (by omega) (by omega)) nofun

theorem hostRdByte_refusedIff (k i : Nat) (s : State) :
    refusedIff s (.next (hostRdByte k i s)) (4 ≤ k ∨
      ∃ (B : Buf) (X : List Byte) (cap : Nat), s.buffers[k]? = some (B, X, cap) ∧ X.length ≤ i) := by
  rcases four_le_or_eq_bufId k with hk | ⟨b, rfl⟩
  · exact refusedIff_of_refuse (.inl hk) (hostRdByte_unknown hk i s)
  · have hb := bufId_lt b
    rw [exists_buffers_bufId (P := fun X _ => X.length ≤ i)]
    by_cases h : (s.buf b).length ≤ i
    · exact refusedIff_of_refuse (.inr h) (hostRdByte_beyond h)
    · exact refusedIff_of_respond (by omega) (hostRdByte_byte (List.getElem?_eq_getElem (Nat.not_le.1 h))) nofun

/-- Of the sixteen registers CMD alone cannot be read (R38, R214). -/
theorem readReg_eq_none {s : State} {reg : Reg} : s.readReg reg = none ↔ reg = .cmd := by
  cases reg <;> simp [State.readReg]

/-- CMD has the number 0 and no other (R38). -/
theorem regOfNumber_eq_cmd {r : Nat} : regOfNumber r = some .cmd ↔ r = 0x00 := by
  constructor
  · intro h
    rw [regOfNumber.eq_def] at h
    split at h <;> cases h
    rfl
  · rintro rfl
    rfl

theorem hostRdReg_refusedIff (r : Nat) (s : State) : refusedIff s (.next (hostRdReg r s)) (r = 0x00 ∨ 0x10 ≤ r) := by
  rw [hostRdReg, ← regOfNumber_eq_none, ← regOfNumber_eq_cmd]
  cases regOfNumber r with
  | none => exact refusedIff_of_refuse (.inr rfl) rfl
  | some reg =>
    cases hw : s.readReg reg with
    | none => exact refusedIff_of_refuse (.inl (congrArg some (readReg_eq_none.1 hw))) (by simp only [hw])
    | some w =>
      have hcmd : reg ≠ .cmd := fun e => by cases hw.symm.trans (readReg_eq_none.2 e)
      exact refusedIff_of_respond (u' := s) (r := .okWord w) (by simp [hcmd]) (by simp only [hw]) nofun

theorem hostWrReg_refusedIff (r v : Nat) (s : State) :
    refusedIff s (hostWrReg r v s) (r ≠ 0x00 ∧ r ≠ 0x04 ∨ 2 ^ 32 ≤ v) := by
  rcases hostWrReg_cases r v s with ⟨rfl, hv, e⟩ | ⟨rfl, hv, e⟩ | ⟨h, e⟩ <;> rw [e]
  · exact refusedIff_of_respond (by omega) rfl nofun
  · refine .inr ⟨by omega, fun t ht => ?_⟩
    obtain ⟨u, _, rfl⟩ := respondOk_next ht
    exact nofun
  · exact refusedIff_of_refuse (by omega) rfl

theorem hostRdWt_refusedIff (x : Nat) (s : State) : refusedIff s (.next (hostRdWt x s)) (256 ≤ x ∨ s.wt = none) := by
  by_cases hx : 256 ≤ x
  · exact refusedIff_of_refuse (.inl hx) (hostRdWt_unknown hx s)
  · cases hs : s.wt with
    | none => exact refusedIff_of_refuse (.inr rfl) (hostRdWt_invalid hs x)
    | some W => exact refusedIff_of_respond (by simp [hx]) (hostRdWt_entry hs (Nat.not_le.1 hx)) nofun

theorem hostRdCt_refusedIff (x : Nat) (s : State) : refusedIff s (.next (hostRdCt x s)) (256 ≤ x ∨ s.ct = none) := by
  by_cases hx : 256 ≤ x
  · exact refusedIff_of_refuse (.inl hx) (hostRdCt_unknown hx s)
  · cases hs : s.ct with
    | none => exact refusedIff_of_refuse (.inr rfl) (hostRdCt_invalid hs x)
    | some C =>
      exact refusedIff_of_respond (by simp [hx]) (hostRdCt_entry hs (Nat.not_le.1 hx)) (codeResponse_ne_refused _)

theorem hostRdNode_refusedIff (i : Nat) (s : State) :
    refusedIff s (.next (hostRdNode i s)) (s.tree = none ∨ ∃ st, s.tree = some st ∧ st.nodes.length ≤ i) := by
  cases hs : s.tree with
  | none => exact refusedIff_of_refuse (.inl rfl) (hostRdNode_invalid hs i)
  | some st =>
    by_cases hi : st.nodes.length ≤ i
    · exact refusedIff_of_refuse (.inr ⟨st, rfl, hi⟩) (hostRdNode_beyond hs hi)
    · exact refusedIff_of_respond (by simpa using hi)
        (hostRdNode_record hs (List.getElem?_eq_getElem (Nat.not_le.1 hi))) nofun

end Sys2Proof.Machine

namespace Sys2Proof.Proofs

open Sys2Proof.Machine

/-- Settles O55: operation by operation. -/
theorem refusedOperations : Obligations.RefusedOperations := by
  intro op s t h
  cases op with
  | reset => exact (refusedIff_of_respond (P := False) not_false (r := .ok) rfl nofun).next h
  | clear b => exact (hostClear_refusedIff b s).next h
  | push b v => exact (hostPush_refusedIff b v s).next h
  | rdbyte b i => exact (hostRdByte_refusedIff b i s).next h
  | rdreg r => exact (hostRdReg_refusedIff r s).next h
  | wrreg r v => exact (hostWrReg_refusedIff r v s).next h
  | rdwt x => exact (hostRdWt_refusedIff x s).next h
  | rdct x => exact (hostRdCt_refusedIff x s).next h
  | rdnode i => exact (hostRdNode_refusedIff i s).next h

/-- Settles O51: an id in the list of buffers is that of the buffer there, and each operation is known by it. -/
theorem bufferOperations : Obligations.BufferOperations := by
  intro s k b X cap hk
  obtain ⟨rfl, rfl, rfl⟩ := buffers_getElem? hk
  refine ⟨⟨s.mem.put b [], congrArg _ (hostClear_id b s), s.mem.readByte_put_self b [], fun c i hc => ?_⟩, fun v hv room => ?_,
    fun v _ hfull => congrArg _ (hostPush_refused (.inr hfull)), fun i v h => congrArg _ (hostRdByte_byte h),
    fun i h => congrArg _ (hostRdByte_beyond h)⟩
  · exact s.mem.readByte_put_other hc [] i
  · exact ⟨_, congrArg _ (hostPush_room hv room), readByte_put_append s.mem b _⟩

/-- Settles O52: each table in turn. The length of a code of at most 255 bits fits the byte that delivers it. -/
theorem tableReads : Obligations.TableReads := by
  intro s
  refine ⟨fun x hs => congrArg _ (hostRdWt_invalid hs x), fun W x hs hx => congrArg _ (hostRdWt_entry hs hx),
    fun x hs => congrArg _ (hostRdCt_invalid hs x), fun C x hs hx hc => ?_, fun C x c hs hx hc hlen => ?_,
    fun i hs => congrArg _ (hostRdNode_invalid hs i), fun st i v w hs hi => congrArg _ (hostRdNode_record hs hi),
    fun st i w l r hs hi => congrArg _ (hostRdNode_record hs hi), fun st i hs hi => congrArg _ (hostRdNode_beyond hs hi)⟩
  · have hread := hostRdCt_entry hs hx
    rw [hc] at hread
    exact congrArg _ hread
  · exact ⟨_, _, hostOp_rdct hs hx hc, Nat.mod_eq_of_lt (by omega)⟩

/-- Settles O54: a value that fits reaches CONTENT_LEN or CMD; every other write is refused. -/
theorem registerWrites : Obligations.RegisterWrites := by
  intro s r v
  refine ⟨fun hv => if_pos hv, fun hv => ?_, fun h0 h4 => hostWrReg_refused (.inr ⟨h4, h0⟩),
    fun hv => hostWrReg_refused (.inl hv)⟩
  have hcmd : hostOp (.wrreg 0x00 v) s = respondOk (issueCommand (BitVec.ofNat 32 v) s) := if_pos hv
  rw [hcmd]
  cases issueCommand (BitVec.ofNat 32 v) s <;> rfl

end Sys2Proof.Proofs

/-! SUPPORT. The exceptions: which errors each body can raise, what a command that faulted has left, and that issued again it
faults again (60_exceptions.md rules R231 to R239, R244, R254). -/

namespace Sys2Proof.Machine

/-! ### Sources that are not valid -/

theorem needWt_none {s : State} (h : s.wt = none) (body : WeightTable → StepResult) :
    needWt s body = .raised s (sequenceError 1) := by
  rw [needWt, h]

theorem needWt_some {s : State} {W : WeightTable} (h : s.wt = some W) (body : WeightTable → StepResult) :
    needWt s body = body W := by
  rw [needWt, h]

/-- BUILD without WT (R244). -/
theorem exec_build_noTable {s : State} (hs : s.wt = none) :
    exec .build s = .next ({ s with tree := none }.afterError 0x02 5 1 0) := by
  rw [exec, execBuild, frame, buildStep, needWt_none (s := openFrame .build 0x02 s) hs]
  rfl

/-- GEN without a tree (R244). -/
theorem exec_gen_noTree {s : State} (hs : s.tree = none) :
    exec .gen s = .next ({ s with ct := none }.afterError 0x03 5 2 0) := by
  rw [exec, execGen, frame, genStep, needTree_none (s := openFrame .gen 0x03 s) hs]
  rfl

/-- SER without a tree (R244). -/
theorem exec_ser_noTree {s : State} (hs : s.tree = none) :
    exec .ser s = .next ({ s with mem := { s.mem with tbuf := [] } }.afterError 0x05 5 2 0) := by
  rw [exec, execSer, frame, serStep, needTree_none (s := openFrame .ser 0x05 s) hs]
  rfl

/-! ### Empty input -/

/-- A table is empty when all its counters are 0 (R112, R239). -/
theorem presentSyms_eq_nil {W : WeightTable} (h : ∀ b, W.get b = 0) : presentSyms W = [] :=
  List.eq_nil_iff_forall_not_mem.2 fun b hb => mem_presentSyms.1 hb (h b)

/-- BUILD of the empty table (R239). -/
theorem exec_build_empty {s : State} {W : WeightTable} (hs : s.wt = some W) (hW : ∀ b, W.get b = 0) :
    exec .build s = .next ({ s with tree := none }.afterError 0x02 1 0 0) := by
  rw [exec, execBuild, frame, buildStep, needWt_some (s := openFrame .build 0x02 s) hs, if_pos (presentSyms_eq_nil hW)]
  rfl

/-- COMPRESS of an empty DBUF ends before its first step (R239). -/
theorem exec_compress_empty {s : State} (hs : s.mem.dbuf = []) :
    exec .compress s =
      .next ({ s with mem := { dbuf := s.mem.dbuf, tbuf := [], pbuf := [], fbuf := [] }, wt := none, tree := none, ct := none,
                      contentLen := 0 }.afterError 0x0A 1 0 0) := by
  have hopen : (openFrame .compress 0x0A s).buf .dbuf = [] := hs
  rw [exec, execCompress, frame, compressStep, if_pos hopen]
  rfl

/-- ENCODE of an empty DBUF makes an empty payload, which fits every PBUF (R141, R239). -/
theorem exec_encode_empty {s : State} {C : CodeTable} (hs : s.ct = some C) (hempty : s.mem.dbuf = []) :
    exec .encode s = .next ({ s with mem := { s.mem with pbuf := [] }, contentLen := 0 }.after 0x04) := by
  rw [exec_encode hs, hempty]
  exact if_neg (Nat.not_lt_zero _)

/-! ### The errors a command can end with -/

/-- The error a body raised is one of a list of error codes with their sub-causes (R231, R232, R234). -/
def StepResult.RaisesOnly (reports : List (BitVec 4 × BitVec 4)) : StepResult → Prop
  | .done _ => True
  | .raised _ e => (e.kind.code, e.sub) ∈ reports
  | .stuck _ => True

theorem StepResult.RaisesOnly.mono {reports more : List (BitVec 4 × BitVec 4)} {r : StepResult} (h : r.RaisesOnly reports)
    (hsub : reports ⊆ more) : r.RaisesOnly more := by
  cases r with
  | raised u e => exact hsub h
  | _ => trivial

/-- STATUS after a command: a success, or an error its body can raise (R231, R235 step 6). -/
theorem StepResult.RaisesOnly.finish {reports : List (BitVec 4 × BitVec 4)} {r : StepResult} {t : State}
    (hr : r.RaisesOnly reports) (h : finish r = .next t) : (t.err, t.sub) ∈ (0#4, 0#4) :: reports := by
  rcases finish_next h with ⟨u, _, rfl⟩ | ⟨u, e, rfl, rfl⟩
  · exact List.mem_cons_self
  · exact List.mem_cons_of_mem _ hr

theorem buildStep_raisesOnly (s : State) : (buildStep s).RaisesOnly [(1, 0), (5, 1)] := by
  rcases buildStep_cases s with ⟨_, e⟩ | ⟨_, _, _, e⟩ | ⟨_, _, _, e⟩ <;> rw [e]
  · exact .tail _ (.head _)
  · exact .head _
  · trivial

theorem encodeStep_raisesOnly (s : State) : (encodeStep s).RaisesOnly [(5, 3), (6, 0), (7, 3)] := by
  rcases encodeStep_cases s with ⟨_, e⟩ | ⟨_, _, ⟨_, _, _, _, _, _, e⟩ | ⟨_, ⟨_, e⟩ | ⟨_, e⟩⟩⟩ <;> rw [e]
  · exact .head _
  · exact .tail _ (.head _)
  · exact .tail _ (.tail _ (.head _))
  · trivial

/-- A step that needs the tree raises SEQUENCE sub 2, or what it raises on a tree (R244). -/
theorem needTree_raisesOnly {reports : List (BitVec 4 × BitVec 4)} {s : State} {body : CodeTree → StepResult}
    (hnone : (5, 2) ∈ reports)
    (hsome : ∀ st T, s.tree = some st → st.tree? = some T → (needTree s body).RaisesOnly reports) :
    (needTree s body).RaisesOnly reports := by
  rcases needTree_three s body with ⟨_, e⟩ | ⟨st, T, hs, hT, _⟩ | e
  · rw [e]
    exact hnone
  · exact hsome st T hs hT
  · rw [e]
    trivial

theorem genStep_raisesOnly (s : State) : (genStep s).RaisesOnly [(5, 2)] := by
  refine needTree_raisesOnly (.head _) fun st T hs hT => ?_
  rw [needTree_some hs hT]
  trivial

theorem serStep_raisesOnly (s : State) : (serStep s).RaisesOnly [(5, 2)] := by
  refine needTree_raisesOnly (.head _) fun st T hs hT => ?_
  rw [needTree_some hs hT]
  trivial

theorem asmStep_raisesOnly (s : State) : (asmStep s).RaisesOnly [(5, 2), (7, 4)] := by
  refine needTree_raisesOnly (.head _) fun st T hs hT => ?_
  rcases asmStep_some hs hT with ⟨_, e⟩ | ⟨_, e⟩ <;> rw [asmStep] at e <;> rw [e]
  · exact .tail _ (.head _)
  · trivial

/-- DECODE on a tree (R145, R149). -/
theorem decodeStep_raisesOnly_of_tree {s : State} {st : NodeStore} {T : CodeTree} (hs : s.tree = some st)
    (hT : st.tree? = some T) : (decodeStep s).RaisesOnly [(4, 1), (4, 2), (7, 1)] := by
  rcases decodeStep_some hs hT with ⟨_, e⟩ | ⟨_, ⟨_, he, e⟩ | ⟨_, _, _, e⟩⟩ <;> rw [e]
  · exact .tail _ (.tail _ (.head _))
  · obtain ⟨n, rfl | rfl⟩ := decodeLoop_error he
    · exact .head _
    · exact .tail _ (.head _)
  · trivial

theorem decodeStep_raisesOnly (s : State) : (decodeStep s).RaisesOnly [(4, 1), (4, 2), (5, 2), (7, 1)] :=
  needTree_raisesOnly (by decide) fun _ _ hs hT => (decodeStep_raisesOnly_of_tree hs hT).mono (by decide)

theorem readTree_error_report {X : List Byte} {e : CmdError} (h : readTree X = .error e) :
    (e.kind.code, e.sub) ∈ [(2#4, 1#4), (2, 2), (7, 5)] := by
  rcases readRecords_error X h with ⟨n, rfl⟩ | ⟨n, rfl⟩ | rfl
  · exact .head _
  · exact .tail _ (.head _)
  · exact .tail _ (.tail _ (.head _))

theorem deserStep_raisesOnly (s : State) : (deserStep s).RaisesOnly [(2, 1), (2, 2), (7, 5)] := by
  rcases deserStep_cases s with ⟨_, he, e⟩ | ⟨_, _, e⟩ <;> rw [e]
  · exact readTree_error_report he
  · trivial

theorem parseContainer_error_report {c : Capacities} {F : List Byte} {e : CmdError} (h : parseContainer c F = .error e) :
    (e.kind.code, e.sub) ∈ [(2#4, 1#4), (2, 2), (2, 3), (3, 1), (3, 2), (3, 3), (7, 2), (7, 3), (7, 5)] := by
  rcases parseContainer_error h with rfl | rfl | ⟨n, rfl⟩ | rfl | rfl | ⟨n, rfl⟩ | ⟨X, hX⟩
  case inr.inr.inr.inr.inr.inr =>
    exact (by decide : [(2#4, 1#4), (2, 2), (7, 5)] ⊆ _) (readTree_error_report hX)
  all_goals simp [truncatedFileError, capacityError, malformedTreeError, ErrorKind.code]

theorem parseStep_raisesOnly (s : State) :
    (parseStep s).RaisesOnly [(2, 1), (2, 2), (2, 3), (3, 1), (3, 2), (3, 3), (7, 2), (7, 3), (7, 5)] := by
  rcases parseStep_cases s with ⟨_, he, e⟩ | ⟨_, _, e⟩ <;> rw [e]
  · exact parseContainer_error_report he
  · trivial

/-- DECODE inside DECOMPRESS has the tree PARSE delivered, so SEQUENCE is not among the errors (R202, R234). -/
theorem decompressStep_raisesOnly (s : State) :
    (decompressStep s).RaisesOnly
      [(2, 1), (2, 2), (2, 3), (3, 1), (3, 2), (3, 3), (4, 1), (4, 2), (7, 1), (7, 2), (7, 3), (7, 5)] := by
  rw [decompressStep]
  rcases parseStep_cases s with ⟨_, _, e⟩ | ⟨p, hp, e⟩
  · have hparse := parseStep_raisesOnly s
    rw [e] at hparse ⊢
    exact hparse.mono (by decide)
  · obtain ⟨T, hT⟩ := parseContainer_tree hp
    rw [e, andThen_done]
    exact (decodeStep_raisesOnly_of_tree rfl hT).mono (by decide)

/-- COMPRESS of a non-empty DBUF ends as ENCODE or ASM does there, so only CAPACITY is among the errors beside EMPTY_INPUT
(R201, R234). -/
theorem exec_compress_report {s t : State} (hwf : s.mem.wf s.caps = true) (h : exec .compress s = .next t) :
    (t.err, t.sub) ∈ [(0#4, 0#4), (1, 0), (7, 3), (7, 4)] := by
  by_cases hempty : s.mem.dbuf = []
  · cases (exec_compress_empty hempty).symm.trans h
    exact .tail _ (.head _)
  · obtain ⟨_, _, _, d, _, _, _, _, _, _, _, hencode, hasm⟩ := Proofs.compressEqualsItsSteps s hwf hempty
    by_cases hd : d.err = 0
    · obtain ⟨e, he, hfault, hcompress⟩ := hasm hd
      cases hcompress.symm.trans h
      by_cases he0 : e.err = 0
      · obtain ⟨_, hcompleted, _⟩ := Proofs.everyCommandReports .asm 0x06 d e rfl he
        obtain ⟨hsub, _⟩ := hcompleted he0
        simp [he0, hsub]
      · simp [hfault he0]
    · obtain ⟨herr, hsub, hcompress⟩ := hencode hd
      cases hcompress.symm.trans h
      simp [herr, hsub]

/-! ### What a failed command leaves -/

/-- A composite that raised has kept what its first part keeps and the others do before they raise (R204, R237). -/
theorem andThen_raised_keeps {objs : List Obj} {s v : State} {r : StepResult} {f : State → StepResult} {e : CmdError}
    (hr : r.keeps objs s) (hf : ∀ u v e, f u = .raised v e → Keeps objs u v) (h : r.andThen f = .raised v e) :
    Keeps objs s v := by
  rcases andThen_cases r f with ⟨u, rfl, _⟩ | ⟨u, e', rfl, h'⟩ | ⟨x, rfl, h'⟩
  · exact Keeps.trans hr (hf u v e h)
  · cases h'.symm.trans h
    exact hr
  · cases h'.symm.trans h

theorem raisesHere.keeps {body : State → StepResult} (hb : raisesHere body) (objs : List Obj) :
    ∀ u v e, body u = .raised v e → Keeps objs u v := by
  intro u v e h
  rw [hb u v e h]
  exact Keeps.refl objs u

/-- Only ASM writes FBUF, and it is the last step of COMPRESS (R200, R237). -/
theorem compressStep_raised_fbuf {u v : State} {e : CmdError} (h : compressStep u = .raised v e) :
    v.buf .fbuf = u.buf .fbuf := by
  rw [compressStep] at h
  split at h
  · cases h
    rfl
  · have htables : (((countStep u).andThen buildStep).andThen genStep).keeps [.wt, .tree, .ct, .buf .pbuf, .contentLen] u := by
      refine ((((countStep_keeps u).mono (by decide)).andThen fun x => ?_).andThen fun x => ?_)
      · exact (buildStep_keeps x).mono (by decide)
      · exact (genStep_keeps x).mono (by decide)
    have hrest := andThen_raised_keeps htables (fun x y e => andThen_raised_keeps ((encodeStep_keeps x).mono (by decide))
      (asmStep_raises.keeps _)) h
    exact sameObj_buf.1 (hrest.obj (.buf .fbuf) (by decide))

/-- Only DECODE writes DBUF, and it is the last step of DECOMPRESS (R202, R237). -/
theorem decompressStep_raised_dbuf {u v : State} {e : CmdError} (h : decompressStep u = .raised v e) :
    v.buf .dbuf = u.buf .dbuf :=
  have hkeeps := andThen_raised_keeps (parseStep_keeps u) (decodeStep_raises.keeps _) h
  sameObj_buf.1 (hkeeps.obj (.buf .dbuf) (by decide))

/-! ### Issuing a command again -/

/-- No command has an object as source and as destination (R47). -/
theorem sources_disjoint_destinations (i : Instr) : (sources i).Disjoint (destinations i) := by
  cases i <;> simp [sources, destinations]

/-- Two states that differ in no object and not in the error report are equal. -/
theorem Keeps.eq {s t : State} (h : Keeps [] s t) (herr : t.err = s.err) (hsub : t.sub = s.sub)
    (hinfo : t.errinfo = s.errinfo) : t = s := by
  have hobj : ∀ o, sameObj s t o := fun o => h.obj o List.not_mem_nil
  have hmem : t.mem = s.mem := Memory.ext_get fun b => sameObj_buf.1 (hobj (.buf b))
  have hwt : t.wt = s.wt := hobj .wt
  have htree : t.tree = s.tree := hobj .tree
  have hct : t.ct = s.ct := hobj .ct
  have hcontent : t.contentLen = s.contentLen := hobj .contentLen
  have hconsumed : t.consumed = s.consumed := hobj .consumed
  obtain ⟨_, hcaps, hhost, hresponse, hreading, hlastop, herrlog⟩ := h
  cases s
  cases t
  simp_all only

end Sys2Proof.Machine

namespace Sys2Proof.Proofs

open Sys2Proof.Machine

/-- Settles O16: the empty table has no present byte value, and the empty input no byte without a code. -/
theorem emptyInputRule : Obligations.EmptyInputRule := by
  intro s
  refine ⟨fun W hs hW => exec_build_empty hs hW, fun hempty => ?_, fun _ => ⟨_, exec_count s, rfl⟩,
    fun hempty C hs => exec_encode_empty hs hempty⟩
  rw [exec_compress_empty hempty, hempty]

/-- Settles O43: COUNT completes, and the other commands end with the errors their bodies raise. -/
theorem onlyTheListedErrors : Obligations.OnlyTheListedErrors := by
  intro s t hwf
  refine ⟨fun h => ?_, (buildStep_raisesOnly _).finish, (genStep_raisesOnly _).finish, (encodeStep_raisesOnly _).finish,
    (decodeStep_raisesOnly _).finish, (serStep_raisesOnly _).finish, (deserStep_raisesOnly _).finish,
    (asmStep_raisesOnly _).finish, (parseStep_raisesOnly _).finish, exec_compress_report hwf,
    (decompressStep_raisesOnly _).finish⟩
  cases (exec_count s).symm.trans h
  exact .head _

/-- Settles O44: a command without inner steps leaves what its frame opened with; in a composite only the last step writes the
last buffer. -/
theorem failedCommandLeavesNothing : Obligations.FailedCommandLeavesNothing := by
  intro s t herr
  refine ⟨fun h => ?_, fun h => ?_, fun h => ?_, fun h => ?_, fun h => ?_, fun h => ?_, fun h => ?_, fun h => ?_, fun h => ?_,
    fun h => ?_⟩
  · obtain ⟨e, rfl⟩ := frame_opened buildStep_raises h herr
    exact ⟨rfl, rfl, rfl⟩
  · obtain ⟨e, rfl⟩ := frame_opened genStep_raises h herr
    rfl
  · obtain ⟨e, rfl⟩ := frame_opened encodeStep_raises h herr
    exact ⟨rfl, rfl⟩
  · obtain ⟨e, rfl⟩ := frame_opened decodeStep_raises h herr
    rfl
  · obtain ⟨e, rfl⟩ := frame_opened serStep_raises h herr
    rfl
  · obtain ⟨e, rfl⟩ := frame_opened deserStep_raises h herr
    exact ⟨rfl, rfl, rfl, rfl⟩
  · obtain ⟨e, rfl⟩ := frame_opened asmStep_raises h herr
    exact ⟨rfl, rfl⟩
  · obtain ⟨e, rfl⟩ := frame_opened parseStep_raises h herr
    exact ⟨rfl, rfl, rfl, rfl, rfl, rfl, rfl⟩
  · obtain ⟨u, e, hbody, rfl⟩ := frame_fault h herr
    exact compressStep_raised_fbuf hbody
  · obtain ⟨u, e, hbody, rfl⟩ := frame_fault h herr
    exact decompressStep_raised_dbuf hbody

/-- Settles O45: a command leaves its sources as they were, so issued again it makes the same destinations and the same error
report (`onlySourcesMatter`), and the bit it adds to ERRLOG is already set. -/
theorem faultRepeats : Obligations.FaultRepeats := by
  intro i w s t hw hexec herr
  obtain ⟨body, hframe, hkeeps⟩ := exec_frame hw
  obtain ⟨hobj, hcaps, _, _, _, _, _, hlog⟩ := frame_keeps hkeeps ((hframe s).symm.trans hexec)
  have hsources : ∀ o ∈ sources i, sameObj s t o := fun o ho => hobj o (sources_disjoint_destinations i ho)
  obtain ⟨t', hagain, herr', hsub', hinfo', hlastop', hdest⟩ := onlySourcesMatter i w s t t hw hcaps hsources hexec
  obtain ⟨hobj', hcaps', hhost', hresponse', hreading', _, _, hlog'⟩ :=
    frame_keeps hkeeps ((hframe t).symm.trans hagain)
  have herrlog : t'.errlog = t.errlog := by
    rw [hlog' (herr' ▸ herr), herr', hlog herr, BitVec.or_assoc, BitVec.or_self]
  have hsame : ∀ o, o ∉ [] → sameObj t t' o := fun o _ =>
    if ho : o ∈ destinations i then hdest o ho else hobj' o ho
  have hkept : Keeps [] t t' := ⟨hsame, hcaps', hhost', hresponse', hreading', hlastop', herrlog⟩
  rw [hagain, hkept.eq herr' hsub' hinfo']

/-- Settles O8: with no tree being read and no host operation to take, the sequencer does nothing. -/
theorem idleBlockKeepsItsState : Obligations.IdleBlockKeepsItsState := by
  intro s hreading hhost
  rw [step, turn, if_pos hreading, hostTurn, hhost]

/-- Settles O42: the source check fails right after the frame has cleared the destinations. -/
theorem sequenceErrors : Obligations.SequenceErrors := fun _ =>
  ⟨exec_build_noTable, exec_gen_noTree, exec_encode_noTable, exec_decode_noTree, exec_ser_noTree, exec_asm_noTree⟩

end Sys2Proof.Proofs
